-- ==== Sys2Proof/Word.lean ====
section
/-! DEFINITION. The words of the RouterDataplane CORE: the bit widths that `spec/00_scope.md` rule R6 fixes
(`AW` = 32, `LAW` = 48, `CSW` = 16, `MAX_DEPTH` = 32), bytes (rule R9) and keys (rule R13).
All values are unsigned (rule R9). -/

namespace Sys2Proof

/-- One byte of a frame, a header or a payload (rule R9). -/
abbrev Byte := BitVec 8

/-- An IPv4 address, a destination address block, a mask or a next hop, in numeric order (rules R6, R10). -/
abbrev Addr := BitVec 32

/-- A 6-byte link address, the first byte on the wire most significant (rules R6, R10). -/
abbrev LinkAddr := BitVec 48

/-- A checksum value (rule R6, `CSW`). -/
abbrev Sum16 := BitVec 16

/-- A command word or a response word (rules R21, R22). -/
abbrev PortWord := BitVec 128

/-- A key of the trie: the bits of an address consumed so far, the first one first; `[]` is the empty key
(rule R13). -/
abbrev Key := List Bool

/-- The greatest depth of the trie (rule R6, `MAX_DEPTH`). -/
abbrev maxDepth : Nat := 32

end Sys2Proof
end

