-- ==== Sys2Proof/Syntax.lean ====
section
/-! DEFINITION. The ten commands of `spec/30_encoding.md` rule R84, one constructor each, with the operands of
rules R81 and R83. A command is a pair of a 128-bit word and a payload (rule R80); a payload-bearing command's
payload is one of its operands, and its `LEN` field is the payload's length (rule R92). -/

namespace Sys2Proof

/-- The ten operation codes by name (rule R84). -/
inductive Opcode where
  | ifSet | rtInsert | nbInsert | cfgSeal | stRead
  | rtLookup | nbResolve
  | csCompute | csValidate
  | pktProcess
deriving DecidableEq, Repr

/-- The ten commands (rule R84), the operands in the order of rule R92. -/
inductive Instr where
  /-- `IF.SET if, ip, mac` (rule R201). -/
  | ifSet (ifid : BitVec 8) (ip : Addr) (mac : LinkAddr)
  /-- `RT.INSERT prefix, mask, next_hop, if` (rule R112). -/
  | rtInsert (pfx mask nextHop : Addr) (ifid : BitVec 8)
  /-- `NB.INSERT ip, mac` (rule R152). -/
  | nbInsert (ip : Addr) (mac : LinkAddr)
  /-- `CFG.SEAL` (rule R202). -/
  | cfgSeal
  /-- `ST.READ` (rule R203). -/
  | stRead
  /-- `RT.LOOKUP ip` (rule R117). -/
  | rtLookup (ip : Addr)
  /-- `NB.RESOLVE ip` (rule R153). -/
  | nbResolve (ip : Addr)
  /-- `CS.COMPUTE bytes` (rule R133). -/
  | csCompute (payload : List Byte)
  /-- `CS.VALIDATE coff, claimed, bytes` (rule R135). -/
  | csValidate (coff claimed : BitVec 16) (payload : List Byte)
  /-- `PKT.PROCESS if, bytes` (rule R162). -/
  | pktProcess (ifid : BitVec 8) (payload : List Byte)
deriving DecidableEq, Repr

/-- Which of the ten a command is. -/
def Instr.opcode : Instr → Opcode
  | .ifSet _ _ _ => .ifSet
  | .rtInsert _ _ _ _ => .rtInsert
  | .nbInsert _ _ => .nbInsert
  | .cfgSeal => .cfgSeal
  | .stRead => .stRead
  | .rtLookup _ => .rtLookup
  | .nbResolve _ => .nbResolve
  | .csCompute _ => .csCompute
  | .csValidate _ _ _ => .csValidate
  | .pktProcess _ _ => .pktProcess

/-- The payload bytes a command carries: none for the seven formats without payload (rule R81). -/
def Instr.payload : Instr → List Byte
  | .ifSet _ _ _ => []
  | .rtInsert _ _ _ _ => []
  | .nbInsert _ _ => []
  | .cfgSeal => []
  | .stRead => []
  | .rtLookup _ => []
  | .nbResolve _ => []
  | .csCompute payload => payload
  | .csValidate _ _ payload => payload
  | .pktProcess _ payload => payload

/-- What the host presents on the port: a 128-bit command word and payload bytes (rule R80). -/
structure Command where
  word : PortWord
  payload : List Byte
deriving DecidableEq, Repr

end Sys2Proof
end

