-- ==== Sys2Proof/WellFormed.lean ====
section
/-! DEFINITION. Which terms of `Instr` are commands: the payload's length must fit the 16-bit `LEN` field
(`spec/30_encoding.md` rules R80, R83). Every other operand has exactly its field's width, so every value of it can
be written. What depends on the state or the parameters (`LEN ≤ FRAME_MAX`, `IFID < N_IF`, the checks on `coff`) is
no matter of form: the machine tests it when the command runs (rule R90 step 3). -/

namespace Sys2Proof

/-- The payload's length is a value of the 16-bit field `LEN` (rules R80, R83). -/
def Instr.payloadFits (i : Instr) : Bool := decide (i.payload.length < 2 ^ 16)

/-- The command can be presented on the port (rule R80). -/
abbrev Instr.WellFormed (i : Instr) : Prop := i.payloadFits = true

end Sys2Proof
end

