-- ==== Sys2Proof/Decode.lean ====
section
/-! DEFINITION. The command word: its fields (`spec/10_state.md` rule R21), the opcode map (`spec/30_encoding.md`
rule R84), the decoder (rules R80, R81, R83, R85, R86) and the encoder (rules R81, R83, R94). -/

namespace Sys2Proof

/-! ### Fields of the command word (rule R21) -/

/-- `OP`, bits 127:120. -/
def opField (w : PortWord) : BitVec 8 := w.extractLsb' 120 8
/-- `IFID`, bits 119:112. -/
def ifidField (w : PortWord) : BitVec 8 := w.extractLsb' 112 8
/-- `LEN`, bits 111:96. -/
def lenField (w : PortWord) : BitVec 16 := w.extractLsb' 96 16
/-- `A`, bits 95:64. -/
def aField (w : PortWord) : BitVec 32 := w.extractLsb' 64 32
/-- `B`, bits 63:32. -/
def bField (w : PortWord) : BitVec 32 := w.extractLsb' 32 32
/-- `C`, bits 31:0. -/
def cField (w : PortWord) : BitVec 32 := w.extractLsb' 0 32

/-- The word with the six fields given, most significant first (rule R21). -/
def portWord (op ifid : BitVec 8) (len : BitVec 16) (a b c : BitVec 32) : PortWord :=
  op ++ ifid ++ len ++ a ++ b ++ c

/-! ### Operand assembly (rule R83) -/

/-- The low half of a 32-bit field: where the claimed checksum, `coff` and the upper part of a link address stand. -/
def lowHalf (x : BitVec 32) : BitVec 16 := x.extractLsb' 0 16

/-- A 16-bit operand as a 32-bit field, the upper half zero. -/
def inLowHalf (x : BitVec 16) : BitVec 32 := x.setWidth 32

/-- `L = {B[15:0], C}` (rule R83). -/
def macOfFields (b c : BitVec 32) : LinkAddr := lowHalf b ++ c

/-- `B[15:0] = L[47:32]`, the rest of `B` zero (rule R83). -/
def macHigh (mac : LinkAddr) : BitVec 32 := inLowHalf (mac.extractLsb' 32 16)

/-- `C = L[31:0]` (rule R83). -/
def macLow (mac : LinkAddr) : BitVec 32 := mac.extractLsb' 0 32

/-! ### The opcode map (rule R84) -/

/-- The ten opcodes. -/
def Opcode.all : List Opcode :=
  [.ifSet, .rtInsert, .nbInsert, .cfgSeal, .stRead, .rtLookup, .nbResolve, .csCompute, .csValidate, .pktProcess]

/-- The value of the field `OP` (rule R84). -/
def Opcode.code : Opcode → BitVec 8
  | .ifSet => 0x01
  | .rtInsert => 0x02
  | .nbInsert => 0x03
  | .cfgSeal => 0x04
  | .stRead => 0x05
  | .rtLookup => 0x10
  | .nbResolve => 0x11
  | .csCompute => 0x20
  | .csValidate => 0x21
  | .pktProcess => 0x30

/-- The bits that must be zero (rules R84, R85). -/
def Opcode.mbz : Opcode → PortWord
  | .ifSet => 0x0000FFFF00000000FFFF000000000000
  | .rtInsert => 0x0000FFFF000000000000000000000000
  | .nbInsert => 0x00FFFFFF00000000FFFF000000000000
  | .cfgSeal => 0x00FFFFFFFFFFFFFFFFFFFFFFFFFFFFFF
  | .stRead => 0x00FFFFFFFFFFFFFFFFFFFFFFFFFFFFFF
  | .rtLookup => 0x00FFFFFF00000000FFFFFFFFFFFFFFFF
  | .nbResolve => 0x00FFFFFF00000000FFFFFFFFFFFFFFFF
  | .csCompute => 0x00FF0000FFFFFFFFFFFFFFFFFFFFFFFF
  | .csValidate => 0x00FF0000FFFF0000FFFF0000FFFFFFFF
  | .pktProcess => 0x00000000FFFFFFFFFFFFFFFFFFFFFFFF

/-- The opcode a value of `OP` selects; none for the 246 illegal values (rules R84, R86). -/
def Opcode.ofCode (c : BitVec 8) : Option Opcode := Opcode.all.find? (fun op => op.code == c)

/-! ### The decoder -/

/-- Why a pair of word and payload is no command of the ten. -/
inductive DecodeError where
  /-- The payload's length is not the word's `LEN`: the pair is not a command and cannot be presented (rule R80). -/
  | lengthMismatch
  /-- `OP` is none of the ten (rule R86). -/
  | illegalOpcode (op : BitVec 8)
  /-- A reserved bit of a known opcode is set (rule R85). -/
  | reservedBits (op : Opcode)
deriving DecidableEq, Repr

/-- The operands of a command whose opcode is known and whose reserved bits are zero (rules R81, R83). -/
def assemble (op : Opcode) (c : Command) : Instr :=
  match op with
  | .ifSet => .ifSet (ifidField c.word) (aField c.word) (macOfFields (bField c.word) (cField c.word))
  | .rtInsert => .rtInsert (aField c.word) (bField c.word) (cField c.word) (ifidField c.word)
  | .nbInsert => .nbInsert (aField c.word) (macOfFields (bField c.word) (cField c.word))
  | .cfgSeal => .cfgSeal
  | .stRead => .stRead
  | .rtLookup => .rtLookup (aField c.word)
  | .nbResolve => .nbResolve (aField c.word)
  | .csCompute => .csCompute c.payload
  | .csValidate => .csValidate (lowHalf (bField c.word)) (lowHalf (aField c.word)) c.payload
  | .pktProcess => .pktProcess (ifidField c.word) c.payload

/-- The decoder: total on any word and any payload. -/
def decode (c : Command) : Except DecodeError Instr :=
  if c.payload.length = (lenField c.word).toNat then
    match Opcode.ofCode (opField c.word) with
    | none => .error (.illegalOpcode (opField c.word))
    | some op => if c.word &&& op.mbz = 0 then .ok (assemble op c) else .error (.reservedBits op)
  else .error .lengthMismatch

/-! ### The encoder -/

/-- `LEN` of a command: the number of its payload bytes (rule R80). -/
def Instr.len (i : Instr) : BitVec 16 := BitVec.ofNat 16 i.payload.length

/-- The command word of a command (rules R81, R83, R84). -/
def encodeWord (i : Instr) : PortWord :=
  match i with
  | .ifSet ifid ip mac => portWord i.opcode.code ifid 0 ip (macHigh mac) (macLow mac)
  | .rtInsert pfx mask nextHop ifid => portWord i.opcode.code ifid 0 pfx mask nextHop
  | .nbInsert ip mac => portWord i.opcode.code 0 0 ip (macHigh mac) (macLow mac)
  | .cfgSeal => portWord i.opcode.code 0 0 0 0 0
  | .stRead => portWord i.opcode.code 0 0 0 0 0
  | .rtLookup ip => portWord i.opcode.code 0 0 ip 0 0
  | .nbResolve ip => portWord i.opcode.code 0 0 ip 0 0
  | .csCompute _ => portWord i.opcode.code 0 i.len 0 0 0
  | .csValidate coff claimed _ => portWord i.opcode.code 0 i.len (inLowHalf claimed) (inLowHalf coff) 0
  | .pktProcess ifid _ => portWord i.opcode.code ifid i.len 0 0 0

/-- The word and the payload of a command (rule R80). -/
def encode (i : Instr) : Command := { word := encodeWord i, payload := i.payload }

/-! ### The opcode table's words -/

/-- A command word given as a number, followed by as many zero bytes as its field `LEN` says (rule R80: a payload
of exactly `LEN` bytes). -/
def tableCommand (nbits w : Nat) : Command :=
  let word : PortWord := BitVec.ofNat 128 (w % 2 ^ nbits)
  { word := word, payload := List.replicate (lenField word).toNat 0 }

/-- The instruction the decoder reads from the word `w` of `nbits` bits, bits and payload beyond it zero. -/
def decodeTableWord (nbits w : Nat) : Option Instr := (decode (tableCommand nbits w)).toOption

end Sys2Proof
end

