-- ==== Sys2Proof/Config.lean ====
section
/-! DEFINITION. What the spec leaves to the implementation (`spec/00_scope.md` rule R7, `spec/92_eei_decisions.md`
D9 and D10, both OPEN): the four parameters. None has a value in the spec, so none has one here: the machine's own
parameters are opaque constants, and nothing can be proved about them but their legal range. -/

namespace Sys2Proof

/-- The four parameters of rule R7. They are configuration of the machine, fixed for its lifetime: no command and
no reset changes them (rule R20; assumption 1). -/
structure Params where
  /-- `N_IF`, the number of interfaces. -/
  nIf : Nat
  /-- `NODE_CAP`, the capacity of the trie's node store, the root included. -/
  nodeCap : Nat
  /-- `NBR_CAP`, the capacity of the neighbour table. -/
  nbrCap : Nat
  /-- `FRAME_MAX`, the capacity of the frame buffer in bytes and the greatest legal `LEN`. -/
  frameMax : Nat
deriving DecidableEq, Repr

/-- The legal ranges of rule R7. The two upper bounds below 2^32 are DEDUCED (assumption 2): `NODE_CNT` and
`NBR_CNT` are 32-bit registers whose legal values reach `NODE_CAP` and `NBR_CAP` (rule R32). -/
structure Params.Legal (p : Params) : Prop where
  nIf_pos : 1 ≤ p.nIf
  nIf_le : p.nIf ≤ 256
  nodeCap_pos : 1 ≤ p.nodeCap
  nodeCap_lt : p.nodeCap < 2 ^ 32
  nbrCap_lt : p.nbrCap < 2 ^ 32
  frameMax_ge : 34 ≤ p.frameMax
  frameMax_le : p.frameMax ≤ 65535

/-- `N_IF - 1`: an open parameter, any value of its range (D9). -/
opaque Config.nIfLessOne : Fin 256

/-- `NODE_CAP - 1`: an open parameter, any value of its range (D10, assumption 2). -/
opaque Config.nodeCapLessOne : Fin 4294967295

/-- `NBR_CAP`: an open parameter, any value of its range (D10, assumption 2). -/
opaque Config.nbrCap : Fin 4294967296

/-- `FRAME_MAX - 34`: an open parameter, any value of its range (D10). -/
opaque Config.frameMaxLess34 : Fin 65502

/-- The parameters of the machine at hand: unknown, but each in its legal range (rule R7). -/
def Config.params : Params where
  nIf := Config.nIfLessOne.val + 1
  nodeCap := Config.nodeCapLessOne.val + 1
  nbrCap := Config.nbrCap.val
  frameMax := Config.frameMaxLess34.val + 34

end Sys2Proof
end

