-- ==== Sys2Proof/Machine/State.lean ====
section
/-! DEFINITION. The state of the RouterDataplane CORE (`spec/10_state.md` rules R20 to R37): plain data, holding
every register and store the spec names. -/

namespace Sys2Proof.Machine

open Sys2Proof

/-! ### Names the spec gives to values -/

/-- The three phases (rule R23). The fourth value of the 2-bit register is never held. -/
inductive Phase where
  | config | run | failed
deriving DecidableEq, Repr

/-- The values of the pipeline's stage register (rule R33). -/
inductive Stage where
  | idle | s1Classify | s2SelfCheck | s2eEchoReply | s3CsumValidate
  | s4RouteLookup | s5TtlCheck | s6MutateResolve | s7Forward
deriving DecidableEq, Repr

/-- The status codes (`spec/30_encoding.md` rule R87); 6 to 15 are never produced. -/
inductive Status where
  | ok | errOpcode | errPhase | errOperand | errFrame | errLoad
deriving DecidableEq, Repr

/-- The causes of a load failure (`spec/30_encoding.md` rule R89). -/
inductive LoadCause where
  | badMask | badIfid | trieFull | nbrDup | nbrFull | ifMissing
deriving DecidableEq, Repr

/-- The five drop reasons, a closed set (`spec/44_forwarding_pipeline.md` rule R161). -/
inductive DropReason where
  | unsupportedProtocol | badChecksum | noRoute | ttlExceeded | neighborMiss
deriving DecidableEq, Repr

/-- The terminal states of a pipeline run (`spec/44_forwarding_pipeline.md` rule R161). -/
inductive PipeOutcome where
  | transmitted | replied | dropped (reason : DropReason)
deriving DecidableEq, Repr

/-! ### Records of the stores -/

/-- A RouteEntry (rule R25): prefix, mask, next hop, egress interface. -/
structure RouteEntry where
  pfx : Addr
  mask : Addr
  nextHop : Addr
  egress : BitVec 8
deriving DecidableEq, Repr

/-- A NeighborEntry (rule R28). -/
structure NeighborEntry where
  ip : Addr
  linkAddress : LinkAddr
deriving DecidableEq, Repr

/-- An entry of the interface table (rule R29). -/
structure IfEntry where
  valid : Bool
  ip : Addr
  linkAddress : LinkAddr
deriving DecidableEq, Repr

/-- The routing trie as owned child slots (rules R24, R26; decision D25): a node has an optional owned route, a
child by bit 0 and a child by bit 1. `NODES` is the set of keys that lead to a node, `ROUTE` maps such a key to the
node's route; that `NODES` is prefix-closed is true of every term. -/
inductive Trie where
  | absent
  | node (route : Option RouteEntry) (zero one : Trie)
deriving DecidableEq, Repr

/-- The bytes of `FB` that have been written, by offset (rule R30), in one canonical form: offsets strictly rising.
A byte that nothing has written is not listed and has no value (rule R37: unspecified, unreadable; assumption 5). -/
abbrev Memory := List Host.Cell

/-- The fields of a response word (rule R22). -/
structure Response where
  st : BitVec 4
  flg : BitVec 4
  ifid : BitVec 8
  len : BitVec 16
  a : BitVec 32
  b : BitVec 32
  c : BitVec 32
deriving DecidableEq, Repr

/-- What the host does to the block next: present a command (`spec/30_encoding.md` rule R80) or reset it
(`spec/70_reset_and_hazards.md` rules R250, R256). -/
inductive HostEvent where
  | command (c : Command)
  | reset
deriving DecidableEq, Repr

/-! ### The state -/

/-- The complete state of the block (rule R20) with the working registers (rules R33 to R35), the parameters it is
configured with (rule R7; assumption 1) and what the host does next (assumption 3). -/
structure State where
  /-- `N_IF`, `NODE_CAP`, `NBR_CAP`, `FRAME_MAX`: configuration, changed by nothing (rule R20). -/
  params : Params
  /-- `PHASE` (rule R23). -/
  phase : Phase
  /-- `NODES` and `ROUTE` (rule R24). -/
  trie : Trie
  /-- `NODE_CNT` (rule R27). -/
  nodeCnt : BitVec 32
  /-- `NBR`, in insertion order (rule R28). -/
  nbr : List NeighborEntry
  /-- `NBR_CNT` (rules R28, R32). -/
  nbrCnt : BitVec 32
  /-- `IFT`, entry `i` at index `i` (rule R29). -/
  ift : List IfEntry
  /-- `FB` (rule R30). -/
  fb : Memory
  /-- `FLEN` (rule R30). -/
  flen : BitVec 16
  /-- `CMD` (rule R21). -/
  cmd : PortWord
  /-- The payload bytes presented with `CMD` (rule R21). -/
  cmdPayload : List Byte
  /-- `RSP` (rule R22). -/
  rsp : PortWord
  /-- The payload bytes written with `RSP` (rule R22). -/
  rspPayload : List Byte
  /-- `STAGE` (rule R33). -/
  stage : Stage
  /-- `CUR`, the key of the node being visited (rule R34). -/
  cur : Key
  /-- `DEPTH` (rule R34). -/
  depth : Nat
  /-- `BEST`, the current best match (rule R34). -/
  best : Option RouteEntry
  /-- `ACC`, the checksum accumulator (rule R35). -/
  acc : Sum16
  /-- The model's own field: what the host does from here on, first event first (rules R256, R258, R259;
  assumption 3). The block itself has no queue. -/
  host : List HostEvent
deriving DecidableEq, Repr

/-! ### What stops the machine -/

/-- Why the model has no next state. In a state that meets the invariant of rule R38 no command faults (rule R224:
every command gets a response); the only fault a run can meet is a host that presents what is not a command. -/
inductive Fault where
  /-- The host presents a payload whose length is not the word's `LEN`. Raised by the port, before anything is
  executed. `spec/30_encoding.md` rule R80 and `spec/93_implementation_defined.md` U7: such a pair cannot be
  presented, the model has no transition. Safe: it stops where the spec gives no behaviour. -/
  | notACommand
  /-- An access to `FB` that does not lie below `FLEN` (`spec/20_memory.md` rules R52, R53, R59). Raised by the byte
  access operations; every call stands behind a length check, so no command reaches it. Safe. -/
  | outOfFrame
  /-- A read of a byte of `FB` below `FLEN` that nothing has written (rule R37, U4). Raised by the byte read; the
  payload load precedes every read, so no command reaches it. Safe. -/
  | unwrittenByte
  /-- An access to an entry of `IFT` that does not exist (rule R29). Raised by the pipeline's reads of `IFT`; never
  in a state that meets rule R38. Safe. -/
  | noSuchInterface
  /-- A read of the contents of an entry of `IFT` whose `valid` is 0, which rule R37 makes a fault of the model.
  Raised by the pipeline's reads of `IFT`; never in a state that meets rule R38 (h). Safe. -/
  | unsetInterface
deriving DecidableEq, Repr

/-- Why the model gives an instruction no meaning. -/
inductive Refusal where
  /-- The instruction has no meaning in this model. Raised only by an arm of `exec` that is not modelled; there is
  none. Safe. -/
  | notModelled (mnemonic : String)
deriving DecidableEq, Repr

/-! ### Reset (rule R37) -/

/-- An interface entry after reset: not valid; the contents the spec leaves unspecified are zero (assumption 4). -/
def IfEntry.unset : IfEntry := { valid := false, ip := 0, linkAddress := 0 }

/-- The state after reset of a block with parameters `p`, the host silent (rule R37). `CMD`, `RSP`, the working
registers and the contents of `IFT` are unspecified there and zero here (assumption 4); `FB` lists no byte. -/
def State.resetWith (p : Params) : State where
  params := p
  phase := .config
  trie := .node none .absent .absent
  nodeCnt := 1
  nbr := []
  nbrCnt := 0
  ift := List.replicate p.nIf IfEntry.unset
  fb := []
  flen := 0
  cmd := 0
  cmdPayload := []
  rsp := 0
  rspPayload := []
  stage := .idle
  cur := []
  depth := 0
  best := none
  acc := 0
  host := []

/-- The machine right after reset (rules R37, R250). -/
def State.reset : State := State.resetWith Config.params

end Sys2Proof.Machine
end

