-- ==== Sys2Proof/Machine/Codes.lean ====
section
/-! DEFINITION. The numbers behind the names: phases (`spec/10_state.md` rule R23), status codes, outcome codes and
load-failure causes (`spec/30_encoding.md` rules R87 to R89), the phases each command may run in (rule R84,
`spec/60_exceptions.md` rule R225) and the layout of the response word (`spec/10_state.md` rule R22). -/

namespace Sys2Proof.Machine

open Sys2Proof

/-- The value of the 2-bit register `PHASE` (rule R23). -/
def Phase.code : Phase → BitVec 2
  | .config => 0
  | .run => 1
  | .failed => 2

/-- `RSP.ST` (rule R87). -/
def Status.code : Status → BitVec 4
  | .ok => 0
  | .errOpcode => 1
  | .errPhase => 2
  | .errOperand => 3
  | .errFrame => 4
  | .errLoad => 5

/-- `RSP.A[7:0]` of a load failure (rule R89). -/
def LoadCause.code : LoadCause → BitVec 8
  | .badMask => 1
  | .badIfid => 2
  | .trieFull => 3
  | .nbrDup => 4
  | .nbrFull => 5
  | .ifMissing => 6

/-- `RSP.A[7:0]` of a drop (rule R88). -/
def DropReason.code : DropReason → BitVec 8
  | .unsupportedProtocol => 2
  | .badChecksum => 3
  | .noRoute => 4
  | .ttlExceeded => 5
  | .neighborMiss => 6

/-- `RSP.A[7:0]` of a pipeline run (rule R88). -/
def PipeOutcome.code : PipeOutcome → BitVec 8
  | .transmitted => 0
  | .replied => 1
  | .dropped reason => reason.code

/-- Whether a command may run in a phase (rule R84, column "phases"; rule R225). -/
def permitted : Opcode → Phase → Bool
  | .ifSet, p => p == .config
  | .rtInsert, p => p == .config
  | .nbInsert, p => p == .config
  | .cfgSeal, p => p == .config
  | .stRead, _ => true
  | .rtLookup, p => p == .run
  | .nbResolve, p => p == .run
  | .csCompute, p => p == .config || p == .run
  | .csValidate, p => p == .config || p == .run
  | .pktProcess, p => p == .run

/-- The response word: `ST` 127:124, `FLG` 123:120, `IFID` 119:112, `LEN` 111:96, `A`, `B`, `C` (rule R22). -/
def Response.word (r : Response) : PortWord :=
  r.st ++ r.flg ++ r.ifid ++ r.len ++ r.a ++ r.b ++ r.c

/-- The fields of a response word, as the host reads them (rule R22). -/
def Response.ofWord (w : PortWord) : Response where
  st := w.extractLsb' 124 4
  flg := w.extractLsb' 120 4
  ifid := w.extractLsb' 112 8
  len := w.extractLsb' 96 16
  a := w.extractLsb' 64 32
  b := w.extractLsb' 32 32
  c := w.extractLsb' 0 32

/-- `{ ST = OK, all other fields 0 }`; a command's rule gives the fields it mentions (rule R22: a field not
mentioned is written as zero). -/
def Response.okay : Response := { st := Status.ok.code, flg := 0, ifid := 0, len := 0, a := 0, b := 0, c := 0 }

/-- The refusal form of the response (rule R91); `a` carries the cause of a load failure. -/
def Response.failure (st : Status) (a : BitVec 32) : Response :=
  { st := st.code, flg := 0, ifid := 0, len := 0, a := a, b := 0, c := 0 }

end Sys2Proof.Machine
end

