-- ==== Sys2Proof/Machine/Flags.lean ====
section
/-! DEFINITION. The block's only flags, `RSP.FLG` (`spec/10_state.md` rule R31): results of the command that just
ended. -/

namespace Sys2Proof.Machine

open Sys2Proof

/-- The four bits of `FLG`: `HIT` is bit 0, `REPLACED` is bit 1, bits 3:2 are reserved and 0 (rule R31). -/
def flagBits (hit replaced : Bool) : BitVec 4 := 0#2 ++ BitVec.ofBool replaced ++ BitVec.ofBool hit

/-- `FLG = {0,0,0,hit}`. -/
def hitFlag (hit : Bool) : BitVec 4 := flagBits hit false

/-- `FLG = {0,0,replaced,0}`. -/
def replacedFlag (replaced : Bool) : BitVec 4 := flagBits false replaced

end Sys2Proof.Machine
end

