-- ==== Sys2Proof/Machine/Operands.lean ====
section
/-! DEFINITION. What the commands compute from their operands: masks and keys (`spec/00_scope.md` rules R8, R11,
`spec/41_routing_trie.md` rules R111, R113) and the operand checks of `spec/30_encoding.md` rule R90 step 3. -/

namespace Sys2Proof.Machine

open Sys2Proof

/-- The d-th bit the walk consumes: `v[31 - d]` (rules R8, R111). -/
def keyBit (v : Addr) (d : Nat) : Bool := v.getLsbD (31 - d)

/-- `key(v, n)`: the bit string `v[31] v[30] ... v[32 - n]` (rule R111). -/
def key (v : Addr) (n : Nat) : Key := (List.range n).map (keyBit v)

/-- `ones(n)`: the `n` most significant bits 1, the rest 0 (rule R11). -/
def ones (n : Nat) : Addr := BitVec.allOnes 32 <<< (32 - n)

/-- `clo32(m)`: the number of leading one bits (rule R11). -/
def clo32 (m : Addr) : Nat := ((key m 32).takeWhile id).length

/-- A mask is legal iff it is one of the 33 values `ones(0) .. ones(32)` (rule R113). -/
def maskLegal (m : Addr) : Bool := m == ones (clo32 m)

/-- Step 3's check of a payload-bearing command: `LEN ≤ FRAME_MAX` (rules R83, R90). -/
def lenLegal (p : Params) (payload : List Byte) : Bool := decide (payload.length ≤ p.frameMax)

/-- Step 3's check of CS.VALIDATE: `coff` even and `coff + 2 ≤ LEN`, in unbounded arithmetic (rule R90). -/
def coffLegal (coff : BitVec 16) (payload : List Byte) : Bool :=
  !coff.getLsbD 0 && decide (coff.toNat + 2 ≤ payload.length)

/-- An interface identifier is legal iff `IFID < N_IF` (rule R83). -/
def ifidLegal (p : Params) (ifid : BitVec 8) : Bool := decide (ifid.toNat < p.nIf)

end Sys2Proof.Machine
end

