-- ==== Sys2Proof/Machine/Ops.lean ====
section
/-! DEFINITION. The shared operations: register writes, the frame buffer and its byte accesses (`spec/20_memory.md`
rules R51 to R59, R67), the response, and the two ways a command fails, `raise Refuse` and `raise LoadFail`
(`spec/30_encoding.md` rule R91, `spec/60_exceptions.md` rules R222, R223, R228). Nothing is ever entered, so there is
no return (rule R229). -/

namespace Sys2Proof.Machine

open Sys2Proof

/-! ### Register writes -/

/-- The host's write of `CMD` and the payload bytes (rule R21). -/
def State.withCmd (c : Command) (s : State) : State := { s with cmd := c.word, cmdPayload := c.payload }

/-- What the host does after the event at hand. -/
def State.withHost (events : List HostEvent) (s : State) : State := { s with host := events }

/-- `PHASE <- p`. -/
def State.withPhase (p : Phase) (s : State) : State := { s with phase := p }

/-- `STAGE <- g`. -/
def State.withStage (g : Stage) (s : State) : State := { s with stage := g }

/-- `RSP <- r`, with the response payload (rule R22: every command writes every field). -/
def State.respond (r : Response) (payload : List Byte) (s : State) : State :=
  { s with rsp := r.word, rspPayload := payload }

/-- `ACC <- a`. -/
def State.withAcc (a : Sum16) (s : State) : State := { s with acc := a }

/-- The walker's registers (rule R34). -/
def State.withWalk (cur : Key) (depth : Nat) (best : Option RouteEntry) (s : State) : State :=
  { s with cur := cur, depth := depth, best := best }

/-- The trie and its count (rules R24, R27). -/
def State.withTrie (t : Trie) (cnt : BitVec 32) (s : State) : State := { s with trie := t, nodeCnt := cnt }

/-- The neighbour table and its count (rule R28). -/
def State.withNbr (n : List NeighborEntry) (cnt : BitVec 32) (s : State) : State := { s with nbr := n, nbrCnt := cnt }

/-- The interface table (rule R29). -/
def State.withIft (t : List IfEntry) (s : State) : State := { s with ift := t }

/-- The frame buffer's bytes (rule R30). -/
def State.withFb (m : Memory) (s : State) : State := { s with fb := m }

/-- `FLEN <- n` (rule R30). -/
def State.withFlen (n : BitVec 16) (s : State) : State := { s with flen := n }

/-! ### The frame buffer as a memory (rule R30) -/

/-- The canonical form: offsets strictly rising. An unlisted byte has no value, so no listed byte is redundant. -/
abbrev Memory.wf (m : Memory) : Prop := m.Pairwise (fun x y => x.1 < y.1)

/-- The byte at an offset; none where nothing has been written. -/
def Memory.read : Memory → Nat → Option Byte
  | [], _ => none
  | (k, x) :: m, a => if k = a then some x else Memory.read m a

/-- Write one byte. -/
def Memory.write : Memory → Nat → Byte → Memory
  | [], a, b => [(a, b)]
  | (k, x) :: m, a, b =>
    if a < k then (a, b) :: (k, x) :: m else if a = k then (a, b) :: m else (k, x) :: Memory.write m a b

/-- Write consecutive bytes, the first one at offset `o`. -/
def Memory.writeBytes (m : Memory) (o : Nat) : List Byte → Memory
  | [] => m
  | b :: bs => (Memory.writeBytes m (o + 1) bs).write o b

/-! ### Byte order (rule R51) -/

/-- The unsigned number a byte sequence stands for, the first byte most significant (rule R52). -/
def beValue : List Byte → Nat
  | [] => 0
  | b :: bs => b.toNat * 2 ^ (8 * bs.length) + beValue bs

/-- The `n` bytes of a number, the most significant first: byte `i` is `(v >> (8*(n-1-i))) & 0xFF` (rule R53). -/
def beBytes (n v : Nat) : List Byte := (List.range n).map (fun i => BitVec.ofNat 8 (v >>> (8 * (n - 1 - i))))

/-! ### Accesses to the frame (rules R52, R53, R54, R59) -/

/-- `FB[o]`, for `o < FLEN`. -/
def fbByte (s : State) (o : Nat) : Except Fault Byte :=
  if o < s.flen.toNat then
    match s.fb.read o with
    | some b => .ok b
    | none => .error .unwrittenByte
  else .error .outOfFrame

/-- `FB[o .. o+n)`. -/
def fbRange (s : State) (o : Nat) : Nat → Except Fault (List Byte)
  | 0 => .ok []
  | n + 1 => do
    let b ← fbByte s o
    let bs ← fbRange s (o + 1) n
    .ok (b :: bs)

/-- `MemRead(o, n)`: the `n` bytes at `o` as one big-endian unsigned number of `8n` bits (rule R52). No offset is
misaligned (rule R54). -/
def memRead (s : State) (o n : Nat) : Except Fault (BitVec (8 * n)) := do
  let bs ← fbRange s o n
  .ok (BitVec.ofNat (8 * n) (beValue bs))

/-- `MemWrite(o, n, v)`: the most significant byte at offset `o` (rule R53). -/
def memWrite (s : State) (o n : Nat) (v : BitVec (8 * n)) : Except Fault State :=
  if o + n ≤ s.flen.toNat then .ok (s.withFb (s.fb.writeBytes o (beBytes n v.toNat))) else .error .outOfFrame

/-- The payload load: `FB[i] <- payload[i]` for `i < LEN`, `FLEN <- LEN`; bytes at and beyond `LEN` keep what they held
(rule R67). -/
def loadPayload (payload : List Byte) (s : State) : State :=
  (s.withFb (s.fb.writeBytes 0 payload)).withFlen (BitVec.ofNat 16 payload.length)

/-- `IFT[i]` (rule R29); its contents are unreadable while `valid = 0` (rule R37, assumption 4). -/
def ifEntry (s : State) (i : BitVec 8) : Except Fault IfEntry :=
  match s.ift[i.toNat]? with
  | some e => if e.valid then .ok e else .error .unsetInterface
  | none => .error .noSuchInterface

/-! ### How a command ends -/

/-- `raise Refuse(code)`: the refusal form of the response, no payload, nothing else changes (rules R91, R222). -/
def refuse (code : Status) (s : State) : State := s.respond (Response.failure code 0) []

/-- `raise LoadFail(cause)`: the response names the cause, `PHASE <- FAILED`, nothing else changes
(rules R91, R223, R228). -/
def loadFail (cause : LoadCause) (s : State) : State :=
  (s.respond (Response.failure .errLoad (cause.code.setWidth 32)) []).withPhase .failed

/-- `RSP <- { ST = OK, all other fields 0 }`, no payload. -/
def succeed (s : State) : State := s.respond Response.okay []

/-- Steps 2 and 3 of rule R90 for a command whose opcode is known and whose reserved bits are zero: the phase, then
the operands; only then the command's own rule. -/
def checked (op : Opcode) (operandsLegal : Bool) (s : State) (rule : State → Host.Outcome State Fault Refusal) :
    Host.Outcome State Fault Refusal :=
  if permitted op s.phase then
    if operandsLegal then rule s else .next (refuse .errOperand s)
  else .next (refuse .errPhase s)

/-- A rule that accesses the frame or `IFT` ends in a next state, or in the fault of an access that does not exist. -/
def ofAccess (r : Except Fault State) : Host.Outcome State Fault Refusal :=
  match r with
  | .ok s => .next s
  | .error f => .fault f

end Sys2Proof.Machine
end

