-- ==== Sys2Proof/Machine/Configuration.lean ====
section
/-! DEFINITION. The configuration and status commands (`spec/45_config_status.md`): IF.SET (rule R201), CFG.SEAL
(rule R202) and ST.READ (rule R203). -/

namespace Sys2Proof.Machine

open Sys2Proof

/-- The rule of IF.SET: BAD_IFID, or the entry is written (rule R201). -/
def ifSet (ifid : BitVec 8) (ip : Addr) (mac : LinkAddr) (s : State) : State :=
  if ifidLegal s.params ifid then
    succeed (s.withIft (s.ift.set ifid.toNat { valid := true, ip := ip, linkAddress := mac }))
  else loadFail .badIfid s

/-- IF.SET (rule R201). -/
def execIfSet (ifid : BitVec 8) (ip : Addr) (mac : LinkAddr) (s : State) : Host.Outcome State Fault Refusal :=
  checked .ifSet true s fun s => .next (ifSet ifid ip mac s)

/-- The rule of CFG.SEAL: IF_MISSING unless every entry of `IFT` is valid, else `PHASE <- RUN` (rule R202). -/
def cfgSeal (s : State) : State :=
  if s.ift.all IfEntry.valid then succeed (s.withPhase .run) else loadFail .ifMissing s

/-- CFG.SEAL (rule R202). -/
def execCfgSeal (s : State) : Host.Outcome State Fault Refusal :=
  checked .cfgSeal true s fun s => .next (cfgSeal s)

/-- `IFV_CNT`: the number of valid entries of `IFT`, no register of its own (rule R32). -/
def ifvCnt (s : State) : BitVec 16 := BitVec.ofNat 16 (s.ift.countP IfEntry.valid)

/-- The response of ST.READ: `A = {IFV_CNT, 14 zero bits, PHASE}`, `B = NODE_CNT`, `C = NBR_CNT` (rule R203). -/
def statusResponse (s : State) : Response :=
  { Response.okay with a := ifvCnt s ++ 0#14 ++ s.phase.code, b := s.nodeCnt, c := s.nbrCnt }

/-- The rule of ST.READ: nothing but the response changes (rule R203). -/
def stRead (s : State) : State := s.respond (statusResponse s) []

/-- ST.READ (rule R203). -/
def execStRead (s : State) : Host.Outcome State Fault Refusal :=
  checked .stRead true s fun s => .next (stRead s)

end Sys2Proof.Machine
end

