-- ==== Sys2Proof/Machine/Checksum.lean ====
section
/-! DEFINITION. ChecksumEngine (`spec/42_checksum.md`): the one's-complement arithmetic (rules R131, R132, R138),
CS.COMPUTE (rule R133) and CS.VALIDATE (rules R134, R135). -/

namespace Sys2Proof.Machine

open Sys2Proof

/-- `oc_add16(a, b)`: the 17-bit sum with its carry added back at the low end (rule R131). -/
def ocAdd16 (a b : Sum16) : Sum16 :=
  let t : BitVec 17 := a.setWidth 17 + b.setWidth 17
  t.setWidth 16 + (BitVec.ofBool (t.getLsbD 16)).setWidth 16

/-- The accumulator after the 16-bit big-endian words of a byte sequence have been added to `acc`; a last odd byte is
the high byte of a zero-padded word (rule R132). -/
def sumWords (acc : Sum16) : List Byte → Sum16
  | [] => acc
  | [hi] => ocAdd16 acc (hi ++ 0#8)
  | hi :: lo :: rest => sumWords (ocAdd16 acc (hi ++ lo)) rest

/-- `cksum(s)`: the one's complement of the final sum (rule R132). -/
def cksum (bytes : List Byte) : Sum16 := ~~~(sumWords 0 bytes)

/-- `s` with the two bytes of its checksum field taken as zero (rule R134). -/
def zeroField (bytes : List Byte) (coff : Nat) : List Byte := (bytes.set coff 0).set (coff + 1) 0

/-- `validate(s, coff, claimed)`: recompute with the field as zero and compare with the claim; never a sum in place
(rules R134, R139). -/
def validate (bytes : List Byte) (coff : Nat) (claimed : Sum16) : Bool := cksum (zeroField bytes coff) == claimed

/-- A computation of the engine leaves its final sum in `ACC` (rules R35, R132). -/
def withSum (bytes : List Byte) (s : State) : State := s.withAcc (sumWords 0 bytes)

/-! ### Deferred folding (rule R138) -/

/-- The plain integer sum of the words of a byte sequence (rule R138). -/
def wideSum : List Byte → Nat
  | [] => 0
  | [hi] => hi.toNat * 256
  | hi :: lo :: rest => hi.toNat * 256 + lo.toNat + wideSum rest

/-- While the sum exceeds 0xFFFF, add its part above 16 bits to its low 16 bits (rule R138); `fuel` bounds the turns. -/
def foldCarries : Nat → Nat → Nat
  | 0, t => t
  | fuel + 1, t => if 0xFFFF < t then foldCarries fuel (t % 0x10000 + t / 0x10000) else t

/-- `fold(T)` (rule R138): every turn makes T smaller, so T turns are enough. -/
def foldWide (t : Nat) : Nat := foldCarries t t

/-! ### CS.COMPUTE -/

/-- The rule of CS.COMPUTE: load the payload, sum the frame, answer the checksum (rules R67, R133). -/
def csCompute (payload : List Byte) (s : State) : Except Fault State := do
  let s := loadPayload payload s
  let bytes ← fbRange s 0 s.flen.toNat
  .ok ((withSum bytes s).respond { Response.okay with a := (cksum bytes).setWidth 32 } [])

/-- CS.COMPUTE (rule R133). -/
def execCsCompute (payload : List Byte) (s : State) : Host.Outcome State Fault Refusal :=
  checked .csCompute (lenLegal s.params payload) s fun s => ofAccess (csCompute payload s)

/-! ### CS.VALIDATE -/

/-- The rule of CS.VALIDATE: load the payload, sum the frame with the field's bytes read as zero, answer the computed
value and whether it is the claimed one (rules R67, R135). `FB` keeps the payload as loaded. -/
def csValidate (coff claimed : BitVec 16) (payload : List Byte) (s : State) : Except Fault State := do
  let s := loadPayload payload s
  let bytes ← fbRange s 0 s.flen.toNat
  let zeroed := zeroField bytes coff.toNat
  .ok ((withSum zeroed s).respond
    { Response.okay with flg := hitFlag (validate bytes coff.toNat claimed), a := (cksum zeroed).setWidth 32 } [])

/-- CS.VALIDATE (rule R135). -/
def execCsValidate (coff claimed : BitVec 16) (payload : List Byte) (s : State) : Host.Outcome State Fault Refusal :=
  checked .csValidate (lenLegal s.params payload && coffLegal coff payload) s fun s =>
    ofAccess (csValidate coff claimed payload s)

end Sys2Proof.Machine
end

