-- ==== Sys2Proof/Machine/Neighbor.lean ====
section
/-! DEFINITION. NeighborTable (`spec/43_neighbor_table.md`): NB.INSERT (rule R152) and NB.RESOLVE (rules R151, R153). -/

namespace Sys2Proof.Machine

open Sys2Proof

/-- `nbr_resolve(a)`: the link address of the first entry whose `ip` equals `a` in all 32 bits (rule R151). -/
def nbrResolve (nbr : List NeighborEntry) (a : Addr) : Option LinkAddr :=
  (nbr.find? (fun e => e.ip == a)).map NeighborEntry.linkAddress

/-- The rule of NB.INSERT: NBR_DUP before NBR_FULL, then the entry is appended (rule R152). -/
def nbInsert (e : NeighborEntry) (s : State) : State :=
  if s.nbr.any (fun x => x.ip == e.ip) then loadFail .nbrDup s
  else if s.nbrCnt.toNat = s.params.nbrCap then loadFail .nbrFull s
  else succeed (s.withNbr (s.nbr ++ [e]) (s.nbrCnt + 1))

/-- NB.INSERT (rule R152). -/
def execNbInsert (ip : Addr) (mac : LinkAddr) (s : State) : Host.Outcome State Fault Refusal :=
  checked .nbInsert true s fun s => .next (nbInsert { ip := ip, linkAddress := mac } s)

/-- The response of NB.RESOLVE: the link address as `B[15:0]` and `C` (rules R82, R153). -/
def neighborResponse : Option LinkAddr → Response
  | none => Response.okay
  | some m =>
    { Response.okay with
      flg := hitFlag true
      b := (m.extractLsb' 32 16).setWidth 32
      c := m.extractLsb' 0 32 }

/-- The rule of NB.RESOLVE (rule R153): a miss is no error, and nothing but the response changes. -/
def nbResolve (ip : Addr) (s : State) : State := s.respond (neighborResponse (nbrResolve s.nbr ip)) []

/-- NB.RESOLVE (rule R153). -/
def execNbResolve (ip : Addr) (s : State) : Host.Outcome State Fault Refusal :=
  checked .nbResolve true s fun s => .next (nbResolve ip s)

end Sys2Proof.Machine
end

