-- ==== Sys2Proof/Machine/Trie.lean ====
section
/-! DEFINITION. RoutingTrie (`spec/41_routing_trie.md`): the node store, RT.INSERT (rules R112 to R115) and RT.LOOKUP
(rules R117, R118). -/

namespace Sys2Proof.Machine

open Sys2Proof

/-! ### The node store (rule R24) -/

/-- `k ∈ NODES`. -/
def Trie.hasNode : Trie → Key → Bool
  | .absent, _ => false
  | .node _ _ _, [] => true
  | .node _ zero one, b :: k => Trie.hasNode (if b then one else zero) k

/-- `ROUTE(k)`: the route the node with key `k` owns; none also where there is no such node. -/
def Trie.routeAt : Trie → Key → Option RouteEntry
  | .absent, _ => none
  | .node route _ _, [] => route
  | .node _ zero one, b :: k => Trie.routeAt (if b then one else zero) k

/-- `NODES ∪ {k}`, for a key whose parent is a node. -/
def Trie.addNode : Trie → Key → Trie
  | .absent, [] => .node none .absent .absent
  | .absent, _ :: _ => .absent
  | .node route zero one, [] => .node route zero one
  | .node route zero one, b :: k =>
    if b then .node route zero (Trie.addNode one k) else .node route (Trie.addNode zero k) one

/-- `ROUTE(k) <- e`, for a key that is a node. -/
def Trie.setRoute : Trie → Key → RouteEntry → Trie
  | .absent, _, _ => .absent
  | .node _ zero one, [], e => .node (some e) zero one
  | .node route zero one, b :: k, e =>
    if b then .node route zero (Trie.setRoute one k e) else .node route (Trie.setRoute zero k e) one

/-- The keys of the nodes, each once. -/
def Trie.keys : Trie → List Key
  | .absent => []
  | .node _ zero one => [] :: ((Trie.keys zero).map (false :: ·) ++ (Trie.keys one).map (true :: ·))

/-- The number of `n` in `1 .. plen` with `key(v, n)` not in `NODES` (rule R112). -/
def Trie.missing (t : Trie) (v : Addr) (plen : Nat) : Nat :=
  ((List.range plen).filter (fun n => !t.hasNode (key v (n + 1)))).length

/-! ### RT.INSERT -/

/-- One turn of the insertion loop: create the child by bit `b` if it is missing, and go to it (rule R112). -/
def insertStep (b : Bool) (s : State) : State :=
  let child := s.cur ++ [b]
  let grown := if s.trie.hasNode child then s else s.withTrie (s.trie.addNode child) (s.nodeCnt + 1)
  grown.withWalk child (s.depth + 1) s.best

/-- The insertion loop over the prefix bits that the mask covers (rule R112). -/
def insertWalk : List Bool → State → State
  | [], s => s
  | b :: bs, s => insertWalk bs (insertStep b s)

/-- The entry is stored at the node the walk ends at, and the response says whether it replaced one
(rules R112, R114). -/
def storeRoute (e : RouteEntry) (s : State) : State :=
  (s.withTrie (s.trie.setRoute s.cur e) s.nodeCnt).respond
    { Response.okay with flg := replacedFlag (s.trie.routeAt s.cur).isSome } []

/-- The rule of RT.INSERT after the checks of rule R90: BAD_MASK before BAD_IFID before TRIE_FULL, then the walk
from the root and the store (rules R112 to R115). -/
def rtInsert (e : RouteEntry) (s : State) : State :=
  if maskLegal e.mask then
    if ifidLegal s.params e.egress then
      if s.nodeCnt.toNat + s.trie.missing e.pfx (clo32 e.mask) ≤ s.params.nodeCap then
        storeRoute e (insertWalk (key e.pfx (clo32 e.mask)) (s.withWalk [] 0 none))
      else loadFail .trieFull s
    else loadFail .badIfid s
  else loadFail .badMask s

/-- RT.INSERT (rule R112). -/
def execRtInsert (pfx mask nextHop : Addr) (ifid : BitVec 8) (s : State) : Host.Outcome State Fault Refusal :=
  checked .rtInsert true s fun s => .next (rtInsert { pfx := pfx, mask := mask, nextHop := nextHop, egress := ifid } s)

/-! ### RT.LOOKUP -/

/-- If the node being visited owns a route, it is the best match so far (rule R118). -/
def visit (s : State) : State :=
  match s.trie.routeAt s.cur with
  | some r => s.withWalk s.cur s.depth (some r)
  | none => s

/-- The loop of rule R118 over the address bits not yet consumed: visit the node, then go to the child by the next
bit, and stop where there is none or no bit is left (depth 32). -/
def lookupWalk : List Bool → State → State
  | [], s => visit s
  | b :: bs, s =>
    let v := visit s
    if v.trie.hasNode (v.cur ++ [b]) then lookupWalk bs (v.withWalk (v.cur ++ [b]) (v.depth + 1) v.best) else v

/-- `trie_lookup(a)`: the result is `BEST` (rule R118). It writes only the working registers. -/
def trieLookup (a : Addr) (s : State) : State := lookupWalk (key a 32) (s.withWalk [] 0 none)

/-- The response of RT.LOOKUP (rules R82, R117). -/
def routeResponse : Option RouteEntry → Response
  | none => Response.okay
  | some r => { Response.okay with flg := hitFlag true, ifid := r.egress, a := r.pfx, b := r.mask, c := r.nextHop }

/-- The rule of RT.LOOKUP (rule R117). -/
def rtLookup (ip : Addr) (s : State) : State :=
  let w := trieLookup ip s
  w.respond (routeResponse w.best) []

/-- RT.LOOKUP (rule R117). -/
def execRtLookup (ip : Addr) (s : State) : Host.Outcome State Fault Refusal :=
  checked .rtLookup true s fun s => .next (rtLookup ip s)

end Sys2Proof.Machine
end

