-- ==== Sys2Proof/Machine/Pipeline.lean ====
section
/-! DEFINITION. ForwardingPipeline (`spec/44_forwarding_pipeline.md`): PKT.PROCESS (rule R162), one definition per
stage (rules R163 to R172), each going on to the next by the transition table of rule R175. The field offsets are
those of `spec/20_memory.md` rules R56 to R58. -/

namespace Sys2Proof.Machine

open Sys2Proof

/-! ### The frame map (rules R56 to R58) -/

/-- `ETHERTYPE_IPV4` (rule R56). -/
def ethertypeIpv4 : BitVec 16 := 0x0800
/-- `ETH_HLEN` and `IP0` (rules R56, R57). -/
def ethHlen : Nat := 14
/-- Offset of `ETH_DST` (rule R56). -/
def offEthDst : Nat := 0
/-- Offset of `ETH_SRC` (rule R56). -/
def offEthSrc : Nat := 6
/-- Offset of `ETHERTYPE` (rule R56). -/
def offEthertype : Nat := 12
/-- Offset of the byte that holds the version and `IHL` (rule R57). -/
def offIhl : Nat := 14
/-- Offset of `TOTLEN` (rule R57). -/
def offTotlen : Nat := 16
/-- Offset of `TTL` (rule R57). -/
def offTtl : Nat := 22
/-- Offset of `IPCSUM` (rule R57). -/
def offIpCsum : Nat := 24
/-- Offset of `IPCSUM` inside the IPv4 header: the pipeline's `coff` (rules R57, R168). -/
def ipCoff : Nat := 10
/-- Offset of `IPSRC` (rule R57). -/
def offIpSrc : Nat := 26
/-- Offset of `IPDST` (rule R57). -/
def offIpDst : Nat := 30
/-- The shortest frame that holds the fixed part of an IPv4 header (rule R164). -/
def minIpv4Frame : Nat := 34

/-! ### How a run ends (rules R161, R162, R175) -/

/-- `Refuse(ERR_FRAME)`, `STAGE <- IDLE`. -/
def frameRefused (s : State) : State := (refuse .errFrame s).withStage .idle

/-- The response of a run that emits no frame: the outcome code alone (rules R82, R88). -/
def dropResponse (reason : DropReason) : Response :=
  { Response.okay with a := (PipeOutcome.dropped reason).code.setWidth 32 }

/-- `outcome <- Dropped(reason)`, `STAGE <- IDLE`: silent, no frame (rules R161, R173). -/
def dropped (reason : DropReason) (s : State) : State := (s.respond (dropResponse reason) []).withStage .idle

/-- The response of a run that emits the frame on interface `ifid` (rules R82, R162). -/
def emitResponse (o : PipeOutcome) (ifid : BitVec 8) (len : BitVec 16) : Response :=
  { Response.okay with flg := hitFlag true, ifid := ifid, len := len, a := o.code.setWidth 32 }

/-- `outcome <- o`, emit `FB[0..FLEN)` on interface `ifid`, `STAGE <- IDLE`. -/
def emitted (o : PipeOutcome) (ifid : BitVec 8) (s : State) : Except Fault State := do
  let frame ← fbRange s 0 s.flen.toNat
  .ok ((s.respond (emitResponse o ifid s.flen) frame).withStage .idle)

/-! ### Header mutation -/

/-- Zero the two bytes of a checksum field, then write the checksum of the `n` bytes from `start`, in full: never
incremental (`spec/42_checksum.md` rule R136). -/
def rewriteChecksum (field start n : Nat) (s : State) : Except Fault State := do
  let s ← memWrite s field 2 (0 : BitVec 16)
  let bytes ← fbRange s start n
  memWrite (withSum bytes s) field 2 (cksum bytes)

/-- Swap two fields of `n` bytes. -/
def swapFields (o p n : Nat) (s : State) : Except Fault State := do
  let x ← memRead s o n
  let y ← memRead s p n
  let s ← memWrite s o n y
  memWrite s p n x

/-- Decrement TTL by 1, modulo 256; on the forward path TTL is at least 1 (rules R166, R171, R178). -/
def decrementTtl (s : State) : Except Fault State := do
  let ttl ← memRead s offTtl 1
  memWrite s offTtl 1 (ttl - 1)

/-! ### The stages -/

/-- Stage S7: the resolved link address becomes the destination, the egress interface's own link address the source,
and the frame goes out on the egress interface (rule R172). -/
def s7Forward (r : RouteEntry) (m : LinkAddr) (s : State) : Except Fault State := do
  let s := s.withStage .s7Forward
  let s ← memWrite s offEthDst 6 m
  let egress ← ifEntry s r.egress
  let s ← memWrite s offEthSrc 6 egress.linkAddress
  emitted .transmitted r.egress s

/-- Stage S6: TTL and header checksum are rewritten, then the route's next hop is resolved; a miss drops the frame
after the mutation (rule R171). -/
def s6MutateResolve (hl : Nat) (r : RouteEntry) (s : State) : Except Fault State := do
  let s := s.withStage .s6MutateResolve
  let s ← decrementTtl s
  let s ← rewriteChecksum offIpCsum ethHlen hl s
  match nbrResolve s.nbr r.nextHop with
  | none => .ok (dropped .neighborMiss s)
  | some m => s7Forward r m s

/-- Stage S5: TTL 0 is dropped before any mutation (rule R170). -/
def s5TtlCheck (hl : Nat) (r : RouteEntry) (s : State) : Except Fault State := do
  let s := s.withStage .s5TtlCheck
  let ttl ← memRead s offTtl 1
  if ttl.toNat < 1 then .ok (dropped .ttlExceeded s) else s6MutateResolve hl r s

/-- Stage S4: the one lookup of the run, by the destination address (rules R169, R177). -/
def s4RouteLookup (hl : Nat) (dst : Addr) (s : State) : Except Fault State :=
  let s := trieLookup dst (s.withStage .s4RouteLookup)
  match s.best with
  | none => .ok (dropped .noRoute s)
  | some r => s5TtlCheck hl r s

/-- Stage S3: the header checksum, recomputed with its field read as zero, must equal the field; nothing is written
but `ACC` (rule R168). -/
def s3CsumValidate (hl : Nat) (dst : Addr) (s : State) : Except Fault State := do
  let s := s.withStage .s3CsumValidate
  let claimed ← memRead s offIpCsum 2
  let header ← fbRange s ethHlen hl
  let s := withSum (zeroField header ipCoff) s
  if validate header ipCoff claimed then s4RouteLookup hl dst s else .ok (dropped .badChecksum s)

/-- Stage S2E after its checks: swap the link addresses, swap the IP addresses, decrement TTL, rewrite the header
checksum, set ICMP type and code to 0, rewrite the ICMP checksum over the segment (rule R166). -/
def echoRewrite (hl totlen : Nat) (s : State) : Except Fault State := do
  let s ← swapFields offEthDst offEthSrc 6 s
  let s ← swapFields offIpSrc offIpDst 4 s
  let s ← decrementTtl s
  let s ← rewriteChecksum offIpCsum ethHlen hl s
  let ic0 := ethHlen + hl
  let s ← memWrite s ic0 1 (0 : BitVec 8)
  let s ← memWrite s (ic0 + 1) 1 (0 : BitVec 8)
  rewriteChecksum (ic0 + 2) ic0 (totlen - hl) s

/-- Stage S2E: checks (e) and (f), then the unconditional reply on the receiving interface (rules R166, R167). -/
def s2eEchoReply (rx : BitVec 8) (hl : Nat) (s : State) : Except Fault State := do
  let s := s.withStage .s2eEchoReply
  let totlen ← memRead s offTotlen 2
  if totlen.toNat < hl + 4 then .ok (frameRefused s)
  else if s.flen.toNat < ethHlen + totlen.toNat then .ok (frameRefused s)
  else do
    let s ← echoRewrite hl totlen.toNat s
    emitted .replied rx s

/-- Stage S2: the destination address against the receiving interface's own, and no other (rule R165). -/
def s2SelfCheck (rx : BitVec 8) (hl : Nat) (s : State) : Except Fault State := do
  let s := s.withStage .s2SelfCheck
  let dst ← memRead s offIpDst 4
  let own ← ifEntry s rx
  if dst = own.ip then s2eEchoReply rx hl s else s3CsumValidate hl dst s

/-- Stage S1 and the checks (a) to (d): the link-layer protocol field, then the room for the IPv4 header
(rules R163, R164). -/
def s1Classify (rx : BitVec 8) (s : State) : Except Fault State := do
  let s := s.withStage .s1Classify
  if s.flen.toNat < ethHlen then .ok (frameRefused s)
  else do
    let ethertype ← memRead s offEthertype 2
    if ethertype ≠ ethertypeIpv4 then .ok (dropped .unsupportedProtocol s)
    else if s.flen.toNat < minIpv4Frame then .ok (frameRefused s)
    else do
      let first ← memRead s offIhl 1
      let ihl := first.toNat % 16
      let hl := 4 * ihl
      if ihl < 5 then .ok (frameRefused s)
      else if s.flen.toNat < ethHlen + hl then .ok (frameRefused s)
      else s2SelfCheck rx hl s

/-! ### PKT.PROCESS -/

/-- The rule of PKT.PROCESS: load the frame, then run the pipeline (rules R67, R162, R174). -/
def pktProcess (ifid : BitVec 8) (payload : List Byte) (s : State) : Except Fault State :=
  s1Classify ifid (loadPayload payload s)

/-- PKT.PROCESS (rule R162). -/
def execPktProcess (ifid : BitVec 8) (payload : List Byte) (s : State) : Host.Outcome State Fault Refusal :=
  checked .pktProcess (lenLegal s.params payload && ifidLegal s.params ifid) s fun s =>
    ofAccess (pktProcess ifid payload s)

end Sys2Proof.Machine
end

