-- ==== Sys2Proof/Machine/Dispatch.lean ====
section
/-! DEFINITION. One arm per command of `spec/30_encoding.md` rule R84. -/

namespace Sys2Proof.Machine

open Sys2Proof Host

def exec (i : Instr) (s : State) : Host.Outcome State Fault Refusal :=
  match i with
  | .ifSet ifid ip mac => Sys2Proof.Machine.execIfSet ifid ip mac s
  | .rtInsert pfx mask nextHop ifid => Sys2Proof.Machine.execRtInsert pfx mask nextHop ifid s
  | .nbInsert ip mac => Sys2Proof.Machine.execNbInsert ip mac s
  | .cfgSeal => Sys2Proof.Machine.execCfgSeal s
  | .stRead => Sys2Proof.Machine.execStRead s
  | .rtLookup ip => Sys2Proof.Machine.execRtLookup ip s
  | .nbResolve ip => Sys2Proof.Machine.execNbResolve ip s
  | .csCompute payload => Sys2Proof.Machine.execCsCompute payload s
  | .csValidate coff claimed payload => Sys2Proof.Machine.execCsValidate coff claimed payload s
  | .pktProcess ifid payload => Sys2Proof.Machine.execPktProcess ifid payload s

end Sys2Proof.Machine
end

