-- ==== Sys2Proof/Machine/Port.lean ====
section
/-! DEFINITION. The command port (`spec/30_encoding.md` rule R90, `spec/70_reset_and_hazards.md` rules R250, R256,
R258): what the block does with the next thing its host does. -/

namespace Sys2Proof.Machine

open Sys2Proof

/-- The host writes `CMD` and the payload bytes, and what it does afterwards remains (rules R21, R258). -/
def acceptCommand (c : Command) (later : List HostEvent) (s : State) : State := (s.withCmd c).withHost later

/-- A command of a known opcode with a reserved bit set: the phase check comes before the operand check
(rules R85, R90, R227). -/
def refuseReserved (op : Opcode) (s : State) : State :=
  if permitted op s.phase then refuse .errOperand s else refuse .errPhase s

/-- The block executes the command on its port to completion, as one transition (rules R62, R90, R258). A pair
whose payload length is not its `LEN` is no command and is not accepted (rule R80). -/
def runCommand (c : Command) (later : List HostEvent) (s : State) : Host.Outcome State Fault Refusal :=
  match decode c with
  | .error .lengthMismatch => .fault .notACommand
  | .error (.illegalOpcode _) => .next (refuse .errOpcode (acceptCommand c later s))
  | .error (.reservedBits op) => .next (refuseReserved op (acceptCommand c later s))
  | .ok i => exec i (acceptCommand c later s)

/-- The reset event: the state of rule R37 whatever the state before (rules R250, R251); the parameters are no state,
and the host goes on. -/
def runReset (later : List HostEvent) (s : State) : State := (State.resetWith s.params).withHost later

/-- One step: what the host does next; a block whose host does nothing waits (rules R258, R259). -/
def runEvent (s : State) : Host.Outcome State Fault Refusal :=
  match s.host with
  | [] => .next s
  | .reset :: later => .next (runReset later s)
  | .command c :: later => runCommand c later s

/-- `s` with the host about to present the command `c`. -/
def presenting (c : Command) (s : State) : State := s.withHost (.command c :: s.host)

end Sys2Proof.Machine
end

