-- ==== Sys2Proof/Machine/Step.lean ====
section
/-! DEFINITION. One step of the machine, and how an instruction's word is put where the step takes its next command
from. -/

namespace Sys2Proof.Machine

open Sys2Proof

/-- One step: the block takes what its host does next and completes it (`spec/70_reset_and_hazards.md` rule R258). -/
def step (s : State) : Host.Outcome State Fault Refusal := runEvent s

/-- `s` with its host presenting next the command whose word is `w` (zero above `nbits`) and whose payload is `LEN` zero
bytes. -/
def State.withFetchWord (s : State) (nbits w : Nat) : State := presenting (tableCommand nbits w) s

end Sys2Proof.Machine
end

