-- ==== Sys2Proof/Safety.lean ====
section
/-! DEFINITION. The terms the statements use: the invariant of `spec/10_state.md` rule R38, what a host can see of a
run (`spec/00_scope.md` rule R16), and the frame as a byte sequence with the fields of `spec/20_memory.md` rules R56 to
R58 and the rewritings of `spec/44_forwarding_pipeline.md` rules R166, R171, R172. -/

namespace Sys2Proof.Machine

open Sys2Proof

/-! ### The invariant (rule R38) -/

/-- What a stored route satisfies: a contiguous mask, an existing egress interface (rule R38 (d)), and it stands at
the key its mask selects (rule R24). -/
def routeFits (p : Params) (k : Key) : Option RouteEntry → Bool
  | none => true
  | some r => maskLegal r.mask && decide (r.egress.toNat < p.nIf) && k == key r.pfx (clo32 r.mask)

/-- Rule R38, clause by clause, with what rules R7, R29, R30, R33 say of every reachable state. Every clause is
decidable on a given state. -/
structure State.Inv (s : State) : Prop where
  /-- Rule R7. -/
  params : s.params.Legal
  /-- (a) the root is a node; that `NODES` is prefix-closed holds of every `Trie`. -/
  root : s.trie.hasNode [] = true
  /-- (b) -/
  nodeCnt : s.nodeCnt.toNat = s.trie.keys.length
  /-- (b) -/
  nodeCap : s.nodeCnt.toNat ≤ s.params.nodeCap
  /-- (c) -/
  depth : ∀ k ∈ s.trie.keys, k.length ≤ maxDepth
  /-- (d), rule R24 -/
  routes : ∀ k ∈ s.trie.keys, routeFits s.params k (s.trie.routeAt k) = true
  /-- (e) -/
  nbrDistinct : (s.nbr.map NeighborEntry.ip).Nodup
  /-- (f) -/
  nbrCnt : s.nbrCnt.toNat = s.nbr.length
  /-- (f) -/
  nbrCap : s.nbrCnt.toNat ≤ s.params.nbrCap
  /-- (g) -/
  flen : s.flen.toNat ≤ s.params.frameMax
  /-- (h) -/
  sealed : s.phase = .run → s.ift.all IfEntry.valid = true
  /-- Rule R29: one entry for each interface. -/
  ift : s.ift.length = s.params.nIf
  /-- The frame buffer is in canonical form, inside its `FRAME_MAX` bytes (rule R30). -/
  fbWf : s.fb.wf
  fbSize : ∀ x ∈ s.fb, x.1 < s.params.frameMax
  /-- Every byte of the frame has been written (rule R67). -/
  fbLoaded : ∀ o < s.flen.toNat, (s.fb.read o).isSome = true
  /-- No PKT.PROCESS is executing between steps (rule R33). -/
  stage : s.stage = .idle

/-! ### What the host sees (rule R16) -/

/-- The responses, word and payload, to the commands that `n` steps execute. A reset has no response. -/
def trace : Nat → State → List (PortWord × List Byte)
  | 0, _ => []
  | n + 1, s =>
    match step s with
    | .next t =>
      match s.host with
      | .command _ :: _ => (t.rsp, t.rspPayload) :: trace n t
      | _ => trace n t
    | _ => []

/-- Instructions executed one after the other, each to completion, stopping at the first that has no next state. -/
def execAll : List Instr → State → Host.Outcome State Fault Refusal
  | [], s => .next s
  | i :: is, s =>
    match exec i s with
    | .next t => execAll is t
    | .fault f => .fault f
    | .refused r => .refused r

/-- The key at which RT.INSERT stores an entry (rule R112). -/
def routeKey (e : RouteEntry) : Key := key e.pfx (clo32 e.mask)

/-- The last entry of a sequence whose key is `k` (rule R116). -/
def lastFor (es : List RouteEntry) (k : Key) : Option RouteEntry := es.reverse.find? (fun e => routeKey e == k)

/-- The RT.INSERT of an entry (rule R110). -/
def insertion (e : RouteEntry) : Instr := .rtInsert e.pfx e.mask e.nextHop e.egress

/-- Two interface entries agree where they may be read: `ip` and `link_address` are unreadable while `valid = 0`
(rule R37). -/
def IfEntry.agrees (x y : IfEntry) : Prop := x.valid = y.valid ∧ (x.valid = true → x = y)

/-- Two states agree on everything but what the spec calls hidden or unspecified (rules R36, R37): the frame buffer,
the port registers, the stage and working registers, and the contents of interface entries that are not valid. -/
structure State.AgreesWith (s t : State) : Prop where
  params : s.params = t.params
  phase : s.phase = t.phase
  trie : s.trie = t.trie
  nodeCnt : s.nodeCnt = t.nodeCnt
  nbr : s.nbr = t.nbr
  nbrCnt : s.nbrCnt = t.nbrCnt
  ift : List.Forall₂ IfEntry.agrees s.ift t.ift
  host : s.host = t.host

/-! ### Commands on the port -/

/-- The host presents the command `c` next, a pair whose payload has the length its word says (rule R80). -/
def State.Presents (s : State) (c : Command) (later : List HostEvent) : Prop :=
  s.host = .command c :: later ∧ c.payload.length = (lenField c.word).toNat

/-- A response with status `st` and field `a`, every other field zero and no payload, is what the last command
wrote (rule R91). -/
def State.Answered (t : State) (st : BitVec 4) (a : BitVec 32) : Prop :=
  t.rsp = st ++ 0#4 ++ 0#8 ++ 0#16 ++ a ++ 0#32 ++ 0#32 ∧ t.rspPayload = []

/-- The last command failed with the load-failure cause `cause`: the response says so, the phase is FAILED, and `t` is
`s` in all else (rule R223). -/
def State.LoadFailed (s t : State) (cause : BitVec 32) : Prop :=
  t.Answered 5 cause ∧ t.phase = .failed ∧
    { t with rsp := s.rsp, rspPayload := s.rspPayload, phase := s.phase } = s

/-- `t` is `s` but for the response. -/
def State.OnlyResponds (s t : State) : Prop := { t with rsp := s.rsp, rspPayload := s.rspPayload } = s

/-- `t` is `s` but for the response and what a payload-bearing command or the pipeline works on: the frame buffer,
the accumulator, the walker's registers and the stage, which is idle. -/
def State.OnlyProcesses (s t : State) : Prop :=
  { t with
    rsp := s.rsp, rspPayload := s.rspPayload, fb := s.fb, flen := s.flen, acc := s.acc
    cur := s.cur, depth := s.depth, best := s.best, stage := s.stage } = s

/-- `FB[0..FLEN)` is the frame `f` (rule R30). -/
structure State.FrameIs (s : State) (f : List Byte) : Prop where
  flen : s.flen.toNat = f.length
  bytes : ∀ o < f.length, s.fb.read o = f[o]?

/-- In `t` the frame is `f`, and every byte of `FB` from its end on is as it was in `s` (rule R67). -/
def State.HoldsFrame (s t : State) (f : List Byte) : Prop :=
  t.FrameIs f ∧ ∀ o, f.length ≤ o → t.fb.read o = s.fb.read o

/-! ### The frame as a byte sequence (rules R56 to R58) -/

/-- The `n` bytes at offset `o` as one big-endian number. -/
def field (f : List Byte) (o n : Nat) : Nat := beValue ((f.drop o).take n)

/-- `ETHERTYPE` (rule R56). -/
def etherTypeOf (f : List Byte) : Nat := field f 12 2
/-- `IHL` (rule R57). -/
def ihlOf (f : List Byte) : Nat := field f 14 1 % 16
/-- `HL = 4 * IHL` (rule R57). -/
def hlOf (f : List Byte) : Nat := 4 * ihlOf f
/-- `TOTLEN` (rule R57). -/
def totlenOf (f : List Byte) : Nat := field f 16 2
/-- `TTL` (rule R57). -/
def ttlOf (f : List Byte) : Nat := field f 22 1
/-- `IPCSUM` (rule R57). -/
def ipCsumOf (f : List Byte) : Nat := field f 24 2
/-- `IPDST` (rule R57). -/
def ipDstOf (f : List Byte) : Addr := BitVec.ofNat 32 (field f 30 4)
/-- The IPv4 header `FB[14..14+HL)` (rule R57). -/
def headerOf (f : List Byte) : List Byte := (f.drop 14).take (hlOf f)

/-- Checks (b), (c), (d) of rule R164 do not refuse the frame. -/
def roomForHeader (f : List Byte) : Prop := 34 ≤ f.length ∧ 5 ≤ ihlOf f ∧ 14 + hlOf f ≤ f.length

/-- Checks (e), (f) of rule R167 do not refuse the frame. -/
def roomForIcmp (f : List Byte) : Prop := hlOf f + 4 ≤ totlenOf f ∧ 14 + totlenOf f ≤ f.length

/-- The header checksum recomputed with its field as zero equals the field (rule R168). -/
def headerValid (f : List Byte) : Prop := (cksum (zeroField (headerOf f) 10)).toNat = ipCsumOf f

/-- The interface `i` exists and has been set, so that its entry `e` may be read (rules R29, R37). -/
def State.HasInterface (s : State) (i : BitVec 8) (e : IfEntry) : Prop := s.ift[i.toNat]? = some e ∧ e.valid = true

/-- A PKT.PROCESS of the frame `f` on interface `rx` passes steps 1 to 4 of `spec/30_encoding.md` rule R90 in `s`. -/
structure State.PktRuns (s : State) (rx : BitVec 8) (f : List Byte) : Prop where
  phase : s.phase = .run
  len : f.length < 2 ^ 16
  room : f.length ≤ s.params.frameMax
  ifid : rx.toNat < s.params.nIf

/-- It is an IPv4 frame with room for its header, and `own` is the entry of the receiving interface, which has been set
(in RUN every interface has, rule R38 (h)): the run gets to the self-destined check (rules R163 to R165). -/
structure State.PktIsIpv4 (s : State) (rx : BitVec 8) (f : List Byte) (own : IfEntry) : Prop extends
    s.PktRuns rx f where
  etherType : etherTypeOf f = 0x0800
  header : roomForHeader f
  own : s.HasInterface rx own

/-- The frame with the bytes `bs` at offset `o`. -/
def patch (f : List Byte) (o : Nat) (bs : List Byte) : List Byte := f.take o ++ bs ++ f.drop (o + bs.length)

/-- The frame with its TTL decremented by 1, modulo 256 (rule R178). -/
def ttlDecremented (f : List Byte) : List Byte := patch f 22 [BitVec.ofNat 8 (ttlOf f + 255)]

/-- The frame with the checksum field at `o` recomputed in full over the `n` bytes from `start` (rule R136). -/
def rechecksummed (f : List Byte) (o start n : Nat) : List Byte :=
  patch f o (beBytes 2 (cksum (((patch f o [0, 0]).drop start).take n)).toNat)

/-- The frame after stage S6 (rule R171). -/
def mutatedFrame (f : List Byte) : List Byte := rechecksummed (ttlDecremented f) 24 14 (hlOf f)

/-- The frame after stage S7 (rule R172): destination `dst`, source `src`. -/
def forwardedFrame (f : List Byte) (dst src : LinkAddr) : List Byte :=
  patch (mutatedFrame f) 0 (beBytes 6 dst.toNat ++ beBytes 6 src.toNat)

/-- The frame with its link addresses and its IP addresses swapped (rule R166). -/
def swappedFrame (f : List Byte) : List Byte :=
  patch (patch f 0 ((f.drop 6).take 6 ++ f.take 6)) 26 ((f.drop 30).take 4 ++ (f.drop 26).take 4)

/-- The frame after stage S2E (rule R166). -/
def repliedFrame (f : List Byte) : List Byte :=
  rechecksummed (patch (mutatedFrame (swappedFrame f)) (14 + hlOf f) [0, 0]) (14 + hlOf f + 2) (14 + hlOf f)
    (totlenOf f - hlOf f)

end Sys2Proof.Machine
end

