-- ==== Sys2Proof/Certificates/Slice0/Obligations.lean ====
section
/-! DEFINITION. What is to be proved of the model. Each statement's docstring names the rule of `spec/` it formalises. -/

open Sys2Proof Sys2Proof.Machine

/-! ### Encoding (`spec/30_encoding.md`) -/

/-- The five worked encodings of rule R94, which the spec marks as derived from rules R81, R83, R84. -/
def Obligations.SpecExampleEncodings : Prop :=
  encode (.rtInsert 0x0A000000 0xFF000000 0x0AFF0002 0) = ⟨0x020000000A000000FF0000000AFF0002, []⟩ ∧
  encode (.nbInsert 0xC0A80002 0xAABBCC000002) = ⟨0x03000000C0A800020000AABBCC000002, []⟩ ∧
  encode (.ifSet 1 0xC0A80101 0xDEADBEEF0001) = ⟨0x01010000C0A801010000DEADBEEF0001, []⟩ ∧
  (∀ p : List Byte, p.length = 42 → encode (.pktProcess 0 p) = ⟨0x3000002A000000000000000000000000, p⟩) ∧
  (∀ p : List Byte, p.length = 20 →
    encode (.csValidate 10 0xB861 p) = ⟨0x210000140000B8610000000A00000000, p⟩)

/-- Rules R81, R83, R84: words written out from the formats, one per command, decode to what they stand
for. -/
def Obligations.SpecWordsDecode : Prop :=
  decode ⟨0x01010000C0A801010000DEADBEEF0001, []⟩ = .ok (.ifSet 1 0xC0A80101 0xDEADBEEF0001) ∧
  decode ⟨0x020200000A000105FFFFFFFF0AFF0202, []⟩ = .ok (.rtInsert 0x0A000105 0xFFFFFFFF 0x0AFF0202 2) ∧
  decode ⟨0x03000000C0A800020000AABBCC000002, []⟩ = .ok (.nbInsert 0xC0A80002 0xAABBCC000002) ∧
  decode ⟨0x04000000000000000000000000000000, []⟩ = .ok .cfgSeal ∧
  decode ⟨0x05000000000000000000000000000000, []⟩ = .ok .stRead ∧
  decode ⟨0x100000000A0002070000000000000000, []⟩ = .ok (.rtLookup 0x0A000207) ∧
  decode ⟨0x11000000C0A801020000000000000000, []⟩ = .ok (.nbResolve 0xC0A80102) ∧
  decode ⟨0x20000003000000000000000000000000, [0x12, 0x34, 0x56]⟩ = .ok (.csCompute [0x12, 0x34, 0x56]) ∧
  decode ⟨0x21000004000012340000000200000000, [1, 2, 3, 4]⟩ = .ok (.csValidate 2 0x1234 [1, 2, 3, 4]) ∧
  decode ⟨0x30010002000000000000000000000000, [5, 6]⟩ = .ok (.pktProcess 1 [5, 6])

/-- Rules R80 to R85: the decoder reads back every command the encoder writes. -/
def Obligations.DecodeOfEncode : Prop :=
  ∀ i : Instr, i.WellFormed → decode (encode i) = .ok i

/-- Rules R80 to R85: a pair that decodes is the encoding of what it decodes to, bit for bit. -/
def Obligations.EncodeOfDecode : Prop :=
  ∀ (c : Command) (i : Instr), decode c = .ok i → encode i = c ∧ i.WellFormed

/-- Rule R22: the response word holds its seven fields and nothing else. -/
def Obligations.ResponseWordHoldsItsFields : Prop :=
  (∀ r : Response, Response.ofWord r.word = r) ∧ ∀ w : PortWord, (Response.ofWord w).word = w

/-! ### The port: steps, checks, phases -/

/-- Rules R90, R258, in the terms of the model's list of what the host does (assumption 3): a step with a command on
the port executes the instruction it decodes to, on the state in which `CMD` and the payload are what the host
presented and the host has gone on. -/
def Obligations.StepRunsDecodedCommand : Prop :=
  ∀ (s : State) (c : Command) (later : List HostEvent) (i : Instr),
    s.host = .command c :: later → decode c = .ok i →
      step s = exec i { s with cmd := c.word, cmdPayload := c.payload, host := later }

/-- Rule R259: a block whose host does nothing waits; that it is a step from the state to itself is the model's choice
(assumption 3). Rule R80: a pair whose payload length is not its `LEN` is not a command; that the model has a named
fault where `spec/93_implementation_defined.md` U7 has no transition is the model's choice (assumption 6). -/
def Obligations.StepWaitsOrIsStuck : Prop :=
  (∀ s : State, s.host = [] → step s = .next s) ∧
  ∀ (s : State) (c : Command) (later : List HostEvent), s.host = .command c :: later →
    c.payload.length ≠ (lenField c.word).toNat → step s = .fault .notACommand

/-- Rule R86: an opcode that is none of the ten is refused in every phase and changes nothing; 246 values are, 0 among
them. -/
def Obligations.IllegalOpcodeRefused : Prop :=
  (∀ (s : State) (c : Command) (later : List HostEvent), s.Presents c later →
    opField c.word ∉ ([0x01, 0x02, 0x03, 0x04, 0x05, 0x10, 0x11, 0x20, 0x21, 0x30] : List (BitVec 8)) →
    ∃ t, step s = .next t ∧ t.Answered 1 0 ∧ (acceptCommand c later s).OnlyResponds t) ∧
  ((List.range 256).filter (fun n =>
    BitVec.ofNat 8 n ∉ ([0x01, 0x02, 0x03, 0x04, 0x05, 0x10, 0x11, 0x20, 0x21, 0x30] : List (BitVec 8)))).length = 246 ∧
  opField 0 ∉ ([0x01, 0x02, 0x03, 0x04, 0x05, 0x10, 0x11, 0x20, 0x21, 0x30] : List (BitVec 8))

/-- Rules R85, R90, R227: a reserved bit is ERR_OPERAND where the command may run, ERR_PHASE where it may not. -/
def Obligations.ReservedBitRefused : Prop :=
  ∀ (s : State) (c : Command) (later : List HostEvent) (op : Opcode), s.Presents c later →
    opField c.word = op.code → c.word &&& op.mbz ≠ 0 →
    ∃ t, step s = .next t ∧ (if permitted op s.phase then t.Answered 3 0 else t.Answered 2 0) ∧
      (acceptCommand c later s).OnlyResponds t

/-- Rule R225, the table: which commands each phase permits; every other is refused with ERR_PHASE and changes
nothing. -/
def Obligations.PhaseTableEnforced : Prop :=
  (∀ op : Opcode,
    (permitted op .config = true ↔
      op ∈ [Opcode.ifSet, .rtInsert, .nbInsert, .cfgSeal, .stRead, .csCompute, .csValidate]) ∧
    (permitted op .run = true ↔
      op ∈ [Opcode.stRead, .rtLookup, .nbResolve, .csCompute, .csValidate, .pktProcess]) ∧
    (permitted op .failed = true ↔ op = .stRead)) ∧
  ∀ (i : Instr) (s : State), permitted i.opcode s.phase = false →
    ∃ t, exec i s = .next t ∧ t.Answered 2 0 ∧ s.OnlyResponds t

/-- Rule R90 step 3: the operand checks of the payload-bearing commands. -/
def Obligations.BadOperandRefused : Prop :=
  (∀ (s : State) (p : List Byte), s.phase ≠ .failed → s.params.frameMax < p.length →
    ∃ t, exec (.csCompute p) s = .next t ∧ t.Answered 3 0 ∧ s.OnlyResponds t) ∧
  (∀ (s : State) (coff claimed : BitVec 16) (p : List Byte), s.phase ≠ .failed →
    s.params.frameMax < p.length ∨ coff.toNat % 2 = 1 ∨ p.length < coff.toNat + 2 →
    ∃ t, exec (.csValidate coff claimed p) s = .next t ∧ t.Answered 3 0 ∧ s.OnlyResponds t) ∧
  ∀ (s : State) (rx : BitVec 8) (p : List Byte), s.phase = .run →
    s.params.frameMax < p.length ∨ s.params.nIf ≤ rx.toNat →
    ∃ t, exec (.pktProcess rx p) s = .next t ∧ t.Answered 3 0 ∧ s.OnlyResponds t

/-- Rules R23, R225: the phase changes by a reset, by a CFG.SEAL that answers OK, and by a load failure, and by
nothing else. -/
def Obligations.PhaseChangesOnlyByRule : Prop :=
  ∀ s t : State, step s = .next t →
    t.phase = s.phase ∨
    (∃ later, s.host = .reset :: later ∧ t.phase = .config) ∨
    (s.phase = .config ∧ t.phase = .run ∧ t.Answered 0 0 ∧
      ∃ c later, s.host = .command c :: later ∧ opField c.word = 0x04) ∨
    (s.phase = .config ∧ t.phase = .failed ∧ (Response.ofWord t.rsp).st = 5)

/-- Rule R224: FAILED refuses every command but ST.READ and is left by reset only; every command gets a response. -/
def Obligations.FailedLeftByResetOnly : Prop :=
  (∀ (s : State) (c : Command) (later : List HostEvent), s.Presents c later → s.phase = .failed →
    ∃ t, step s = .next t ∧ t.phase = .failed ∧
      (opField c.word ∉ ([0x01, 0x02, 0x03, 0x04, 0x05, 0x10, 0x11, 0x20, 0x21, 0x30] : List (BitVec 8)) →
        t.Answered 1 0) ∧
      (opField c.word ∈ ([0x01, 0x02, 0x03, 0x04, 0x10, 0x11, 0x20, 0x21, 0x30] : List (BitVec 8)) →
        t.Answered 2 0)) ∧
  (∀ (s : State) (later : List HostEvent), s.host = .reset :: later → ∃ t, step s = .next t ∧ t.phase = .config) ∧
  ∀ (s : State) (c : Command) (later : List HostEvent), s.Inv → s.Presents c later →
    ∃ t, step s = .next t ∧ (Response.ofWord t.rsp).st.toNat ≤ 5

/-- Rules R31, R87, R88, R89, R91: a response has one of the six status codes and never a reserved or a doubled flag;
ERR_FRAME answers PKT.PROCESS only; a load failure has one of the six causes, for a command that raises it; an OK
PKT.PROCESS has one of the seven outcome codes, and HIT exactly where a frame is emitted (codes 0 and 1); a response
that is not OK carries nothing but the cause of a load failure. -/
def Obligations.ResponseFollowsTheCodeTables : Prop :=
  ∀ (s : State) (c : Command) (later : List HostEvent), s.Inv → s.Presents c later →
    ∃ t, step s = .next t ∧
      let r := Response.ofWord t.rsp
      r.st.toNat ≤ 5 ∧ r.flg.toNat ≤ 2 ∧
      (r.st = 4 → opField c.word = 0x30) ∧
      (r.st = 5 → (opField c.word, r.a) ∈
        ([(0x02, 1), (0x01, 2), (0x02, 2), (0x02, 3), (0x03, 4), (0x03, 5), (0x04, 6)] : List (BitVec 8 × BitVec 32))) ∧
      (opField c.word = 0x30 → r.st = 0 → r.a.toNat ≤ 6 ∧ (r.flg = 1 ↔ r.a.toNat ≤ 1)) ∧
      (r.st ≠ 0 → r.st ≠ 5 → r.a = 0) ∧
      (r.st ≠ 0 → r.flg = 0 ∧ r.ifid = 0 ∧ r.len = 0 ∧ r.b = 0 ∧ r.c = 0 ∧ t.rspPayload = [])

/-- Rules R38 (h), R200: in RUN no command changes a table, a count or the phase. -/
def Obligations.RunTablesImmutable : Prop :=
  ∀ s t : State, s.phase = .run → (∀ later, s.host ≠ .reset :: later) → step s = .next t →
    t.phase = .run ∧ t.trie = s.trie ∧ t.nodeCnt = s.nodeCnt ∧ t.nbr = s.nbr ∧ t.nbrCnt = s.nbrCnt ∧ t.ift = s.ift

/-- Rule R20: the parameters are configuration, not state; that they are a field of `State` which nothing changes is
the model's choice (assumption 1). -/
def Obligations.ParametersNeverChange : Prop :=
  ∀ s t : State, step s = .next t → t.params = s.params

/-! ### Reset and the invariant -/

/-- Rules R37, R250: after a reset every piece of state the spec gives a value has it, whatever the state before. That
the parameters and what the host does next survive it is the model's choice (assumptions 1, 3). -/
def Obligations.ResetGivesTheSpecsValues : Prop :=
  ∀ (s : State) (later : List HostEvent), s.host = .reset :: later →
    ∃ t, step s = .next t ∧ t.phase = .config ∧ (∀ k, t.trie.hasNode k = true ↔ k = []) ∧
      (∀ k, t.trie.routeAt k = none) ∧ t.nodeCnt = 1 ∧ t.nbr = [] ∧ t.nbrCnt = 0 ∧
      t.ift.length = s.params.nIf ∧ (∀ e ∈ t.ift, e.valid = false) ∧ t.flen = 0 ∧ t.stage = .idle ∧
      t.params = s.params ∧ t.host = later

/-- Rules R37, R38: the machine right after reset meets the invariant, whatever the parameters are in their legal
range (rule R7, the bounds below 2^32 by assumption 2). -/
def Obligations.ResetMeetsInvariant : Prop := State.reset.Inv

/-- Every step keeps the invariant of rule R38 (which the spec marks as derived), from every state that meets it. The
invariant adds what rules R7, R29, R30, R33, R67 say of every reachable state, the bounds below 2^32 by assumption 2.
-/
def Obligations.StepKeepsInvariant : Prop :=
  ∀ s t : State, s.Inv → step s = .next t → t.Inv

/-- Rules R16, R36, R37: what the spec calls hidden or unspecified never shows: two states that differ in nothing else
answer every run with the same responses. It holds for every value of those fields, so nothing rests on the values the
model gives them at reset (assumption 4). -/
def Obligations.HiddenStateNeverShows : Prop :=
  ∀ s t : State, s.Inv → s.AgreesWith t → ∀ n, trace n s = trace n t

/-! ### RoutingTrie (`spec/41_routing_trie.md`) -/

/-- Rules R24, R27: `keys` lists every node once, so that its length is the number of nodes; the nodes are
prefix-closed, and a key that owns a route is a node. -/
def Obligations.KeysListTheNodes : Prop :=
  ∀ t : Trie, t.keys.Nodup ∧ (∀ k, k ∈ t.keys ↔ t.hasNode k = true) ∧
    (∀ k k', k' <+: k → t.hasNode k = true → t.hasNode k' = true) ∧
    ∀ k r, t.routeAt k = some r → t.hasNode k = true

/-- Rules R112, R114: what RT.INSERT does when its checks pass. -/
def Obligations.RtInsertStoresRoute : Prop :=
  ∀ (s : State) (pfx nextHop : Addr) (ifid : BitVec 8) (n : Nat), s.phase = .config → s.trie.hasNode [] = true →
    n ≤ 32 → ifid.toNat < s.params.nIf → s.nodeCnt.toNat + s.trie.missing pfx n ≤ s.params.nodeCap →
    ∃ t, exec (.rtInsert pfx (ones n) nextHop ifid) s = .next t ∧
      (∀ k, t.trie.hasNode k = true ↔ s.trie.hasNode k = true ∨ k <+: key pfx n) ∧
      t.trie.routeAt (key pfx n) = some { pfx := pfx, mask := ones n, nextHop := nextHop, egress := ifid } ∧
      (∀ k, k ≠ key pfx n → t.trie.routeAt k = s.trie.routeAt k) ∧
      t.nodeCnt = s.nodeCnt + BitVec.ofNat 32 (s.trie.missing pfx n) ∧
      t.cur = key pfx n ∧ t.depth = n ∧
      t.rsp = (if (s.trie.routeAt (key pfx n)).isSome then 0x02000000000000000000000000000000 else 0) ∧
      t.rspPayload = [] ∧
      { t with
        trie := s.trie, nodeCnt := s.nodeCnt, cur := s.cur, depth := s.depth, best := s.best
        rsp := s.rsp, rspPayload := s.rspPayload } = s

/-- Rule R113: the legal masks are the 33 of `ones(0)` to `ones(32)`; any other fails the load and leaves the trie. -/
def Obligations.GappedMaskFailsTheLoad : Prop :=
  (∀ m : Addr, m = ones (clo32 m) ↔ ∃ n, n ≤ 32 ∧ m = ones n) ∧
  (∀ (s : State) (pfx m nextHop : Addr) (ifid : BitVec 8), s.phase = .config → (∀ n, n ≤ 32 → m ≠ ones n) →
    ∃ t, exec (.rtInsert pfx m nextHop ifid) s = .next t ∧ s.LoadFailed t 1 ∧ t.trie = s.trie) ∧
  clo32 0xFF00FF00 = 8 ∧ ones 8 = 0xFF000000 ∧ (0xFF000000 : Addr) ≠ 0xFF00FF00

/-- Rules R115, R223, R227: with a legal mask, BAD_IFID comes before TRIE_FULL; each sets FAILED and changes nothing
else. -/
def Obligations.RtInsertLoadFailures : Prop :=
  ∀ (s : State) (pfx nextHop : Addr) (ifid : BitVec 8) (n : Nat), s.phase = .config → n ≤ 32 →
    (s.params.nIf ≤ ifid.toNat →
      ∃ t, exec (.rtInsert pfx (ones n) nextHop ifid) s = .next t ∧ s.LoadFailed t 2) ∧
    (ifid.toNat < s.params.nIf → s.params.nodeCap < s.nodeCnt.toNat + s.trie.missing pfx n →
      ∃ t, exec (.rtInsert pfx (ones n) nextHop ifid) s = .next t ∧ s.LoadFailed t 3)

/-- What rule R116, which the spec marks as derived from rule R112, says of rules R112 and R114: after a sequence of
RT.INSERTs from reset, none of which failed, `NODES` is the set of the prefixes of the keys inserted (and the root)
and `ROUTE(k)` is the last entry whose key is `k`; a sequence that differs only in the order of entries with different
keys does not fail either and makes the same trie. A sequence of legal entries does not fail when `NODE_CAP` has room
for 32 nodes an entry and the root. -/
def Obligations.BuildKeepsLastEntryPerKey : Prop :=
  ∀ (p : Params) (es : List RouteEntry), p.Legal →
    (∀ t, execAll (es.map insertion) (State.resetWith p) = .next t → t.phase = .config →
      (∀ k, t.trie.hasNode k = true ↔ k = [] ∨ ∃ e ∈ es, k <+: routeKey e) ∧
      (∀ k, t.trie.routeAt k = lastFor es k) ∧
      ∀ es' : List RouteEntry, es'.Perm es →
        (∀ k, es'.filter (fun e => routeKey e == k) = es.filter (fun e => routeKey e == k)) →
        ∃ t', execAll (es'.map insertion) (State.resetWith p) = .next t' ∧ t'.phase = .config ∧ t'.trie = t.trie) ∧
    (32 * es.length + 1 ≤ p.nodeCap → (∀ e ∈ es, (∃ n, n ≤ 32 ∧ e.mask = ones n) ∧ e.egress.toNat < p.nIf) →
      ∃ t, execAll (es.map insertion) (State.resetWith p) = .next t ∧ t.phase = .config)

/-- Rule R118, in the first declarative form of rule R119 (which the spec marks as derived from it): the walk finds
the route at the longest key that begins the address. -/
def Obligations.LookupFindsLongestKey : Prop :=
  ∀ (s : State) (a : Addr),
    (∀ n r, n ≤ 32 → s.trie.routeAt (key a n) = some r →
      (∀ m, n < m → m ≤ 32 → s.trie.routeAt (key a m) = none) → (trieLookup a s).best = some r) ∧
    ((∀ n, n ≤ 32 → s.trie.routeAt (key a n) = none) → (trieLookup a s).best = none)

/-- Rule R118, in the second declarative form of rule R119 (which the spec marks as derived from it): among the stored
entries whose masked prefix is the masked address, the walk finds the one with the longest mask; no two of them have
masks of one length. -/
def Obligations.LookupFindsLongestMask : Prop :=
  ∀ (s : State) (a : Addr), s.Inv →
    (∀ r, (trieLookup a s).best = some r →
      a &&& r.mask = r.pfx &&& r.mask ∧ (∃ k, s.trie.routeAt k = some r) ∧
      ∀ k e, s.trie.routeAt k = some e → a &&& e.mask = e.pfx &&& e.mask → clo32 e.mask ≤ clo32 r.mask) ∧
    ((trieLookup a s).best = none →
      ∀ k e, s.trie.routeAt k = some e → a &&& e.mask ≠ e.pfx &&& e.mask) ∧
    ∀ k k' e e', s.trie.routeAt k = some e → s.trie.routeAt k' = some e' →
      a &&& e.mask = e.pfx &&& e.mask → a &&& e'.mask = e'.pfx &&& e'.mask →
      clo32 e.mask = clo32 e'.mask → e = e'

/-- Rule R118: the walk goes as deep as the nodes go and not beyond depth 32, and writes only its own registers. -/
def Obligations.LookupWalkStops : Prop :=
  ∀ (s : State) (a : Addr), s.trie.hasNode [] = true →
    let t := trieLookup a s
    t.depth ≤ 32 ∧ t.cur = key a t.depth ∧ s.trie.hasNode t.cur = true ∧
      (t.depth = 32 ∨ s.trie.hasNode (key a (t.depth + 1)) = false) ∧
      { t with cur := s.cur, depth := s.depth, best := s.best } = s

/-- Rule R117: RT.LOOKUP answers the longest match or a miss, and changes only the walker's registers. -/
def Obligations.RtLookupAnswers : Prop :=
  ∀ (s : State) (ip : Addr), s.phase = .run →
    ∃ t, exec (.rtLookup ip) s = .next t ∧
      (∀ n r, n ≤ 32 → s.trie.routeAt (key ip n) = some r →
        (∀ m, n < m → m ≤ 32 → s.trie.routeAt (key ip m) = none) →
        t.rsp = 0#4 ++ 1#4 ++ r.egress ++ 0#16 ++ r.pfx ++ r.mask ++ r.nextHop) ∧
      ((∀ n, n ≤ 32 → s.trie.routeAt (key ip n) = none) → t.rsp = 0) ∧
      t.rspPayload = [] ∧
      { t with
        cur := s.cur, depth := s.depth, best := s.best, rsp := s.rsp, rspPayload := s.rspPayload } = s

/-- Rule R120: mask 0 stores at the root, and the default route answers when no longer key has a route, and then only. -/
def Obligations.DefaultRouteIsLastResort : Prop :=
  (∀ (s : State) (pfx nextHop : Addr) (ifid : BitVec 8), s.phase = .config → s.trie.hasNode [] = true →
    ifid.toNat < s.params.nIf → s.nodeCnt.toNat ≤ s.params.nodeCap →
    ∃ t, exec (.rtInsert pfx 0 nextHop ifid) s = .next t ∧ t.nodeCnt = s.nodeCnt ∧
      (∀ k, t.trie.hasNode k = s.trie.hasNode k) ∧
      t.trie.routeAt [] = some { pfx := pfx, mask := 0, nextHop := nextHop, egress := ifid }) ∧
  ∀ (s : State) (a : Addr) (d : RouteEntry), s.trie.routeAt [] = some d →
    ((∀ n, 1 ≤ n → n ≤ 32 → s.trie.routeAt (key a n) = none) → (trieLookup a s).best = some d) ∧
    ((∃ n, 1 ≤ n ∧ n ≤ 32 ∧ (s.trie.routeAt (key a n)).isSome = true) →
      ∃ n r, 1 ≤ n ∧ n ≤ 32 ∧ s.trie.routeAt (key a n) = some r ∧ (trieLookup a s).best = some r)

/-! ### NeighborTable (`spec/43_neighbor_table.md`) -/

/-- Rule R152: NB.INSERT appends the entry and counts it. -/
def Obligations.NbInsertAppends : Prop :=
  ∀ (s : State) (ip : Addr) (mac : LinkAddr), s.phase = .config → (∀ e ∈ s.nbr, e.ip ≠ ip) →
    s.nbrCnt.toNat ≠ s.params.nbrCap →
    ∃ t, exec (.nbInsert ip mac) s = .next t ∧ t.nbr = s.nbr ++ [{ ip := ip, linkAddress := mac }] ∧
      t.nbrCnt = s.nbrCnt + 1 ∧ t.Answered 0 0 ∧
      { t with nbr := s.nbr, nbrCnt := s.nbrCnt, rsp := s.rsp, rspPayload := s.rspPayload } = s

/-- Rules R152, R223, R227: NBR_DUP before NBR_FULL; each sets FAILED and changes nothing else. -/
def Obligations.NbInsertLoadFailures : Prop :=
  ∀ (s : State) (ip : Addr) (mac : LinkAddr), s.phase = .config →
    ((∃ e ∈ s.nbr, e.ip = ip) → ∃ t, exec (.nbInsert ip mac) s = .next t ∧ s.LoadFailed t 4) ∧
    ((∀ e ∈ s.nbr, e.ip ≠ ip) → s.nbrCnt.toNat = s.params.nbrCap →
      ∃ t, exec (.nbInsert ip mac) s = .next t ∧ s.LoadFailed t 5)

/-- Rule R153: NB.RESOLVE answers the first entry that matches, or a miss, and changes nothing else. -/
def Obligations.NbResolveAnswers : Prop :=
  ∀ (s : State) (ip : Addr), s.phase = .run →
    ∃ t, exec (.nbResolve ip) s = .next t ∧
      (∀ before e after, s.nbr = before ++ e :: after → (∀ x ∈ before, x.ip ≠ ip) → e.ip = ip →
        t.rsp = 0#4 ++ 1#4 ++ 0#8 ++ 0#16 ++ 0#32 ++ (0#16 ++ e.linkAddress.extractLsb' 32 16) ++
          e.linkAddress.extractLsb' 0 32) ∧
      ((∀ e ∈ s.nbr, e.ip ≠ ip) → t.rsp = 0) ∧ t.rspPayload = [] ∧ s.OnlyResponds t

/-- Rule R151: the first entry that matches; in a table whose addresses are distinct (rule R38 (e)) the result is the
one entry with that address, whatever the order of the entries. -/
def Obligations.ResolveIsExactMatch : Prop :=
  ∀ (nbr : List NeighborEntry) (a : Addr),
    (∀ before e after, nbr = before ++ e :: after → (∀ x ∈ before, x.ip ≠ a) → e.ip = a →
      nbrResolve nbr a = some e.linkAddress) ∧
    ((∀ e ∈ nbr, e.ip ≠ a) → nbrResolve nbr a = none) ∧
    ((nbr.map NeighborEntry.ip).Nodup →
      (∀ m, nbrResolve nbr a = some m ↔ ∃ e ∈ nbr, e.ip = a ∧ e.linkAddress = m) ∧
      ∀ nbr' : List NeighborEntry, nbr'.Perm nbr → nbrResolve nbr' a = nbrResolve nbr a)

/-! ### Configuration and status (`spec/45_config_status.md`) -/

/-- Rule R201: IF.SET writes one entry of `IFT`. -/
def Obligations.IfSetWritesEntry : Prop :=
  ∀ (s : State) (ifid : BitVec 8) (ip : Addr) (mac : LinkAddr), s.phase = .config →
    s.ift.length = s.params.nIf → ifid.toNat < s.params.nIf →
    ∃ t, exec (.ifSet ifid ip mac) s = .next t ∧
      t.ift[ifid.toNat]? = some { valid := true, ip := ip, linkAddress := mac } ∧
      (∀ j, j ≠ ifid.toNat → t.ift[j]? = s.ift[j]?) ∧ t.Answered 0 0 ∧
      { t with ift := s.ift, rsp := s.rsp, rspPayload := s.rspPayload } = s

/-- Rules R201, R223: an interface that does not exist fails the load. -/
def Obligations.IfSetLoadFailure : Prop :=
  ∀ (s : State) (ifid : BitVec 8) (ip : Addr) (mac : LinkAddr), s.phase = .config → s.params.nIf ≤ ifid.toNat →
    ∃ t, exec (.ifSet ifid ip mac) s = .next t ∧ s.LoadFailed t 2

/-- Rule R202: CFG.SEAL goes to RUN when every interface is set, and fails the load when one is not. -/
def Obligations.CfgSealSealsOrFails : Prop :=
  ∀ s : State, s.phase = .config →
    ((∀ e ∈ s.ift, e.valid = true) →
      ∃ t, exec .cfgSeal s = .next t ∧ t.phase = .run ∧ t.Answered 0 0 ∧
        { t with phase := s.phase, rsp := s.rsp, rspPayload := s.rspPayload } = s) ∧
    ((∃ e ∈ s.ift, e.valid = false) → ∃ t, exec .cfgSeal s = .next t ∧ s.LoadFailed t 6)

/-- Rule R203: ST.READ answers in every phase and changes nothing else. -/
def Obligations.StReadAnswers : Prop :=
  ∀ s : State, ∃ t, exec .stRead s = .next t ∧
    t.rsp = 0#4 ++ 0#4 ++ 0#8 ++ 0#16 ++
      (BitVec.ofNat 16 (s.ift.filter IfEntry.valid).length ++ 0#14 ++
        (match s.phase with | .config => 0#2 | .run => 1#2 | .failed => 2#2)) ++ s.nodeCnt ++ s.nbrCnt ∧
    t.rspPayload = [] ∧ s.OnlyResponds t

/-! ### ChecksumEngine (`spec/42_checksum.md`) -/

/-- Rule R131: the sum with end-around carry, its laws and the rule's examples. -/
def Obligations.OnesComplementAddition : Prop :=
  (∀ a b : Sum16, (ocAdd16 a b).toNat = (a.toNat + b.toNat) % 0x10000 + (a.toNat + b.toNat) / 0x10000) ∧
  (∀ a b : Sum16, ocAdd16 a b = ocAdd16 b a) ∧
  (∀ a b c : Sum16, ocAdd16 (ocAdd16 a b) c = ocAdd16 a (ocAdd16 b c)) ∧
  (∀ a : Sum16, ocAdd16 a 0 = a) ∧
  (∀ a : Sum16, ocAdd16 a 0xFFFF = if a = 0 then 0xFFFF else a) ∧
  (∀ a b : Sum16, ocAdd16 a b = 0 ↔ a = 0 ∧ b = 0) ∧
  (∀ a : Sum16, ocAdd16 a (~~~a) = 0xFFFF) ∧
  ocAdd16 0xFFFF 0x0001 = 0x0001 ∧ ocAdd16 0x8000 0x8000 = 0x0001 ∧ ocAdd16 0xFFFF 0xFFFF = 0xFFFF

/-- Rule R132: the checksum is 0xFFFF for the byte sequences that hold only zeros, the empty one among them, and for
no other. -/
def Obligations.ChecksumOfZeros : Prop :=
  ∀ bytes : List Byte, cksum bytes = 0xFFFF ↔ ∀ b ∈ bytes, b = 0

/-- Rules R131, R132, by rule R138 (which the spec marks as derived from them): adding the words in a wide register
and folding at the end gives the same accumulator. -/
def Obligations.DeferredFoldingAgrees : Prop :=
  ∀ bytes : List Byte,
    (sumWords 0 bytes).toNat = foldWide (wideSum bytes) ∧
    (wideSum bytes = 0 → foldWide (wideSum bytes) = 0) ∧
    (0 < wideSum bytes → 1 ≤ foldWide (wideSum bytes) ∧ foldWide (wideSum bytes) ≤ 0xFFFF ∧
      foldWide (wideSum bytes) % 0xFFFF = wideSum bytes % 0xFFFF)

/-- Rule R137: a header whose checksum field holds the checksum of the header with that field zeroed has checksum 0.
-/
def Obligations.ChecksumRoundTrip : Prop :=
  ∀ (bytes : List Byte) (coff : Nat), coff % 2 = 0 → coff + 2 ≤ bytes.length →
    cksum (patch bytes coff (beBytes 2 (cksum (zeroField bytes coff)).toNat)) = 0

/-- Rules R131, R132, R134, by rule R139 (which the spec marks as derived from them): validation compares the
recomputed value with the claim; it differs from summing the header in place in exactly one case. -/
def Obligations.ValidateZeroCorner : Prop :=
  (∀ (bytes : List Byte) (coff : Nat) (claimed : Sum16), coff % 2 = 0 → coff + 2 ≤ bytes.length →
    (validate bytes coff claimed ≠ (sumWords 0 (patch bytes coff (beBytes 2 claimed.toNat)) == 0xFFFF) ↔
      cksum (zeroField bytes coff) = 0 ∧ claimed = 0xFFFF) ∧
    (cksum (zeroField bytes coff) = 0 → claimed = 0xFFFF → validate bytes coff claimed = false)) ∧
  ∀ (bytes : List Byte) (coff : Nat), cksum (zeroField bytes coff) = 0xFFFF → ∀ b ∈ zeroField bytes coff, b = 0

/-- Rules R67, R132, R133: CS.COMPUTE loads its payload and answers its checksum. That `ACC` keeps the final sum after
the command, where the spec leaves it idle or unspecified, is the model's choice (assumption 9). -/
def Obligations.CsComputeAnswers : Prop :=
  ∀ (s : State) (p : List Byte), s.phase ≠ .failed → p.length ≤ s.params.frameMax → p.length < 2 ^ 16 →
    ∃ t, exec (.csCompute p) s = .next t ∧ t.Answered 0 ((cksum p).setWidth 32) ∧ s.HoldsFrame t p ∧
      t.acc = sumWords 0 p ∧
      { t with fb := s.fb, flen := s.flen, acc := s.acc, rsp := s.rsp, rspPayload := s.rspPayload } = s

/-- Rules R134, R135: CS.VALIDATE loads its payload, answers the checksum recomputed with the field as zero and
whether it is the claimed one, and leaves the payload in the frame buffer as loaded. That `ACC` keeps the final sum of
the recomputation after the command, where the spec leaves it idle or unspecified, is the model's choice
(assumption 9). -/
def Obligations.CsValidateAnswers : Prop :=
  ∀ (s : State) (coff claimed : BitVec 16) (p : List Byte), s.phase ≠ .failed → p.length ≤ s.params.frameMax →
    p.length < 2 ^ 16 → coff.toNat % 2 = 0 → coff.toNat + 2 ≤ p.length →
    ∃ t, exec (.csValidate coff claimed p) s = .next t ∧
      t.rsp = 0#4 ++ (if cksum (patch p coff.toNat [0, 0]) = claimed then 1#4 else 0#4) ++ 0#8 ++ 0#16 ++
        (0#16 ++ cksum (patch p coff.toNat [0, 0])) ++ 0#32 ++ 0#32 ∧
      t.rspPayload = [] ∧ s.HoldsFrame t p ∧ t.acc = sumWords 0 (patch p coff.toNat [0, 0]) ∧
      { t with fb := s.fb, flen := s.flen, acc := s.acc, rsp := s.rsp, rspPayload := s.rspPayload } = s

/-! ### The frame buffer (`spec/20_memory.md`) -/

/-- Rule R52: `MemRead` inside the frame gives the big-endian number of its bytes. -/
def Obligations.MemReadIsBigEndian : Prop :=
  ∀ (s : State) (o n : Nat) (b : Nat → Byte), o + n ≤ s.flen.toNat → (∀ i, i < n → s.fb.read (o + i) = some (b i)) →
    ∃ v, memRead s o n = .ok v ∧ v.toNat = ((List.range n).map (fun i => (b i).toNat * 2 ^ (8 * (n - 1 - i)))).sum

/-- Rules R51, R52, by rule R53 (which the spec marks as derived from them): a write writes its bytes and no other and
is read back; the first byte written is the most significant. -/
def Obligations.MemReadAfterMemWrite : Prop :=
  (∀ (s : State) (o n : Nat) (v : BitVec (8 * n)), n ∈ [1, 2, 4, 6] → o + n ≤ s.flen.toNat →
    ∃ m, memWrite s o n v = .ok { s with fb := m } ∧
      (∀ i, i < n → m.read (o + i) = some (BitVec.ofNat 8 (v.toNat >>> (8 * (n - 1 - i)) &&& 0xFF))) ∧
      (∀ a, a < o ∨ o + n ≤ a → m.read a = s.fb.read a) ∧
      memRead { s with fb := m } o n = .ok v) ∧
  ∀ (s t : State) (o : Nat) (v : BitVec 16), memWrite s o 2 v = .ok t →
    memRead t o 1 = .ok (v.extractLsb' 8 8)

/-! ### ForwardingPipeline (`spec/44_forwarding_pipeline.md`) -/

/-- Rules R164, R167: a frame that fails one of the checks (a) to (f) is refused and left as it was loaded. -/
def Obligations.MalformedFrameRefused : Prop :=
  (∀ (s : State) (rx : BitVec 8) (f : List Byte), s.PktRuns rx f →
    f.length < 14 ∨ (14 ≤ f.length ∧ etherTypeOf f = 0x0800 ∧ ¬roomForHeader f) →
    ∃ t, exec (.pktProcess rx f) s = .next t ∧ t.Answered 4 0 ∧ s.HoldsFrame t f ∧ s.OnlyProcesses t ∧
      t.stage = .idle) ∧
  ∀ (s : State) (rx : BitVec 8) (f : List Byte) (own : IfEntry), s.PktIsIpv4 rx f own → ipDstOf f = own.ip →
    ¬roomForIcmp f →
    ∃ t, exec (.pktProcess rx f) s = .next t ∧ t.Answered 4 0 ∧ s.HoldsFrame t f ∧ s.OnlyProcesses t ∧
      t.stage = .idle

/-- Rule R163: a frame whose protocol field is not IPv4 is dropped, whatever else it holds. -/
def Obligations.NonIpv4Dropped : Prop :=
  ∀ (s : State) (rx : BitVec 8) (f : List Byte), s.PktRuns rx f → 14 ≤ f.length → etherTypeOf f ≠ 0x0800 →
    ∃ t, exec (.pktProcess rx f) s = .next t ∧ t.Answered 0 2 ∧ s.HoldsFrame t f ∧ s.OnlyProcesses t ∧
      t.stage = .idle

/-- Rule R166: a self-destined frame with room for its ICMP segment is answered on the receiving interface, whatever
its protocol, its checksums and its TTL. -/
def Obligations.SelfDestinedReplied : Prop :=
  ∀ (s : State) (rx : BitVec 8) (f : List Byte) (own : IfEntry), s.PktIsIpv4 rx f own → ipDstOf f = own.ip →
    roomForIcmp f →
    ∃ t, exec (.pktProcess rx f) s = .next t ∧
      t.rsp = 0#4 ++ 1#4 ++ rx ++ BitVec.ofNat 16 f.length ++ 1#32 ++ 0#32 ++ 0#32 ∧
      t.rspPayload = repliedFrame f ∧ s.HoldsFrame t (repliedFrame f) ∧ s.OnlyProcesses t ∧ t.stage = .idle

/-- Rule R168: on the forward path a header whose recomputed checksum is not its field is dropped, unchanged. -/
def Obligations.BadChecksumDropped : Prop :=
  ∀ (s : State) (rx : BitVec 8) (f : List Byte) (own : IfEntry), s.PktIsIpv4 rx f own → ipDstOf f ≠ own.ip →
    ¬headerValid f →
    ∃ t, exec (.pktProcess rx f) s = .next t ∧ t.Answered 0 3 ∧ s.HoldsFrame t f ∧ s.OnlyProcesses t ∧
      t.stage = .idle

/-- Rule R169: with no route the frame is dropped, unchanged, whatever its TTL. -/
def Obligations.NoRouteDropped : Prop :=
  ∀ (s : State) (rx : BitVec 8) (f : List Byte) (own : IfEntry), s.PktIsIpv4 rx f own → ipDstOf f ≠ own.ip →
    headerValid f → (∀ n, n ≤ 32 → s.trie.routeAt (key (ipDstOf f) n) = none) →
    ∃ t, exec (.pktProcess rx f) s = .next t ∧ t.Answered 0 4 ∧ s.HoldsFrame t f ∧ s.OnlyProcesses t ∧
      t.stage = .idle

/-- Rule R170: with a route and TTL 0 the frame is dropped before any mutation. -/
def Obligations.TtlZeroDropped : Prop :=
  ∀ (s : State) (rx : BitVec 8) (f : List Byte) (own : IfEntry) (r : RouteEntry), s.PktIsIpv4 rx f own →
    ipDstOf f ≠ own.ip → headerValid f → (trieLookup (ipDstOf f) s).best = some r → ttlOf f = 0 →
    ∃ t, exec (.pktProcess rx f) s = .next t ∧ t.Answered 0 5 ∧ s.HoldsFrame t f ∧ s.OnlyProcesses t ∧
      t.stage = .idle

/-- Rules R154, R171: with no neighbour for the route's next hop the frame is dropped after the mutation. -/
def Obligations.NeighborMissDropped : Prop :=
  ∀ (s : State) (rx : BitVec 8) (f : List Byte) (own : IfEntry) (r : RouteEntry), s.PktIsIpv4 rx f own →
    ipDstOf f ≠ own.ip → headerValid f → (trieLookup (ipDstOf f) s).best = some r → 1 ≤ ttlOf f →
    (∀ e ∈ s.nbr, e.ip ≠ r.nextHop) →
    ∃ t, exec (.pktProcess rx f) s = .next t ∧ t.Answered 0 6 ∧ s.HoldsFrame t (mutatedFrame f) ∧
      s.OnlyProcesses t ∧ t.stage = .idle

/-- Rules R163 to R165, R168 to R172: with a route, a TTL of at least 1 and a neighbour for the next hop the frame goes
out on the route's egress interface, its TTL decremented, its header checksum recomputed and its link addresses
rewritten. -/
def Obligations.RoutedFrameTransmitted : Prop :=
  ∀ (s : State) (rx : BitVec 8) (f : List Byte) (own out : IfEntry) (r : RouteEntry) (m : LinkAddr),
    s.PktIsIpv4 rx f own → ipDstOf f ≠ own.ip → headerValid f → (trieLookup (ipDstOf f) s).best = some r →
    1 ≤ ttlOf f → nbrResolve s.nbr r.nextHop = some m → s.HasInterface r.egress out →
    ∃ t, exec (.pktProcess rx f) s = .next t ∧
      t.rsp = 0#4 ++ 1#4 ++ r.egress ++ BitVec.ofNat 16 f.length ++ 0#32 ++ 0#32 ++ 0#32 ∧
      t.rspPayload = forwardedFrame f m out.linkAddress ∧ s.HoldsFrame t (forwardedFrame f m out.linkAddress) ∧
      s.OnlyProcesses t ∧ t.stage = .idle

/-- Rules R163 to R172, by the table of rule R173 (which the spec marks as derived from them): which bytes of the
frame a run may change, by how it ends; it emits a frame only when it answers HIT, and changes no table. -/
def Obligations.PipelineWritesOnlyItsFields : Prop :=
  ∀ (s t : State) (rx : BitVec 8) (f : List Byte), s.PktRuns rx f → exec (.pktProcess rx f) s = .next t →
    s.OnlyProcesses t ∧ t.flen.toNat = f.length ∧ (∀ o, f.length ≤ o → t.fb.read o = s.fb.read o) ∧
    ((Response.ofWord t.rsp).flg = 0 → t.rspPayload = []) ∧
    ∀ o, o < f.length → t.fb.read o ≠ f[o]? →
      (t.Answered 0 6 ∧ o ∈ [22, 24, 25]) ∨
      ((Response.ofWord t.rsp).flg = 1 ∧ (Response.ofWord t.rsp).a = 0 ∧ (o < 12 ∨ o ∈ [22, 24, 25])) ∨
      ((Response.ofWord t.rsp).flg = 1 ∧ (Response.ofWord t.rsp).a = 1 ∧
        (o < 12 ∨ o ∈ [22, 24, 25] ∨ (26 ≤ o ∧ o < 34) ∨ (14 + hlOf f ≤ o ∧ o < 18 + hlOf f)))

/-- Rule R178: a transmitted frame arrived with TTL at least 1 and leaves with TTL - 1; a replied frame leaves with
TTL - 1 modulo 256, so that 0 becomes 255. -/
def Obligations.EmittedTtl : Prop :=
  ∀ (s t : State) (rx : BitVec 8) (f : List Byte), s.PktRuns rx f → exec (.pktProcess rx f) s = .next t →
    (Response.ofWord t.rsp).flg = 1 →
    ((Response.ofWord t.rsp).a = 0 ∧ 1 ≤ ttlOf f ∧ t.rspPayload[22]? = some (BitVec.ofNat 8 (ttlOf f - 1))) ∨
    ((Response.ofWord t.rsp).a = 1 ∧
      t.rspPayload[22]? = some (BitVec.ofNat 8 (if ttlOf f = 0 then 255 else ttlOf f - 1)))

/-- Rules R136, R166, R171: whatever checksum a frame arrived with, every frame the pipeline emits has a header whose
checksum a receiver finds valid. -/
def Obligations.EmittedHeaderIsValid : Prop :=
  ∀ (s t : State) (rx : BitVec 8) (f : List Byte), s.PktRuns rx f → exec (.pktProcess rx f) s = .next t →
    (Response.ofWord t.rsp).flg = 1 → headerValid t.rspPayload ∧ t.rspPayload.length = f.length
end

