-- ==== Sys2Proof/Laws/Memory.lean ====
section
/-! SUPPORT. The frame buffer as a memory: a read after a write, and the canonical form that every write keeps. -/

namespace Sys2Proof.Machine

open Sys2Proof

theorem Memory.read_write (m : Memory) (a c : Nat) (b : Byte) :
    (m.write a b).read c = if c = a then some b else m.read c := by
  induction m with
  | nil =>
    by_cases h : c = a
    · simp [Memory.write, Memory.read, h]
    · simp [Memory.write, Memory.read, h, Ne.symm h]
  | cons x m ih =>
    obtain ⟨k, y⟩ := x
    unfold Memory.write
    by_cases h₁ : a < k
    · by_cases h : c = a
      · subst h; simp [Memory.read, h₁]
      · simp [Memory.read, h₁, h, Ne.symm h]
    · by_cases h₂ : a = k
      · subst h₂
        by_cases h : c = a
        · subst h; simp [Memory.read]
        · simp [Memory.read, h, Ne.symm h]
      · rw [if_neg h₁, if_neg h₂]
        by_cases hk : k = c
        · subst hk; simp [Memory.read, Ne.symm h₂]
        · rw [Memory.read, if_neg hk, ih, Memory.read, if_neg hk]

/-- What a write lists: the byte written, and bytes listed before. -/
theorem Memory.mem_write {m : Memory} {a : Nat} {b : Byte} {x : Host.Cell} (h : x ∈ m.write a b) :
    x = (a, b) ∨ x ∈ m := by
  induction m with
  | nil => simpa [Memory.write] using h
  | cons y m ih =>
    obtain ⟨k, z⟩ := y
    unfold Memory.write at h
    split at h
    · simpa using h
    · split at h
      · rcases List.mem_cons.1 h with h | h
        · exact .inl h
        · exact .inr (List.mem_cons_of_mem _ h)
      · rcases List.mem_cons.1 h with h | h
        · exact .inr (by simp [h])
        · exact (ih h).imp id (List.mem_cons_of_mem _)

theorem Memory.write_wf {m : Memory} (h : m.wf) (a : Nat) (b : Byte) : (m.write a b).wf := by
  induction m with
  | nil => simp [Memory.write, Memory.wf]
  | cons x m ih =>
    obtain ⟨k, y⟩ := x
    obtain ⟨hk, hm⟩ := List.pairwise_cons.1 h
    unfold Memory.write
    split
    · rename_i hlt
      refine List.pairwise_cons.2 ⟨fun z hz => ?_, h⟩
      rcases List.mem_cons.1 hz with rfl | hz
      · exact hlt
      · exact Nat.lt_trans hlt (hk z hz)
    · split
      · rename_i heq
        exact List.pairwise_cons.2 ⟨fun z hz => heq ▸ hk z hz, hm⟩
      · rename_i hnlt hne
        refine List.pairwise_cons.2 ⟨fun z hz => ?_, ih hm⟩
        rcases Memory.mem_write hz with rfl | hz
        · exact Nat.lt_of_le_of_ne (Nat.le_of_not_lt hnlt) (Ne.symm hne)
        · exact hk z hz

/-- The bytes written are read back, every other byte is as before. -/
theorem Memory.read_writeBytes (m : Memory) (bs : List Byte) (o a : Nat) :
    (m.writeBytes o bs).read a = if o ≤ a ∧ a < o + bs.length then bs[a - o]? else m.read a := by
  induction bs generalizing o with
  | nil => simp [Memory.writeBytes]
  | cons b bs ih =>
    rw [Memory.writeBytes, Memory.read_write, ih]
    by_cases h : a = o
    · subst h; simp
    · rw [if_neg h]
      by_cases h' : o ≤ a ∧ a < o + (b :: bs).length
      · have h₁ : o + 1 ≤ a ∧ a < o + 1 + bs.length := by simp at h'; omega
        have h₂ : a - o = (a - (o + 1)) + 1 := by omega
        rw [if_pos h₁, if_pos h', h₂, List.getElem?_cons_succ]
      · have h₁ : ¬(o + 1 ≤ a ∧ a < o + 1 + bs.length) := by simp at h'; omega
        rw [if_neg h₁, if_neg h']

theorem Memory.writeBytes_wf {m : Memory} (h : m.wf) (bs : List Byte) (o : Nat) : (m.writeBytes o bs).wf := by
  induction bs generalizing o with
  | nil => exact h
  | cons b bs ih => exact Memory.write_wf (ih _) _ _

/-- A write of consecutive bytes lists no offset at or beyond its end that was not listed. -/
theorem Memory.mem_writeBytes {m : Memory} {bs : List Byte} {o : Nat} {x : Host.Cell} (h : x ∈ m.writeBytes o bs) :
    x.1 < o + bs.length ∨ x ∈ m := by
  induction bs generalizing o with
  | nil => exact .inr h
  | cons b bs ih =>
    rcases Memory.mem_write h with rfl | h
    · simp
    · rcases ih h with h | h
      · left; simp; omega
      · exact .inr h

/-- The memory right after reset is in canonical form: nothing is listed. -/
theorem reset_fb_wf (p : Params) : (State.resetWith p).fb.wf := List.Pairwise.nil

end Sys2Proof.Machine
end

