-- ==== Sys2Proof/Laws/State.lean ====
section
/-! SUPPORT. One lemma per field per register write: a write changes its own fields and no other. -/

namespace Sys2Proof.Machine

open Sys2Proof

section
variable (s : State) (c : Command)
@[simp] theorem State.withCmd_params : (s.withCmd c).params = s.params := rfl
@[simp] theorem State.withCmd_phase : (s.withCmd c).phase = s.phase := rfl
@[simp] theorem State.withCmd_trie : (s.withCmd c).trie = s.trie := rfl
@[simp] theorem State.withCmd_nodeCnt : (s.withCmd c).nodeCnt = s.nodeCnt := rfl
@[simp] theorem State.withCmd_nbr : (s.withCmd c).nbr = s.nbr := rfl
@[simp] theorem State.withCmd_nbrCnt : (s.withCmd c).nbrCnt = s.nbrCnt := rfl
@[simp] theorem State.withCmd_ift : (s.withCmd c).ift = s.ift := rfl
@[simp] theorem State.withCmd_fb : (s.withCmd c).fb = s.fb := rfl
@[simp] theorem State.withCmd_flen : (s.withCmd c).flen = s.flen := rfl
@[simp] theorem State.withCmd_cmd : (s.withCmd c).cmd = c.word := rfl
@[simp] theorem State.withCmd_cmdPayload : (s.withCmd c).cmdPayload = c.payload := rfl
@[simp] theorem State.withCmd_rsp : (s.withCmd c).rsp = s.rsp := rfl
@[simp] theorem State.withCmd_rspPayload : (s.withCmd c).rspPayload = s.rspPayload := rfl
@[simp] theorem State.withCmd_stage : (s.withCmd c).stage = s.stage := rfl
@[simp] theorem State.withCmd_cur : (s.withCmd c).cur = s.cur := rfl
@[simp] theorem State.withCmd_depth : (s.withCmd c).depth = s.depth := rfl
@[simp] theorem State.withCmd_best : (s.withCmd c).best = s.best := rfl
@[simp] theorem State.withCmd_acc : (s.withCmd c).acc = s.acc := rfl
@[simp] theorem State.withCmd_host : (s.withCmd c).host = s.host := rfl
end

section
variable (s : State) (e : List HostEvent)
@[simp] theorem State.withHost_params : (s.withHost e).params = s.params := rfl
@[simp] theorem State.withHost_phase : (s.withHost e).phase = s.phase := rfl
@[simp] theorem State.withHost_trie : (s.withHost e).trie = s.trie := rfl
@[simp] theorem State.withHost_nodeCnt : (s.withHost e).nodeCnt = s.nodeCnt := rfl
@[simp] theorem State.withHost_nbr : (s.withHost e).nbr = s.nbr := rfl
@[simp] theorem State.withHost_nbrCnt : (s.withHost e).nbrCnt = s.nbrCnt := rfl
@[simp] theorem State.withHost_ift : (s.withHost e).ift = s.ift := rfl
@[simp] theorem State.withHost_fb : (s.withHost e).fb = s.fb := rfl
@[simp] theorem State.withHost_flen : (s.withHost e).flen = s.flen := rfl
@[simp] theorem State.withHost_cmd : (s.withHost e).cmd = s.cmd := rfl
@[simp] theorem State.withHost_cmdPayload : (s.withHost e).cmdPayload = s.cmdPayload := rfl
@[simp] theorem State.withHost_rsp : (s.withHost e).rsp = s.rsp := rfl
@[simp] theorem State.withHost_rspPayload : (s.withHost e).rspPayload = s.rspPayload := rfl
@[simp] theorem State.withHost_stage : (s.withHost e).stage = s.stage := rfl
@[simp] theorem State.withHost_cur : (s.withHost e).cur = s.cur := rfl
@[simp] theorem State.withHost_depth : (s.withHost e).depth = s.depth := rfl
@[simp] theorem State.withHost_best : (s.withHost e).best = s.best := rfl
@[simp] theorem State.withHost_acc : (s.withHost e).acc = s.acc := rfl
@[simp] theorem State.withHost_host : (s.withHost e).host = e := rfl
end

section
variable (s : State) (p : Phase)
@[simp] theorem State.withPhase_params : (s.withPhase p).params = s.params := rfl
@[simp] theorem State.withPhase_phase : (s.withPhase p).phase = p := rfl
@[simp] theorem State.withPhase_trie : (s.withPhase p).trie = s.trie := rfl
@[simp] theorem State.withPhase_nodeCnt : (s.withPhase p).nodeCnt = s.nodeCnt := rfl
@[simp] theorem State.withPhase_nbr : (s.withPhase p).nbr = s.nbr := rfl
@[simp] theorem State.withPhase_nbrCnt : (s.withPhase p).nbrCnt = s.nbrCnt := rfl
@[simp] theorem State.withPhase_ift : (s.withPhase p).ift = s.ift := rfl
@[simp] theorem State.withPhase_fb : (s.withPhase p).fb = s.fb := rfl
@[simp] theorem State.withPhase_flen : (s.withPhase p).flen = s.flen := rfl
@[simp] theorem State.withPhase_cmd : (s.withPhase p).cmd = s.cmd := rfl
@[simp] theorem State.withPhase_cmdPayload : (s.withPhase p).cmdPayload = s.cmdPayload := rfl
@[simp] theorem State.withPhase_rsp : (s.withPhase p).rsp = s.rsp := rfl
@[simp] theorem State.withPhase_rspPayload : (s.withPhase p).rspPayload = s.rspPayload := rfl
@[simp] theorem State.withPhase_stage : (s.withPhase p).stage = s.stage := rfl
@[simp] theorem State.withPhase_cur : (s.withPhase p).cur = s.cur := rfl
@[simp] theorem State.withPhase_depth : (s.withPhase p).depth = s.depth := rfl
@[simp] theorem State.withPhase_best : (s.withPhase p).best = s.best := rfl
@[simp] theorem State.withPhase_acc : (s.withPhase p).acc = s.acc := rfl
@[simp] theorem State.withPhase_host : (s.withPhase p).host = s.host := rfl
end

section
variable (s : State) (g : Stage)
@[simp] theorem State.withStage_params : (s.withStage g).params = s.params := rfl
@[simp] theorem State.withStage_phase : (s.withStage g).phase = s.phase := rfl
@[simp] theorem State.withStage_trie : (s.withStage g).trie = s.trie := rfl
@[simp] theorem State.withStage_nodeCnt : (s.withStage g).nodeCnt = s.nodeCnt := rfl
@[simp] theorem State.withStage_nbr : (s.withStage g).nbr = s.nbr := rfl
@[simp] theorem State.withStage_nbrCnt : (s.withStage g).nbrCnt = s.nbrCnt := rfl
@[simp] theorem State.withStage_ift : (s.withStage g).ift = s.ift := rfl
@[simp] theorem State.withStage_fb : (s.withStage g).fb = s.fb := rfl
@[simp] theorem State.withStage_flen : (s.withStage g).flen = s.flen := rfl
@[simp] theorem State.withStage_cmd : (s.withStage g).cmd = s.cmd := rfl
@[simp] theorem State.withStage_cmdPayload : (s.withStage g).cmdPayload = s.cmdPayload := rfl
@[simp] theorem State.withStage_rsp : (s.withStage g).rsp = s.rsp := rfl
@[simp] theorem State.withStage_rspPayload : (s.withStage g).rspPayload = s.rspPayload := rfl
@[simp] theorem State.withStage_stage : (s.withStage g).stage = g := rfl
@[simp] theorem State.withStage_cur : (s.withStage g).cur = s.cur := rfl
@[simp] theorem State.withStage_depth : (s.withStage g).depth = s.depth := rfl
@[simp] theorem State.withStage_best : (s.withStage g).best = s.best := rfl
@[simp] theorem State.withStage_acc : (s.withStage g).acc = s.acc := rfl
@[simp] theorem State.withStage_host : (s.withStage g).host = s.host := rfl
end

section
variable (s : State) (r : Response) (p : List Byte)
@[simp] theorem State.respond_params : (s.respond r p).params = s.params := rfl
@[simp] theorem State.respond_phase : (s.respond r p).phase = s.phase := rfl
@[simp] theorem State.respond_trie : (s.respond r p).trie = s.trie := rfl
@[simp] theorem State.respond_nodeCnt : (s.respond r p).nodeCnt = s.nodeCnt := rfl
@[simp] theorem State.respond_nbr : (s.respond r p).nbr = s.nbr := rfl
@[simp] theorem State.respond_nbrCnt : (s.respond r p).nbrCnt = s.nbrCnt := rfl
@[simp] theorem State.respond_ift : (s.respond r p).ift = s.ift := rfl
@[simp] theorem State.respond_fb : (s.respond r p).fb = s.fb := rfl
@[simp] theorem State.respond_flen : (s.respond r p).flen = s.flen := rfl
@[simp] theorem State.respond_cmd : (s.respond r p).cmd = s.cmd := rfl
@[simp] theorem State.respond_cmdPayload : (s.respond r p).cmdPayload = s.cmdPayload := rfl
@[simp] theorem State.respond_rsp : (s.respond r p).rsp = r.word := rfl
@[simp] theorem State.respond_rspPayload : (s.respond r p).rspPayload = p := rfl
@[simp] theorem State.respond_stage : (s.respond r p).stage = s.stage := rfl
@[simp] theorem State.respond_cur : (s.respond r p).cur = s.cur := rfl
@[simp] theorem State.respond_depth : (s.respond r p).depth = s.depth := rfl
@[simp] theorem State.respond_best : (s.respond r p).best = s.best := rfl
@[simp] theorem State.respond_acc : (s.respond r p).acc = s.acc := rfl
@[simp] theorem State.respond_host : (s.respond r p).host = s.host := rfl
end

section
variable (s : State) (a : Sum16)
@[simp] theorem State.withAcc_params : (s.withAcc a).params = s.params := rfl
@[simp] theorem State.withAcc_phase : (s.withAcc a).phase = s.phase := rfl
@[simp] theorem State.withAcc_trie : (s.withAcc a).trie = s.trie := rfl
@[simp] theorem State.withAcc_nodeCnt : (s.withAcc a).nodeCnt = s.nodeCnt := rfl
@[simp] theorem State.withAcc_nbr : (s.withAcc a).nbr = s.nbr := rfl
@[simp] theorem State.withAcc_nbrCnt : (s.withAcc a).nbrCnt = s.nbrCnt := rfl
@[simp] theorem State.withAcc_ift : (s.withAcc a).ift = s.ift := rfl
@[simp] theorem State.withAcc_fb : (s.withAcc a).fb = s.fb := rfl
@[simp] theorem State.withAcc_flen : (s.withAcc a).flen = s.flen := rfl
@[simp] theorem State.withAcc_cmd : (s.withAcc a).cmd = s.cmd := rfl
@[simp] theorem State.withAcc_cmdPayload : (s.withAcc a).cmdPayload = s.cmdPayload := rfl
@[simp] theorem State.withAcc_rsp : (s.withAcc a).rsp = s.rsp := rfl
@[simp] theorem State.withAcc_rspPayload : (s.withAcc a).rspPayload = s.rspPayload := rfl
@[simp] theorem State.withAcc_stage : (s.withAcc a).stage = s.stage := rfl
@[simp] theorem State.withAcc_cur : (s.withAcc a).cur = s.cur := rfl
@[simp] theorem State.withAcc_depth : (s.withAcc a).depth = s.depth := rfl
@[simp] theorem State.withAcc_best : (s.withAcc a).best = s.best := rfl
@[simp] theorem State.withAcc_acc : (s.withAcc a).acc = a := rfl
@[simp] theorem State.withAcc_host : (s.withAcc a).host = s.host := rfl
end

section
variable (s : State) (k : Key) (d : Nat) (b : Option RouteEntry)
@[simp] theorem State.withWalk_params : (s.withWalk k d b).params = s.params := rfl
@[simp] theorem State.withWalk_phase : (s.withWalk k d b).phase = s.phase := rfl
@[simp] theorem State.withWalk_trie : (s.withWalk k d b).trie = s.trie := rfl
@[simp] theorem State.withWalk_nodeCnt : (s.withWalk k d b).nodeCnt = s.nodeCnt := rfl
@[simp] theorem State.withWalk_nbr : (s.withWalk k d b).nbr = s.nbr := rfl
@[simp] theorem State.withWalk_nbrCnt : (s.withWalk k d b).nbrCnt = s.nbrCnt := rfl
@[simp] theorem State.withWalk_ift : (s.withWalk k d b).ift = s.ift := rfl
@[simp] theorem State.withWalk_fb : (s.withWalk k d b).fb = s.fb := rfl
@[simp] theorem State.withWalk_flen : (s.withWalk k d b).flen = s.flen := rfl
@[simp] theorem State.withWalk_cmd : (s.withWalk k d b).cmd = s.cmd := rfl
@[simp] theorem State.withWalk_cmdPayload : (s.withWalk k d b).cmdPayload = s.cmdPayload := rfl
@[simp] theorem State.withWalk_rsp : (s.withWalk k d b).rsp = s.rsp := rfl
@[simp] theorem State.withWalk_rspPayload : (s.withWalk k d b).rspPayload = s.rspPayload := rfl
@[simp] theorem State.withWalk_stage : (s.withWalk k d b).stage = s.stage := rfl
@[simp] theorem State.withWalk_cur : (s.withWalk k d b).cur = k := rfl
@[simp] theorem State.withWalk_depth : (s.withWalk k d b).depth = d := rfl
@[simp] theorem State.withWalk_best : (s.withWalk k d b).best = b := rfl
@[simp] theorem State.withWalk_acc : (s.withWalk k d b).acc = s.acc := rfl
@[simp] theorem State.withWalk_host : (s.withWalk k d b).host = s.host := rfl
end

section
variable (s : State) (t : Trie) (n : BitVec 32)
@[simp] theorem State.withTrie_params : (s.withTrie t n).params = s.params := rfl
@[simp] theorem State.withTrie_phase : (s.withTrie t n).phase = s.phase := rfl
@[simp] theorem State.withTrie_trie : (s.withTrie t n).trie = t := rfl
@[simp] theorem State.withTrie_nodeCnt : (s.withTrie t n).nodeCnt = n := rfl
@[simp] theorem State.withTrie_nbr : (s.withTrie t n).nbr = s.nbr := rfl
@[simp] theorem State.withTrie_nbrCnt : (s.withTrie t n).nbrCnt = s.nbrCnt := rfl
@[simp] theorem State.withTrie_ift : (s.withTrie t n).ift = s.ift := rfl
@[simp] theorem State.withTrie_fb : (s.withTrie t n).fb = s.fb := rfl
@[simp] theorem State.withTrie_flen : (s.withTrie t n).flen = s.flen := rfl
@[simp] theorem State.withTrie_cmd : (s.withTrie t n).cmd = s.cmd := rfl
@[simp] theorem State.withTrie_cmdPayload : (s.withTrie t n).cmdPayload = s.cmdPayload := rfl
@[simp] theorem State.withTrie_rsp : (s.withTrie t n).rsp = s.rsp := rfl
@[simp] theorem State.withTrie_rspPayload : (s.withTrie t n).rspPayload = s.rspPayload := rfl
@[simp] theorem State.withTrie_stage : (s.withTrie t n).stage = s.stage := rfl
@[simp] theorem State.withTrie_cur : (s.withTrie t n).cur = s.cur := rfl
@[simp] theorem State.withTrie_depth : (s.withTrie t n).depth = s.depth := rfl
@[simp] theorem State.withTrie_best : (s.withTrie t n).best = s.best := rfl
@[simp] theorem State.withTrie_acc : (s.withTrie t n).acc = s.acc := rfl
@[simp] theorem State.withTrie_host : (s.withTrie t n).host = s.host := rfl
end

section
variable (s : State) (n : List NeighborEntry) (c : BitVec 32)
@[simp] theorem State.withNbr_params : (s.withNbr n c).params = s.params := rfl
@[simp] theorem State.withNbr_phase : (s.withNbr n c).phase = s.phase := rfl
@[simp] theorem State.withNbr_trie : (s.withNbr n c).trie = s.trie := rfl
@[simp] theorem State.withNbr_nodeCnt : (s.withNbr n c).nodeCnt = s.nodeCnt := rfl
@[simp] theorem State.withNbr_nbr : (s.withNbr n c).nbr = n := rfl
@[simp] theorem State.withNbr_nbrCnt : (s.withNbr n c).nbrCnt = c := rfl
@[simp] theorem State.withNbr_ift : (s.withNbr n c).ift = s.ift := rfl
@[simp] theorem State.withNbr_fb : (s.withNbr n c).fb = s.fb := rfl
@[simp] theorem State.withNbr_flen : (s.withNbr n c).flen = s.flen := rfl
@[simp] theorem State.withNbr_cmd : (s.withNbr n c).cmd = s.cmd := rfl
@[simp] theorem State.withNbr_cmdPayload : (s.withNbr n c).cmdPayload = s.cmdPayload := rfl
@[simp] theorem State.withNbr_rsp : (s.withNbr n c).rsp = s.rsp := rfl
@[simp] theorem State.withNbr_rspPayload : (s.withNbr n c).rspPayload = s.rspPayload := rfl
@[simp] theorem State.withNbr_stage : (s.withNbr n c).stage = s.stage := rfl
@[simp] theorem State.withNbr_cur : (s.withNbr n c).cur = s.cur := rfl
@[simp] theorem State.withNbr_depth : (s.withNbr n c).depth = s.depth := rfl
@[simp] theorem State.withNbr_best : (s.withNbr n c).best = s.best := rfl
@[simp] theorem State.withNbr_acc : (s.withNbr n c).acc = s.acc := rfl
@[simp] theorem State.withNbr_host : (s.withNbr n c).host = s.host := rfl
end

section
variable (s : State) (t : List IfEntry)
@[simp] theorem State.withIft_params : (s.withIft t).params = s.params := rfl
@[simp] theorem State.withIft_phase : (s.withIft t).phase = s.phase := rfl
@[simp] theorem State.withIft_trie : (s.withIft t).trie = s.trie := rfl
@[simp] theorem State.withIft_nodeCnt : (s.withIft t).nodeCnt = s.nodeCnt := rfl
@[simp] theorem State.withIft_nbr : (s.withIft t).nbr = s.nbr := rfl
@[simp] theorem State.withIft_nbrCnt : (s.withIft t).nbrCnt = s.nbrCnt := rfl
@[simp] theorem State.withIft_ift : (s.withIft t).ift = t := rfl
@[simp] theorem State.withIft_fb : (s.withIft t).fb = s.fb := rfl
@[simp] theorem State.withIft_flen : (s.withIft t).flen = s.flen := rfl
@[simp] theorem State.withIft_cmd : (s.withIft t).cmd = s.cmd := rfl
@[simp] theorem State.withIft_cmdPayload : (s.withIft t).cmdPayload = s.cmdPayload := rfl
@[simp] theorem State.withIft_rsp : (s.withIft t).rsp = s.rsp := rfl
@[simp] theorem State.withIft_rspPayload : (s.withIft t).rspPayload = s.rspPayload := rfl
@[simp] theorem State.withIft_stage : (s.withIft t).stage = s.stage := rfl
@[simp] theorem State.withIft_cur : (s.withIft t).cur = s.cur := rfl
@[simp] theorem State.withIft_depth : (s.withIft t).depth = s.depth := rfl
@[simp] theorem State.withIft_best : (s.withIft t).best = s.best := rfl
@[simp] theorem State.withIft_acc : (s.withIft t).acc = s.acc := rfl
@[simp] theorem State.withIft_host : (s.withIft t).host = s.host := rfl
end

section
variable (s : State) (m : Memory)
@[simp] theorem State.withFb_params : (s.withFb m).params = s.params := rfl
@[simp] theorem State.withFb_phase : (s.withFb m).phase = s.phase := rfl
@[simp] theorem State.withFb_trie : (s.withFb m).trie = s.trie := rfl
@[simp] theorem State.withFb_nodeCnt : (s.withFb m).nodeCnt = s.nodeCnt := rfl
@[simp] theorem State.withFb_nbr : (s.withFb m).nbr = s.nbr := rfl
@[simp] theorem State.withFb_nbrCnt : (s.withFb m).nbrCnt = s.nbrCnt := rfl
@[simp] theorem State.withFb_ift : (s.withFb m).ift = s.ift := rfl
@[simp] theorem State.withFb_fb : (s.withFb m).fb = m := rfl
@[simp] theorem State.withFb_flen : (s.withFb m).flen = s.flen := rfl
@[simp] theorem State.withFb_cmd : (s.withFb m).cmd = s.cmd := rfl
@[simp] theorem State.withFb_cmdPayload : (s.withFb m).cmdPayload = s.cmdPayload := rfl
@[simp] theorem State.withFb_rsp : (s.withFb m).rsp = s.rsp := rfl
@[simp] theorem State.withFb_rspPayload : (s.withFb m).rspPayload = s.rspPayload := rfl
@[simp] theorem State.withFb_stage : (s.withFb m).stage = s.stage := rfl
@[simp] theorem State.withFb_cur : (s.withFb m).cur = s.cur := rfl
@[simp] theorem State.withFb_depth : (s.withFb m).depth = s.depth := rfl
@[simp] theorem State.withFb_best : (s.withFb m).best = s.best := rfl
@[simp] theorem State.withFb_acc : (s.withFb m).acc = s.acc := rfl
@[simp] theorem State.withFb_host : (s.withFb m).host = s.host := rfl
end

section
variable (s : State) (n : BitVec 16)
@[simp] theorem State.withFlen_params : (s.withFlen n).params = s.params := rfl
@[simp] theorem State.withFlen_phase : (s.withFlen n).phase = s.phase := rfl
@[simp] theorem State.withFlen_trie : (s.withFlen n).trie = s.trie := rfl
@[simp] theorem State.withFlen_nodeCnt : (s.withFlen n).nodeCnt = s.nodeCnt := rfl
@[simp] theorem State.withFlen_nbr : (s.withFlen n).nbr = s.nbr := rfl
@[simp] theorem State.withFlen_nbrCnt : (s.withFlen n).nbrCnt = s.nbrCnt := rfl
@[simp] theorem State.withFlen_ift : (s.withFlen n).ift = s.ift := rfl
@[simp] theorem State.withFlen_fb : (s.withFlen n).fb = s.fb := rfl
@[simp] theorem State.withFlen_flen : (s.withFlen n).flen = n := rfl
@[simp] theorem State.withFlen_cmd : (s.withFlen n).cmd = s.cmd := rfl
@[simp] theorem State.withFlen_cmdPayload : (s.withFlen n).cmdPayload = s.cmdPayload := rfl
@[simp] theorem State.withFlen_rsp : (s.withFlen n).rsp = s.rsp := rfl
@[simp] theorem State.withFlen_rspPayload : (s.withFlen n).rspPayload = s.rspPayload := rfl
@[simp] theorem State.withFlen_stage : (s.withFlen n).stage = s.stage := rfl
@[simp] theorem State.withFlen_cur : (s.withFlen n).cur = s.cur := rfl
@[simp] theorem State.withFlen_depth : (s.withFlen n).depth = s.depth := rfl
@[simp] theorem State.withFlen_best : (s.withFlen n).best = s.best := rfl
@[simp] theorem State.withFlen_acc : (s.withFlen n).acc = s.acc := rfl
@[simp] theorem State.withFlen_host : (s.withFlen n).host = s.host := rfl
end

end Sys2Proof.Machine
end

