-- ==== Sys2Proof/Laws/Access.lean ====
section
/-! SUPPORT. What the accesses to the frame do on a state whose frame is the byte sequence `f`: an access inside the
frame never fails, a read gives the bytes of `f`, a write patches them and leaves every byte beyond the frame. -/

namespace Sys2Proof.Machine

open Sys2Proof

/-! ### Byte sequences -/

theorem length_patch {f bs : List Byte} {o : Nat} (h : o + bs.length ≤ f.length) : (patch f o bs).length = f.length := by
  simp only [patch, List.length_append, List.length_take, List.length_drop]
  omega

theorem getElem?_patch {f bs : List Byte} {o : Nat} (h : o + bs.length ≤ f.length) (a : Nat) :
    (patch f o bs)[a]? = if o ≤ a ∧ a < o + bs.length then bs[a - o]? else f[a]? := by
  have ho : (f.take o).length = o := by simp; omega
  unfold patch
  by_cases h₁ : a < o
  · rw [List.append_assoc, List.getElem?_append_left (by omega), List.getElem?_take_of_lt h₁, if_neg (by omega)]
  · by_cases h₂ : a < o + bs.length
    · rw [List.getElem?_append_left (by simp; omega), List.getElem?_append_right (by omega), ho, if_pos (by omega)]
    · rw [List.getElem?_append_right (by simp; omega), List.getElem?_drop, if_neg (by omega)]
      congr 1
      simp
      omega

@[simp] theorem length_beBytes (n v : Nat) : (beBytes n v).length = n := by simp [beBytes]

theorem length_field_bytes {f : List Byte} {o n : Nat} (h : o + n ≤ f.length) : ((f.drop o).take n).length = n := by
  simp; omega

theorem getElem?_field_bytes {f : List Byte} {o n i : Nat} (h : i < n) : ((f.drop o).take n)[i]? = f[o + i]? := by
  rw [List.getElem?_take_of_lt h, List.getElem?_drop]

theorem beValue_lt (bs : List Byte) : beValue bs < 2 ^ (8 * bs.length) := by
  induction bs with
  | nil => simp [beValue]
  | cons b bs ih =>
    have hb := b.isLt
    have : b.toNat * 2 ^ (8 * bs.length) ≤ 255 * 2 ^ (8 * bs.length) := Nat.mul_le_mul_right _ (by omega)
    have e : 2 ^ (8 * (bs.length + 1)) = 256 * 2 ^ (8 * bs.length) := by rw [Nat.mul_add, Nat.pow_add]; omega
    simp only [beValue, List.length_cons, e]
    omega

theorem field_lt {f : List Byte} {o n : Nat} : field f o n < 2 ^ (8 * n) := by
  refine Nat.lt_of_lt_of_le (beValue_lt _) (Nat.pow_le_pow_right (by omega) ?_)
  simp

theorem beBytes_succ (n v : Nat) : beBytes (n + 1) v = BitVec.ofNat 8 (v / 2 ^ (8 * n)) :: beBytes n v := by
  simp only [beBytes, List.range_succ_eq_map, List.map_cons, List.map_map, Nat.shiftRight_eq_div_pow]
  congr 1
  refine List.map_congr_left fun i _ => ?_
  simp only [Function.comp_apply, Nat.succ_eq_add_one]
  congr 3
  omega

theorem beBytes_mod (n v : Nat) : beBytes n (v % 2 ^ (8 * n)) = beBytes n v := by
  refine List.map_congr_left fun i hi => ?_
  have hi := List.mem_range.1 hi
  refine BitVec.eq_of_getLsbD_eq fun j hj => ?_
  simp only [BitVec.getLsbD_ofNat, Nat.testBit_shiftRight, Nat.testBit_mod_two_pow, hj, decide_true, Bool.true_and]
  rw [decide_eq_true (by omega), Bool.true_and]

/-- The number written is the number read back (rule R53). -/
theorem beValue_beBytes (n v : Nat) : beValue (beBytes n v) = v % 2 ^ (8 * n) := by
  induction n generalizing v with
  | zero => simp [beBytes, beValue, Nat.mod_one]
  | succ n ih =>
    rw [beBytes_succ, beValue, ih, length_beBytes, BitVec.toNat_ofNat]
    have e : 2 ^ (8 * (n + 1)) = 2 ^ (8 * n) * 2 ^ 8 := by rw [Nat.mul_add, Nat.pow_add]
    rw [e, Nat.mod_mul]
    ring

/-! ### Reads -/

theorem fbByte_of_frame {s : State} {f : List Byte} (h : s.FrameIs f) {o : Nat} (ho : o < f.length) :
    fbByte s o = .ok f[o] := by
  unfold fbByte
  rw [if_pos (h.flen ▸ ho), h.bytes o ho, List.getElem?_eq_getElem ho]

theorem fbRange_of_frame {s : State} {f : List Byte} (h : s.FrameIs f) {o n : Nat} (ho : o + n ≤ f.length) :
    fbRange s o n = .ok ((f.drop o).take n) := by
  induction n generalizing o with
  | zero => simp [fbRange]
  | succ n ih =>
    rw [fbRange, fbByte_of_frame h (by omega), ih (by omega), List.drop_eq_getElem_cons (by omega : o < f.length),
      List.take_succ_cons]
    rfl

/-- The whole frame, as it is emitted. -/
theorem fbRange_whole {s : State} {f : List Byte} (h : s.FrameIs f) : fbRange s 0 s.flen.toNat = .ok f := by
  rw [h.flen, fbRange_of_frame h (by omega)]
  simp

theorem memRead_of_frame {s : State} {f : List Byte} (h : s.FrameIs f) {o n : Nat} (ho : o + n ≤ f.length) :
    memRead s o n = .ok (BitVec.ofNat (8 * n) (field f o n)) := by
  rw [memRead, fbRange_of_frame h ho]
  rfl

/-! ### Writes -/

/-- A write inside the frame succeeds, patches the frame and touches nothing beyond it. -/
theorem memWrite_of_frame {s : State} {f : List Byte} (h : s.FrameIs f) {o n : Nat} (ho : o + n ≤ f.length)
    (v : BitVec (8 * n)) :
    ∃ m, memWrite s o n v = .ok (s.withFb m) ∧ (s.withFb m).FrameIs (patch f o (beBytes n v.toNat)) ∧
      (∀ a, f.length ≤ a → m.read a = s.fb.read a) := by
  refine ⟨_, if_pos (h.flen ▸ ho), ⟨?_, fun a ha => ?_⟩, fun a ha => ?_⟩
  · rw [length_patch (by simpa using ho)]; exact h.flen
  · rw [length_patch (by simpa using ho)] at ha
    rw [getElem?_patch (by simpa using ho), State.withFb_fb, Memory.read_writeBytes, h.bytes a ha]
  · rw [Memory.read_writeBytes, length_beBytes, if_neg (by omega)]

/-- What a write that succeeds did (rule R53). -/
theorem memWrite_eq_ok {s t : State} {o n : Nat} {v : BitVec (8 * n)} (h : memWrite s o n v = .ok t) :
    o + n ≤ s.flen.toNat ∧ t = s.withFb (s.fb.writeBytes o (beBytes n v.toNat)) := by
  unfold memWrite at h
  split at h
  · exact ⟨‹_›, by injection h with h; exact h.symm⟩
  · exact absurd h (by simp)

/-- After the payload load the frame is the payload, and bytes beyond it are as before (rule R67). -/
theorem loadPayload_holds {s : State} {p : List Byte} (hp : p.length < 2 ^ 16) : s.HoldsFrame (loadPayload p s) p := by
  refine ⟨⟨?_, fun o ho => ?_⟩, fun o ho => ?_⟩
  · simpa [loadPayload] using hp
  · simp only [loadPayload, State.withFlen_fb, State.withFb_fb, Memory.read_writeBytes]
    rw [if_pos (by omega), Nat.sub_zero]
  · simp only [loadPayload, State.withFlen_fb, State.withFb_fb, Memory.read_writeBytes]
    rw [if_neg (by omega)]

/-- The frame depends on `FB` and `FLEN` alone. -/
theorem State.FrameIs.congr {s t : State} {f : List Byte} (h : s.FrameIs f) (hb : t.fb = s.fb) (hl : t.flen = s.flen) :
    t.FrameIs f := ⟨hl ▸ h.flen, fun o ho => hb ▸ h.bytes o ho⟩

end Sys2Proof.Machine
end

