-- ==== Sys2Proof/Laws/Checksum.lean ====
section
/-! SUPPORT. The one's-complement arithmetic in terms of plain numbers: every sum of the engine is the end-around
reduction of the integer sum of its words. -/

namespace Sys2Proof.Machine

open Sys2Proof

/-- The number in `1 .. 0xFFFF` congruent to `n` modulo 0xFFFF, and 0 for 0. -/
def endAround (n : Nat) : Nat := if n = 0 then 0 else (n - 1) % 0xFFFF + 1

theorem endAround_le (n : Nat) : endAround n ≤ 0xFFFF := by unfold endAround; split <;> omega

theorem endAround_eq_zero {n : Nat} : endAround n = 0 ↔ n = 0 := by unfold endAround; split <;> simp_all

theorem endAround_mod (n : Nat) : endAround n % 0xFFFF = n % 0xFFFF := by unfold endAround; split <;> omega

theorem endAround_of_le {n : Nat} (h : n ≤ 0xFFFF) : endAround n = n := by unfold endAround; split <;> omega

theorem endAround_add (m n : Nat) : endAround (endAround m + n) = endAround (m + n) := by
  unfold endAround
  split <;> split <;> split <;> omega

/-- The sum with end-around carry (rule R131). -/
theorem toNat_ocAdd16 (a b : Sum16) :
    (ocAdd16 a b).toNat = (a.toNat + b.toNat) % 0x10000 + (a.toNat + b.toNat) / 0x10000 := by
  have ha := a.isLt
  have hb := b.isLt
  have ht : (a.setWidth 17 + b.setWidth 17).toNat = a.toNat + b.toNat := by
    simp only [BitVec.toNat_add, BitVec.toNat_setWidth]
    omega
  have hc : (BitVec.ofBool ((a.setWidth 17 + b.setWidth 17).getLsbD 16)).toNat = (a.toNat + b.toNat) / 0x10000 := by
    have hs : (a.toNat + b.toNat) / 65536 = 0 ∨ (a.toNat + b.toNat) / 65536 = 1 := by omega
    rw [BitVec.getLsbD, ht, Nat.testBit_eq_decide_div_mod_eq]
    rcases hs with hs | hs <;> simp [hs]
  unfold ocAdd16
  rw [BitVec.toNat_add, BitVec.toNat_setWidth, BitVec.toNat_setWidth, ht, hc]
  omega

theorem toNat_ocAdd16_endAround (a b : Sum16) : (ocAdd16 a b).toNat = endAround (a.toNat + b.toNat) := by
  have ha := a.isLt
  have hb := b.isLt
  rw [toNat_ocAdd16]
  unfold endAround
  split <;> omega

theorem toNat_append_bytes (hi lo : Byte) : (hi ++ lo : BitVec 16).toNat = hi.toNat * 256 + lo.toNat := by
  rw [BitVec.toNat_append, ← Nat.shiftLeft_add_eq_or_of_lt lo.isLt, Nat.shiftLeft_eq]

/-- The accumulator after a byte sequence (rules R132, R138). -/
theorem toNat_sumWords (acc : Sum16) (bs : List Byte) :
    (sumWords acc bs).toNat = endAround (acc.toNat + wideSum bs) := by
  induction acc, bs using sumWords.induct with
  | case1 acc => simp [sumWords, wideSum, endAround_of_le (Nat.le_of_lt_succ acc.isLt)]
  | case2 acc hi => simp [sumWords, wideSum, toNat_ocAdd16_endAround, toNat_append_bytes]
  | case3 acc hi lo rest ih =>
    rw [sumWords, ih, toNat_ocAdd16_endAround, endAround_add, wideSum, toNat_append_bytes]
    congr 1
    omega

theorem toNat_cksum (bs : List Byte) : (cksum bs).toNat = 0xFFFF - endAround (wideSum bs) := by
  rw [cksum, BitVec.toNat_not, toNat_sumWords]
  simp

theorem wideSum_append {xs : List Byte} (h : xs.length % 2 = 0) (ys : List Byte) :
    wideSum (xs ++ ys) = wideSum xs + wideSum ys := by
  induction xs using wideSum.induct with
  | case1 => simp [wideSum]
  | case2 hi => simp at h
  | case3 hi lo rest ih =>
    have := ih (by simp at h; omega)
    simp only [List.cons_append, wideSum, this]
    omega

theorem wideSum_eq_zero {bs : List Byte} : wideSum bs = 0 ↔ ∀ b ∈ bs, b = 0 := by
  have hz : ∀ b : Byte, b = 0 ↔ b.toNat = 0 := fun b => by rw [← BitVec.toNat_inj]; rfl
  induction bs using wideSum.induct with
  | case1 => simp [wideSum]
  | case2 hi =>
    rw [wideSum, List.forall_mem_singleton, hz]
    omega
  | case3 hi lo rest ih =>
    have ih : wideSum rest = 0 ↔ ∀ b ∈ rest, b = 0 := ih
    rw [wideSum, List.forall_mem_cons, List.forall_mem_cons, ← ih, hz, hz]
    omega

/-- The two bytes of a checksum field, read as zero (rule R134). -/
theorem zeroField_eq_patch {bs : List Byte} {o : Nat} (h : o + 2 ≤ bs.length) : zeroField bs o = patch bs o [0, 0] := by
  refine List.ext_getElem? fun i => ?_
  rw [getElem?_patch (by simpa using h)]
  simp only [zeroField, List.getElem?_set, List.length_set, List.length_cons, List.length_nil]
  by_cases h₁ : i = o + 1
  · subst h₁; simp; omega
  · by_cases h₂ : i = o
    · subst h₂; simp; omega
    · rw [if_neg (by omega), if_neg (by omega), if_neg (by omega)]

/-- What the two bytes of a field at an even offset add to the sum. -/
theorem wideSum_patch {bs : List Byte} {o : Nat} (h : o + 2 ≤ bs.length) (he : o % 2 = 0) (hi lo : Byte) :
    wideSum (patch bs o [hi, lo]) = wideSum (zeroField bs o) + (hi.toNat * 256 + lo.toNat) := by
  have ho : (bs.take o).length % 2 = 0 := by simp; omega
  rw [zeroField_eq_patch h, patch, patch, List.append_assoc, List.append_assoc, wideSum_append ho, wideSum_append ho]
  simp [wideSum]
  omega

/-- The two bytes of a 16-bit value stand for it. -/
theorem beBytes_two (v : BitVec 16) : ∃ hi lo : Byte, beBytes 2 v.toNat = [hi, lo] ∧ hi.toNat * 256 + lo.toNat = v.toNat := by
  have hv := v.isLt
  refine ⟨_, _, rfl, ?_⟩
  simp [Nat.shiftRight_eq_div_pow]
  omega

/-! ### Deferred folding (rule R138) -/

theorem foldCarries_eq {fuel t : Nat} (h : t ≤ fuel + 0xFFFF) : foldCarries fuel t = endAround t := by
  induction fuel generalizing t with
  | zero => rw [foldCarries, endAround_of_le (by omega)]
  | succ fuel ih =>
    unfold foldCarries
    split
    · rw [ih (by omega)]
      unfold endAround
      split <;> split <;> omega
    · rw [endAround_of_le (by omega)]

theorem foldWide_eq (t : Nat) : foldWide t = endAround t := foldCarries_eq (by omega)

/-! ### The rules of the two commands -/

/-- Everything CS.COMPUTE does once it runs (rules R67, R133). -/
theorem csCompute_eq {p : List Byte} (s : State) (h : p.length < 2 ^ 16) :
    csCompute p s = .ok ((withSum p (loadPayload p s)).respond
      { Response.okay with a := (cksum p).setWidth 32 } []) := by
  simp only [csCompute, fbRange_whole (loadPayload_holds (s := s) h).1]
  rfl

/-- Everything CS.VALIDATE does once it runs (rules R67, R135). -/
theorem csValidate_eq {p : List Byte} (s : State) (coff claimed : BitVec 16) (h : p.length < 2 ^ 16) :
    csValidate coff claimed p s = .ok ((withSum (zeroField p coff.toNat) (loadPayload p s)).respond
      { Response.okay with
        flg := hitFlag (validate p coff.toNat claimed), a := (cksum (zeroField p coff.toNat)).setWidth 32 } []) := by
  simp only [csValidate, fbRange_whole (loadPayload_holds (s := s) h).1]
  rfl

end Sys2Proof.Machine
end

