-- ==== Sys2Proof/Laws/Encoding.lean ====
section
/-! SUPPORT. The fields of a word put together from fields, and what the opcode map says of each opcode. -/

namespace Sys2Proof

/-! ### Fields of a word put together from fields (rule R21) -/

section
variable (op ifid : BitVec 8) (len : BitVec 16) (a b c : BitVec 32)

@[simp] theorem opField_portWord : opField (portWord op ifid len a b c) = op := by
  simp only [opField, portWord]
  refine BitVec.eq_of_getLsbD_eq fun i hi => ?_
  simp
  grind

@[simp] theorem ifidField_portWord : ifidField (portWord op ifid len a b c) = ifid := by
  simp only [ifidField, portWord]
  refine BitVec.eq_of_getLsbD_eq fun i hi => ?_
  simp
  grind

@[simp] theorem lenField_portWord : lenField (portWord op ifid len a b c) = len := by
  simp only [lenField, portWord]
  refine BitVec.eq_of_getLsbD_eq fun i hi => ?_
  simp
  grind

@[simp] theorem aField_portWord : aField (portWord op ifid len a b c) = a := by
  simp only [aField, portWord]
  refine BitVec.eq_of_getLsbD_eq fun i hi => ?_
  simp
  grind

@[simp] theorem bField_portWord : bField (portWord op ifid len a b c) = b := by
  simp only [bField, portWord]
  refine BitVec.eq_of_getLsbD_eq fun i hi => ?_
  simp
  grind

@[simp] theorem cField_portWord : cField (portWord op ifid len a b c) = c := by
  simp only [cField, portWord]
  refine BitVec.eq_of_getLsbD_eq fun i hi => ?_
  simp
  grind

/-- A word is put together from its own fields. -/
theorem portWord_fields (w : PortWord) :
    portWord (opField w) (ifidField w) (lenField w) (aField w) (bField w) (cField w) = w := by
  simp only [opField, ifidField, lenField, aField, bField, cField, portWord]
  refine BitVec.eq_of_getLsbD_eq fun i hi => ?_
  simp
  grind

/-- A mask of a word is the word of the masks of its fields. -/
theorem portWord_and (op' ifid' : BitVec 8) (len' : BitVec 16) (a' b' c' : BitVec 32) :
    portWord op ifid len a b c &&& portWord op' ifid' len' a' b' c' =
      portWord (op &&& op') (ifid &&& ifid') (len &&& len') (a &&& a') (b &&& b') (c &&& c') := by
  simp only [portWord]
  refine BitVec.eq_of_getLsbD_eq fun i hi => ?_
  simp
  grind

/-- A word is zero iff every field is. -/
theorem portWord_eq_zero :
    portWord op ifid len a b c = 0 ↔ op = 0 ∧ ifid = 0 ∧ len = 0 ∧ a = 0 ∧ b = 0 ∧ c = 0 := by
  constructor
  · intro h
    have e : portWord 0 0 0 0 0 0 = 0 := by decide
    rw [← e] at h
    refine ⟨?_, ?_, ?_, ?_, ?_, ?_⟩
    · simpa using congrArg opField h
    · simpa using congrArg ifidField h
    · simpa using congrArg lenField h
    · simpa using congrArg aField h
    · simpa using congrArg bField h
    · simpa using congrArg cField h
  · rintro ⟨rfl, rfl, rfl, rfl, rfl, rfl⟩
    decide
end

/-! ### Operand assembly (rule R83) -/

@[simp] theorem lowHalf_inLowHalf (x : BitVec 16) : lowHalf (inLowHalf x) = x := by
  refine BitVec.eq_of_getLsbD_eq fun i hi => ?_
  simp [lowHalf, inLowHalf, hi]
  omega

/-- The bits of a link address put together from its fields. -/
theorem getLsbD_macOfFields (b c : BitVec 32) (i : Nat) :
    (macOfFields b c).getLsbD i = if i < 32 then c.getLsbD i else (lowHalf b).getLsbD (i - 32) :=
  BitVec.getLsbD_append

@[simp] theorem macOfFields_halves (mac : LinkAddr) : macOfFields (macHigh mac) (macLow mac) = mac := by
  refine BitVec.eq_of_getLsbD_eq fun i hi => ?_
  simp [macOfFields, macHigh, macLow]
  grind

/-- A field whose upper half is zero is its lower half. -/
theorem inLowHalf_lowHalf {x : BitVec 32} (h : x &&& 0xFFFF0000 = 0) : inLowHalf (lowHalf x) = x := by
  revert h
  simp only [inLowHalf, lowHalf]
  intro h
  refine BitVec.eq_of_getLsbD_eq fun i hi => ?_
  have hb := congrArg (fun y => BitVec.getLsbD y i) h
  simp only [BitVec.getLsbD_and] at hb
  by_cases h16 : i < 16
  · simp [h16, hi]
  · have hm : BitVec.getLsbD (0xFFFF0000 : BitVec 32) i = true := by
      have : ∀ j : Fin 32, ¬(j.val < 16) → BitVec.getLsbD (0xFFFF0000 : BitVec 32) j.val = true := by decide
      exact this ⟨i, hi⟩ h16
    rw [hm] at hb
    simp at hb
    simp [h16, hb]

/-- The two halves of a link address give back the fields they came from, where the unused half is zero. -/
theorem macHigh_macOfFields {b c : BitVec 32} (h : b &&& 0xFFFF0000 = 0) : macHigh (macOfFields b c) = b := by
  have e : (macOfFields b c).extractLsb' 32 16 = lowHalf b := by
    refine BitVec.eq_of_getLsbD_eq fun i hi => ?_
    simp [getLsbD_macOfFields, hi]
  rw [macHigh, e, inLowHalf_lowHalf h]

theorem macLow_macOfFields (b c : BitVec 32) : macLow (macOfFields b c) = c := by
  refine BitVec.eq_of_getLsbD_eq fun i hi => ?_
  simp [macLow, getLsbD_macOfFields, hi]

/-- The upper half of a 16-bit operand's field is zero. -/
theorem inLowHalf_and_high (x : BitVec 16) : inLowHalf x &&& 0xFFFF0000 = 0 := by
  refine BitVec.eq_of_getLsbD_eq fun i hi => ?_
  have hm : ∀ j : Fin 32, BitVec.getLsbD (0xFFFF0000 : BitVec 32) j.val = decide (16 ≤ j.val) := by decide
  rw [BitVec.getLsbD_and, hm ⟨i, hi⟩]
  by_cases h : 16 ≤ i
  · simp [inLowHalf, BitVec.getLsbD_of_ge x i h]
  · simp [h]

/-- A mask of all ones leaves a field as it is. -/
theorem and_ones (a8 : BitVec 8) (a16 : BitVec 16) (a32 : BitVec 32) :
    a8 &&& 0xFF = a8 ∧ a16 &&& 0xFFFF = a16 ∧ a32 &&& 0xFFFFFFFF = a32 :=
  ⟨BitVec.and_allOnes, BitVec.and_allOnes, BitVec.and_allOnes⟩

/-! ### The opcode map (rules R84, R86) -/

@[simp] theorem Opcode.ofCode_code (op : Opcode) : Opcode.ofCode op.code = some op := by cases op <;> decide

/-- A value of `OP` selects an opcode iff it is that opcode's code. -/
theorem Opcode.ofCode_eq_some {x : BitVec 8} {op : Opcode} : Opcode.ofCode x = some op ↔ x = op.code := by
  constructor
  · intro h
    exact (beq_iff_eq.1 (List.find?_some (p := fun o : Opcode => o.code == x) h)).symm
  · rintro rfl
    exact Opcode.ofCode_code op

theorem Opcode.mem_all (op : Opcode) : op ∈ Opcode.all := by cases op <;> decide

/-- The illegal values of `OP` are those that are no opcode's code. -/
theorem Opcode.ofCode_eq_none {x : BitVec 8} : Opcode.ofCode x = none ↔ ∀ op : Opcode, x ≠ op.code := by
  simp only [Opcode.ofCode, List.find?_eq_none, beq_iff_eq]
  exact ⟨fun h op e => h op op.mem_all e.symm, fun h op _ e => h op e.symm⟩

/-! ### The reserved bits field by field (rules R81, R84, R85) -/

theorem mbz_ifSet : Opcode.mbz .ifSet = portWord 0 0 0xFFFF 0 0xFFFF0000 0 := by decide
theorem mbz_rtInsert : Opcode.mbz .rtInsert = portWord 0 0 0xFFFF 0 0 0 := by decide
theorem mbz_nbInsert : Opcode.mbz .nbInsert = portWord 0 0xFF 0xFFFF 0 0xFFFF0000 0 := by decide
theorem mbz_cfgSeal : Opcode.mbz .cfgSeal = portWord 0 0xFF 0xFFFF 0xFFFFFFFF 0xFFFFFFFF 0xFFFFFFFF := by decide
theorem mbz_stRead : Opcode.mbz .stRead = portWord 0 0xFF 0xFFFF 0xFFFFFFFF 0xFFFFFFFF 0xFFFFFFFF := by decide
theorem mbz_rtLookup : Opcode.mbz .rtLookup = portWord 0 0xFF 0xFFFF 0 0xFFFFFFFF 0xFFFFFFFF := by decide
theorem mbz_nbResolve : Opcode.mbz .nbResolve = portWord 0 0xFF 0xFFFF 0 0xFFFFFFFF 0xFFFFFFFF := by decide
theorem mbz_csCompute : Opcode.mbz .csCompute = portWord 0 0xFF 0 0xFFFFFFFF 0xFFFFFFFF 0xFFFFFFFF := by decide
theorem mbz_csValidate : Opcode.mbz .csValidate = portWord 0 0xFF 0 0xFFFF0000 0xFFFF0000 0xFFFFFFFF := by decide
theorem mbz_pktProcess : Opcode.mbz .pktProcess = portWord 0 0 0 0xFFFFFFFF 0xFFFFFFFF 0xFFFFFFFF := by decide

/-! ### The decoder, outcome by outcome -/

theorem decode_lengthMismatch {c : Command} (h : c.payload.length ≠ (lenField c.word).toNat) :
    decode c = .error .lengthMismatch := if_neg h

theorem decode_illegalOpcode {c : Command} (hl : c.payload.length = (lenField c.word).toNat)
    (h : ∀ op : Opcode, opField c.word ≠ op.code) : decode c = .error (.illegalOpcode (opField c.word)) := by
  rw [decode, if_pos hl, Opcode.ofCode_eq_none.2 h]

theorem decode_reservedBits {c : Command} {op : Opcode} (hl : c.payload.length = (lenField c.word).toNat)
    (ho : opField c.word = op.code) (h : c.word &&& op.mbz ≠ 0) : decode c = .error (.reservedBits op) := by
  rw [decode, if_pos hl, Opcode.ofCode_eq_some.2 ho]
  exact if_neg h

/-- A pair decodes to an instruction iff its length agrees, its opcode is known and its reserved bits are zero. -/
theorem decode_eq_ok {c : Command} {i : Instr} :
    decode c = .ok i ↔ c.payload.length = (lenField c.word).toNat ∧
      ∃ op : Opcode, opField c.word = op.code ∧ c.word &&& op.mbz = 0 ∧ i = assemble op c := by
  constructor
  · intro h
    unfold decode at h
    split at h
    · rename_i hl
      refine ⟨hl, ?_⟩
      split at h
      · cases h
      · rename_i op ho
        split at h
        · rename_i hm
          exact ⟨op, Opcode.ofCode_eq_some.1 ho, hm, by injection h with h; exact h.symm⟩
        · cases h
    · cases h
  · rintro ⟨hl, op, ho, hm, rfl⟩
    rw [decode, if_pos hl, Opcode.ofCode_eq_some.2 ho]
    exact if_pos hm

/-- What an instruction assembles to has the opcode it was assembled by. -/
@[simp] theorem opcode_assemble (op : Opcode) (c : Command) : (assemble op c).opcode = op := by cases op <;> rfl

end Sys2Proof
end

