-- ==== Sys2Proof/Laws/Ops.lean ====
section
/-! SUPPORT. How a command ends: what the shared endings write, and the three ways through the checks of rule R90. -/

namespace Sys2Proof.Machine

open Sys2Proof

/-! ### The response word (rule R22) -/

/-- A response word in the terms of the command word's layout: the two share every field position but the first. -/
theorem Response.word_eq (r : Response) : r.word = portWord (r.st ++ r.flg) r.ifid r.len r.a r.b r.c := rfl

theorem Response.okay_word : Response.okay.word = 0 := by decide

/-- The fields are read back from the word. -/
theorem Response.ofWord_word (r : Response) : Response.ofWord r.word = r := by
  obtain ⟨st, flg, ifid, len, a, b, c⟩ := r
  simp only [Response.ofWord, Response.word, Response.mk.injEq]
  refine ⟨?_, ?_, ?_, ?_, ?_, ?_, ?_⟩ <;>
  · refine BitVec.eq_of_getLsbD_eq fun i hi => ?_
    simp
    grind

/-- A 16-bit value in a 32-bit field of the response (rule R82). -/
theorem setWidth_eq_append (x : Sum16) : x.setWidth 32 = 0#16 ++ x := by
  refine BitVec.eq_of_getLsbD_eq fun i hi => ?_
  simp
  grind

/-! ### Endings (rules R91, R222, R223) -/

/-- A response of which only status and `A` may be other than zero is what an ending answers. -/
theorem answered_of_respond (s : State) (r : Response) {st : BitVec 4} {a : BitVec 32}
    (h : r = { st := st, flg := 0, ifid := 0, len := 0, a := a, b := 0, c := 0 }) :
    (s.respond r []).Answered st a := by
  subst h
  exact ⟨rfl, rfl⟩

theorem refuse_answered (code : Status) (s : State) : (refuse code s).Answered code.code 0 :=
  answered_of_respond s _ rfl

theorem succeed_answered (s : State) : (succeed s).Answered 0 0 := answered_of_respond s _ rfl

theorem refuse_onlyResponds (code : Status) (s : State) : s.OnlyResponds (refuse code s) := rfl

/-- A load failure: the cause, FAILED, and nothing else (rule R223). -/
theorem loadFail_loadFailed (cause : LoadCause) (s : State) :
    s.LoadFailed (loadFail cause s) (cause.code.setWidth 32) :=
  ⟨⟨rfl, rfl⟩, rfl, rfl⟩

/-! ### The checks of rule R90, steps 2 and 3 -/

section
variable {op : Opcode} {ok : Bool} {s : State} {rule : State → Host.Outcome State Fault Refusal}

theorem checked_of_phase (h : permitted op s.phase = false) : checked op ok s rule = .next (refuse .errPhase s) := by
  simp [checked, h]

theorem checked_of_operand (h : permitted op s.phase = true) (ho : ok = false) :
    checked op ok s rule = .next (refuse .errOperand s) := by
  simp [checked, h, ho]

theorem checked_of_legal (h : permitted op s.phase = true) (ho : ok = true) : checked op ok s rule = rule s := by
  simp [checked, h, ho]

/-- A command that has a next state was refused for its phase, refused for its operands, or ran its rule. -/
theorem checked_eq_next {t : State} (h : checked op ok s rule = .next t) :
    (permitted op s.phase = false ∧ t = refuse .errPhase s) ∨
    (permitted op s.phase = true ∧ ok = false ∧ t = refuse .errOperand s) ∨
    (permitted op s.phase = true ∧ ok = true ∧ rule s = .next t) := by
  unfold checked at h
  split at h
  · rename_i hp
    split at h
    · exact .inr (.inr ⟨hp, ‹_›, h⟩)
    · rename_i ho
      exact .inr (.inl ⟨hp, by simpa using ho, by injection h with h; exact h.symm⟩)
  · rename_i hp
    exact .inl ⟨by simpa using hp, by injection h with h; exact h.symm⟩
end

/-- A rule of accesses ends in the state it computes. -/
theorem ofAccess_eq_next {r : Except Fault State} {t : State} : ofAccess r = .next t ↔ r = .ok t := by
  cases r <;> simp [ofAccess]

/-! ### Masks and keys (rules R8, R11, R111) -/

@[simp] theorem length_key (v : Addr) (n : Nat) : (key v n).length = n := by simp [key]

theorem clo32_ones {n : Nat} (h : n ≤ 32) : clo32 (ones n) = n := by
  have : ∀ m : Fin 33, clo32 (ones m.val) = m.val := by decide
  exact this ⟨n, by omega⟩

theorem maskLegal_ones {n : Nat} (h : n ≤ 32) : maskLegal (ones n) = true := by
  simp [maskLegal, clo32_ones h]

theorem clo32_le (m : Addr) : clo32 m ≤ 32 := by
  refine Nat.le_trans (List.takeWhile_prefix id).length_le ?_
  simp

/-- A legal mask is one of the 33 (rule R113). -/
theorem maskLegal_iff (m : Addr) : maskLegal m = true ↔ ∃ n, n ≤ 32 ∧ m = ones n := by
  constructor
  · intro h
    exact ⟨_, clo32_le m, by simpa [maskLegal] using h⟩
  · rintro ⟨n, h, rfl⟩
    exact maskLegal_ones h

theorem key_succ (v : Addr) (n : Nat) : key v (n + 1) = key v n ++ [keyBit v n] := by
  simp [key, List.range_succ]

theorem key_prefix {m n : Nat} (v : Addr) (h : m ≤ n) : key v m <+: key v n := by
  induction n with
  | zero => simp [Nat.le_zero.1 h]
  | succ n ih =>
    rcases Nat.lt_or_ge m (n + 1) with h' | h'
    · rw [key_succ]
      exact (ih (by omega)).trans (List.prefix_append _ _)
    · rw [Nat.le_antisymm h h']

/-- The beginnings of a key are the shorter keys of the same address. -/
theorem prefix_key_iff {k : Key} {v : Addr} {n : Nat} : k <+: key v n ↔ ∃ m ≤ n, k = key v m := by
  constructor
  · intro h
    refine ⟨k.length, by simpa using h.length_le, ?_⟩
    have h' : key v k.length <+: key v n := key_prefix v (by simpa using h.length_le)
    exact List.prefix_of_prefix_length_le h h' (by simp) |>.eq_of_length (by simp)
  · rintro ⟨m, hm, rfl⟩
    exact key_prefix v hm

end Sys2Proof.Machine
end

