-- ==== Sys2Proof/Laws/Frame.lean ====
section
/-! SUPPORT. What a command that runs leaves unchanged: every operation of the payload-bearing commands writes only the
response, the frame buffer and the working registers. -/

namespace Sys2Proof.Machine

open Sys2Proof

/-- A chain of accesses succeeds iff its first part does and the rest does on its result. -/
theorem bind_eq_ok {α β : Type} {x : Except Fault α} {f : α → Except Fault β} {b : β} :
    (x >>= f) = .ok b ↔ ∃ a, x = .ok a ∧ f a = .ok b := by
  cases x with
  | error e => exact ⟨fun h => (nomatch h), fun ⟨_, h, _⟩ => (nomatch h)⟩
  | ok a => exact ⟨fun h => ⟨a, rfl, h⟩, fun ⟨_, h, h'⟩ => by cases h; exact h'⟩

/-! ### The frame of a command (rules R20, R160) -/

/-- `OnlyProcesses`, field by field. -/
theorem onlyProcesses_iff {s t : State} :
    s.OnlyProcesses t ↔
      t.params = s.params ∧ t.phase = s.phase ∧ t.trie = s.trie ∧ t.nodeCnt = s.nodeCnt ∧ t.nbr = s.nbr ∧
      t.nbrCnt = s.nbrCnt ∧ t.ift = s.ift ∧ t.cmd = s.cmd ∧ t.cmdPayload = s.cmdPayload ∧ t.host = s.host := by
  obtain ⟨⟩ := s
  obtain ⟨⟩ := t
  simp only [State.OnlyProcesses, State.mk.injEq, true_and]

theorem State.OnlyProcesses.refl (s : State) : s.OnlyProcesses s := rfl

theorem State.OnlyProcesses.trans {s t u : State} (h : s.OnlyProcesses t) (h' : t.OnlyProcesses u) :
    s.OnlyProcesses u := by
  rw [onlyProcesses_iff] at *
  obtain ⟨h₁, h₂, h₃, h₄, h₅, h₆, h₇, h₈, h₉, h₁₀⟩ := h
  obtain ⟨g₁, g₂, g₃, g₄, g₅, g₆, g₇, g₈, g₉, g₁₀⟩ := h'
  exact ⟨g₁.trans h₁, g₂.trans h₂, g₃.trans h₃, g₄.trans h₄, g₅.trans h₅, g₆.trans h₆, g₇.trans h₇, g₈.trans h₈,
    g₉.trans h₉, g₁₀.trans h₁₀⟩

section
variable (s : State)

theorem withStage_onlyProcesses (g : Stage) : s.OnlyProcesses (s.withStage g) := rfl
theorem respond_onlyProcesses (r : Response) (p : List Byte) : s.OnlyProcesses (s.respond r p) := rfl
theorem withAcc_onlyProcesses (a : Sum16) : s.OnlyProcesses (s.withAcc a) := rfl
theorem withWalk_onlyProcesses (k : Key) (d : Nat) (b : Option RouteEntry) : s.OnlyProcesses (s.withWalk k d b) := rfl
theorem withFb_onlyProcesses (m : Memory) : s.OnlyProcesses (s.withFb m) := rfl
theorem loadPayload_onlyProcesses (p : List Byte) : s.OnlyProcesses (loadPayload p s) := rfl
theorem frameRefused_onlyProcesses : s.OnlyProcesses (frameRefused s) := rfl
theorem dropped_onlyProcesses (r : DropReason) : s.OnlyProcesses (dropped r s) := rfl
end

theorem lookupWalk_onlyProcesses (bs : List Bool) (s : State) : s.OnlyProcesses (lookupWalk bs s) := by
  have hv : ∀ s : State, s.OnlyProcesses (visit s) := by
    intro s
    unfold visit
    split
    · exact withWalk_onlyProcesses ..
    · exact .refl s
  induction bs generalizing s with
  | nil => exact hv s
  | cons b bs ih =>
    unfold lookupWalk
    dsimp only
    split
    · exact ((hv s).trans (withWalk_onlyProcesses ..)).trans (ih _)
    · exact hv s

/-- The lookup leaves the frame alone. -/
theorem trieLookup_fb (a : Addr) (s : State) : (trieLookup a s).fb = s.fb ∧ (trieLookup a s).flen = s.flen := by
  have hv : ∀ s : State, (visit s).fb = s.fb ∧ (visit s).flen = s.flen := by
    intro s
    unfold visit
    split <;> exact ⟨rfl, rfl⟩
  have hb : ∀ (bs : List Bool) (s : State), (lookupWalk bs s).fb = s.fb ∧ (lookupWalk bs s).flen = s.flen := by
    intro bs
    induction bs with
    | nil => exact hv
    | cons b bs ih =>
      intro s
      unfold lookupWalk
      dsimp only
      split
      · exact ⟨(ih _).1.trans (hv s).1, (ih _).2.trans (hv s).2⟩
      · exact hv s
  exact hb _ _

theorem trieLookup_onlyProcesses (a : Addr) (s : State) : s.OnlyProcesses (trieLookup a s) :=
  (withWalk_onlyProcesses s [] 0 none).trans (lookupWalk_onlyProcesses _ _)

section
variable {s t : State}

theorem memWrite_onlyProcesses {o n : Nat} {v : BitVec (8 * n)} (h : memWrite s o n v = .ok t) :
    s.OnlyProcesses t := by
  rw [(memWrite_eq_ok h).2]
  exact withFb_onlyProcesses ..

theorem rewriteChecksum_onlyProcesses {f o n : Nat} (h : rewriteChecksum f o n s = .ok t) : s.OnlyProcesses t := by
  obtain ⟨u, hu, h⟩ := bind_eq_ok.1 h
  obtain ⟨bs, _, h⟩ := bind_eq_ok.1 h
  exact ((memWrite_onlyProcesses hu).trans (withAcc_onlyProcesses ..)).trans (memWrite_onlyProcesses h)

theorem swapFields_onlyProcesses {o p n : Nat} (h : swapFields o p n s = .ok t) : s.OnlyProcesses t := by
  obtain ⟨_, _, h⟩ := bind_eq_ok.1 h
  obtain ⟨_, _, h⟩ := bind_eq_ok.1 h
  obtain ⟨_, hu, h⟩ := bind_eq_ok.1 h
  exact (memWrite_onlyProcesses hu).trans (memWrite_onlyProcesses h)

theorem decrementTtl_onlyProcesses (h : decrementTtl s = .ok t) : s.OnlyProcesses t := by
  obtain ⟨_, _, h⟩ := bind_eq_ok.1 h
  exact memWrite_onlyProcesses h

theorem emitted_onlyProcesses {o : PipeOutcome} {i : BitVec 8} (h : emitted o i s = .ok t) :
    s.OnlyProcesses t ∧ t.stage = .idle := by
  obtain ⟨_, _, h⟩ := bind_eq_ok.1 h
  cases h
  exact ⟨rfl, rfl⟩

theorem echoRewrite_onlyProcesses {hl n : Nat} (h : echoRewrite hl n s = .ok t) : s.OnlyProcesses t := by
  obtain ⟨_, h₁, h⟩ := bind_eq_ok.1 h
  obtain ⟨_, h₂, h⟩ := bind_eq_ok.1 h
  obtain ⟨_, h₃, h⟩ := bind_eq_ok.1 h
  obtain ⟨_, h₄, h⟩ := bind_eq_ok.1 h
  obtain ⟨_, h₅, h⟩ := bind_eq_ok.1 h
  obtain ⟨_, h₆, h⟩ := bind_eq_ok.1 h
  exact ((((((swapFields_onlyProcesses h₁).trans (swapFields_onlyProcesses h₂)).trans
    (decrementTtl_onlyProcesses h₃)).trans (rewriteChecksum_onlyProcesses h₄)).trans
    (memWrite_onlyProcesses h₅)).trans (memWrite_onlyProcesses h₆)).trans (rewriteChecksum_onlyProcesses h)

/-! ### The stages: a run writes only what it works on, and ends idle -/

theorem s7Forward_frame {r : RouteEntry} {m : LinkAddr} (h : s7Forward r m s = .ok t) :
    s.OnlyProcesses t ∧ t.stage = .idle := by
  obtain ⟨_, h₁, h⟩ := bind_eq_ok.1 h
  obtain ⟨_, _, h⟩ := bind_eq_ok.1 h
  obtain ⟨_, h₂, h⟩ := bind_eq_ok.1 h
  have he := emitted_onlyProcesses h
  exact ⟨(((withStage_onlyProcesses s .s7Forward).trans (memWrite_onlyProcesses h₁)).trans
    (memWrite_onlyProcesses h₂)).trans he.1, he.2⟩

theorem s6MutateResolve_frame {hl : Nat} {r : RouteEntry} (h : s6MutateResolve hl r s = .ok t) :
    s.OnlyProcesses t ∧ t.stage = .idle := by
  obtain ⟨_, h₁, h⟩ := bind_eq_ok.1 h
  obtain ⟨u, h₂, h⟩ := bind_eq_ok.1 h
  have hu : s.OnlyProcesses u := ((withStage_onlyProcesses s .s6MutateResolve).trans
    (decrementTtl_onlyProcesses h₁)).trans (rewriteChecksum_onlyProcesses h₂)
  split at h
  · cases h
    exact ⟨hu.trans (dropped_onlyProcesses ..), rfl⟩
  · exact ⟨hu.trans (s7Forward_frame h).1, (s7Forward_frame h).2⟩

theorem s5TtlCheck_frame {hl : Nat} {r : RouteEntry} (h : s5TtlCheck hl r s = .ok t) :
    s.OnlyProcesses t ∧ t.stage = .idle := by
  obtain ⟨_, _, h⟩ := bind_eq_ok.1 h
  split at h
  · cases h
    exact ⟨rfl, rfl⟩
  · exact ⟨(withStage_onlyProcesses s .s5TtlCheck).trans (s6MutateResolve_frame h).1, (s6MutateResolve_frame h).2⟩

theorem s4RouteLookup_frame {hl : Nat} {dst : Addr} (h : s4RouteLookup hl dst s = .ok t) :
    s.OnlyProcesses t ∧ t.stage = .idle := by
  have hu := (withStage_onlyProcesses s .s4RouteLookup).trans (trieLookup_onlyProcesses dst _)
  unfold s4RouteLookup at h
  dsimp only at h
  split at h
  · cases h
    exact ⟨hu.trans (dropped_onlyProcesses ..), rfl⟩
  · exact ⟨hu.trans (s5TtlCheck_frame h).1, (s5TtlCheck_frame h).2⟩

theorem s3CsumValidate_frame {hl : Nat} {dst : Addr} (h : s3CsumValidate hl dst s = .ok t) :
    s.OnlyProcesses t ∧ t.stage = .idle := by
  obtain ⟨_, _, h⟩ := bind_eq_ok.1 h
  obtain ⟨_, _, h⟩ := bind_eq_ok.1 h
  split at h
  · exact ⟨((withStage_onlyProcesses s .s3CsumValidate).trans (withAcc_onlyProcesses ..)).trans
      (s4RouteLookup_frame h).1, (s4RouteLookup_frame h).2⟩
  · cases h
    exact ⟨rfl, rfl⟩

theorem s2eEchoReply_frame {rx : BitVec 8} {hl : Nat} (h : s2eEchoReply rx hl s = .ok t) :
    s.OnlyProcesses t ∧ t.stage = .idle := by
  obtain ⟨_, _, h⟩ := bind_eq_ok.1 h
  split at h
  · cases h
    exact ⟨rfl, rfl⟩
  · split at h
    · cases h
      exact ⟨rfl, rfl⟩
    · obtain ⟨_, h₁, h⟩ := bind_eq_ok.1 h
      have he := emitted_onlyProcesses h
      exact ⟨((withStage_onlyProcesses s .s2eEchoReply).trans (echoRewrite_onlyProcesses h₁)).trans he.1, he.2⟩

theorem s2SelfCheck_frame {rx : BitVec 8} {hl : Nat} (h : s2SelfCheck rx hl s = .ok t) :
    s.OnlyProcesses t ∧ t.stage = .idle := by
  have hu := withStage_onlyProcesses s .s2SelfCheck
  obtain ⟨_, _, h⟩ := bind_eq_ok.1 h
  obtain ⟨_, _, h⟩ := bind_eq_ok.1 h
  split at h
  · exact ⟨hu.trans (s2eEchoReply_frame h).1, (s2eEchoReply_frame h).2⟩
  · exact ⟨hu.trans (s3CsumValidate_frame h).1, (s3CsumValidate_frame h).2⟩

theorem s1Classify_frame {rx : BitVec 8} (h : s1Classify rx s = .ok t) : s.OnlyProcesses t ∧ t.stage = .idle := by
  unfold s1Classify at h
  dsimp only at h
  split at h
  · cases h
    exact ⟨rfl, rfl⟩
  · obtain ⟨_, _, h⟩ := bind_eq_ok.1 h
    split at h
    · cases h
      exact ⟨rfl, rfl⟩
    · split at h
      · cases h
        exact ⟨rfl, rfl⟩
      · obtain ⟨_, _, h⟩ := bind_eq_ok.1 h
        split at h
        · cases h
          exact ⟨rfl, rfl⟩
        · split at h
          · cases h
            exact ⟨rfl, rfl⟩
          · exact ⟨(withStage_onlyProcesses s .s1Classify).trans (s2SelfCheck_frame h).1, (s2SelfCheck_frame h).2⟩

/-- PKT.PROCESS writes no table, no phase and no parameter, and leaves the pipeline idle (rules R160, R162). -/
theorem pktProcess_frame {rx : BitVec 8} {p : List Byte} (h : pktProcess rx p s = .ok t) :
    s.OnlyProcesses t ∧ t.stage = .idle :=
  ⟨(loadPayload_onlyProcesses s p).trans (s1Classify_frame h).1, (s1Classify_frame h).2⟩

/-- CS.COMPUTE writes no table, no phase and no parameter (rule R133). -/
theorem csCompute_frame {p : List Byte} (h : csCompute p s = .ok t) : s.OnlyProcesses t ∧ t.stage = s.stage := by
  obtain ⟨_, _, h⟩ := bind_eq_ok.1 h
  cases h
  exact ⟨rfl, rfl⟩

/-- CS.VALIDATE writes no table, no phase and no parameter (rule R135). -/
theorem csValidate_frame {coff claimed : BitVec 16} {p : List Byte} (h : csValidate coff claimed p s = .ok t) :
    s.OnlyProcesses t ∧ t.stage = s.stage := by
  obtain ⟨_, _, h⟩ := bind_eq_ok.1 h
  cases h
  exact ⟨rfl, rfl⟩
end

end Sys2Proof.Machine
end

