-- ==== Sys2Proof/Laws/Invariant.lean ====
section
/-! SUPPORT. The frame buffer's part of the invariant (rules R30, R38 (g), R67), kept by every access. -/

namespace Sys2Proof.Machine

open Sys2Proof

/-- `FB` is in canonical form inside its `FRAME_MAX` bytes, and every byte of the frame has been written. -/
structure State.FrameOk (s : State) : Prop where
  flen : s.flen.toNat ≤ s.params.frameMax
  fbWf : s.fb.wf
  fbSize : ∀ x ∈ s.fb, x.1 < s.params.frameMax
  fbLoaded : ∀ o < s.flen.toNat, (s.fb.read o).isSome = true

theorem State.Inv.frameOk {s : State} (h : s.Inv) : s.FrameOk := ⟨h.flen, h.fbWf, h.fbSize, h.fbLoaded⟩

theorem State.FrameOk.congr {s t : State} (h : s.FrameOk) (hp : t.params = s.params) (hb : t.fb = s.fb)
    (hl : t.flen = s.flen) : t.FrameOk := by
  obtain ⟨h₁, h₂, h₃, h₄⟩ := h
  exact ⟨by rwa [hp, hl], by rwa [hb], by rwa [hp, hb], by rwa [hb, hl]⟩

section
variable {s t : State}

theorem State.FrameOk.memWrite {o n : Nat} {v : BitVec (8 * n)} (h : s.FrameOk) (hw : memWrite s o n v = .ok t) :
    t.FrameOk := by
  obtain ⟨hb, rfl⟩ := memWrite_eq_ok hw
  refine ⟨h.flen, Memory.writeBytes_wf h.fbWf _ _, fun x hx => ?_, fun a ha => ?_⟩
  · rcases Memory.mem_writeBytes hx with hx | hx
    · rw [length_beBytes] at hx
      exact Nat.lt_of_lt_of_le hx (hb.trans h.flen)
    · exact h.fbSize x hx
  · rw [State.withFb_fb, Memory.read_writeBytes]
    split
    · rename_i hr
      rw [List.getElem?_eq_getElem (by omega)]
      rfl
    · exact h.fbLoaded a ha

theorem State.FrameOk.loadPayload {p : List Byte} (h : s.FrameOk) (hp : p.length ≤ s.params.frameMax)
    (hl : p.length < 2 ^ 16) : (loadPayload p s).FrameOk := by
  have hf : (Machine.loadPayload p s).flen.toNat = p.length := (loadPayload_holds (s := s) hl).1.flen
  refine ⟨?_, Memory.writeBytes_wf h.fbWf _ _, fun x hx => ?_, fun a ha => ?_⟩
  · rw [hf]; exact hp
  · rcases Memory.mem_writeBytes hx with hx | hx
    · exact Nat.lt_of_lt_of_le (by omega) hp
    · exact h.fbSize x hx
  · rw [hf] at ha
    rw [(loadPayload_holds (s := s) hl).1.bytes a ha, List.getElem?_eq_getElem ha]
    rfl

theorem State.FrameOk.withAcc (h : s.FrameOk) (bs : List Byte) : (withSum bs s).FrameOk := h.congr rfl rfl rfl

theorem State.FrameOk.rewriteChecksum {f o n : Nat} (h : s.FrameOk) (hr : rewriteChecksum f o n s = .ok t) :
    t.FrameOk := by
  obtain ⟨u, hu, hr⟩ := bind_eq_ok.1 hr
  obtain ⟨bs, _, hr⟩ := bind_eq_ok.1 hr
  exact ((h.memWrite hu).withAcc bs).memWrite hr

theorem State.FrameOk.swapFields {o p n : Nat} (h : s.FrameOk) (hr : swapFields o p n s = .ok t) : t.FrameOk := by
  obtain ⟨_, _, hr⟩ := bind_eq_ok.1 hr
  obtain ⟨_, _, hr⟩ := bind_eq_ok.1 hr
  obtain ⟨_, hu, hr⟩ := bind_eq_ok.1 hr
  exact (h.memWrite hu).memWrite hr

theorem State.FrameOk.decrementTtl (h : s.FrameOk) (hr : decrementTtl s = .ok t) : t.FrameOk := by
  obtain ⟨_, _, hr⟩ := bind_eq_ok.1 hr
  exact h.memWrite hr

theorem State.FrameOk.emitted {o : PipeOutcome} {i : BitVec 8} (h : s.FrameOk) (hr : emitted o i s = .ok t) :
    t.FrameOk := by
  obtain ⟨_, _, hr⟩ := bind_eq_ok.1 hr
  cases hr
  exact h.congr rfl rfl rfl

theorem State.FrameOk.echoRewrite {hl n : Nat} (h : s.FrameOk) (hr : echoRewrite hl n s = .ok t) : t.FrameOk := by
  obtain ⟨_, h₁, hr⟩ := bind_eq_ok.1 hr
  obtain ⟨_, h₂, hr⟩ := bind_eq_ok.1 hr
  obtain ⟨_, h₃, hr⟩ := bind_eq_ok.1 hr
  obtain ⟨_, h₄, hr⟩ := bind_eq_ok.1 hr
  obtain ⟨_, h₅, hr⟩ := bind_eq_ok.1 hr
  obtain ⟨_, h₆, hr⟩ := bind_eq_ok.1 hr
  exact ((((((h.swapFields h₁).swapFields h₂).decrementTtl h₃).rewriteChecksum h₄).memWrite h₅).memWrite
    h₆).rewriteChecksum hr

theorem State.FrameOk.lookup (h : s.FrameOk) (a : Addr) : (trieLookup a s).FrameOk :=
  h.congr (onlyProcesses_iff.1 (trieLookup_onlyProcesses a s)).1 (trieLookup_fb a s).1 (trieLookup_fb a s).2

/-! ### The stages -/

theorem State.FrameOk.s7 {r : RouteEntry} {m : LinkAddr} (h : s.FrameOk) (hr : s7Forward r m s = .ok t) : t.FrameOk := by
  obtain ⟨_, h₁, hr⟩ := bind_eq_ok.1 hr
  obtain ⟨_, _, hr⟩ := bind_eq_ok.1 hr
  obtain ⟨_, h₂, hr⟩ := bind_eq_ok.1 hr
  have h₀ : (s.withStage .s7Forward).FrameOk := h.congr rfl rfl rfl
  exact ((h₀.memWrite h₁).memWrite h₂).emitted hr

theorem State.FrameOk.s6 {hl : Nat} {r : RouteEntry} (h : s.FrameOk) (hr : s6MutateResolve hl r s = .ok t) :
    t.FrameOk := by
  obtain ⟨_, h₁, hr⟩ := bind_eq_ok.1 hr
  obtain ⟨u, h₂, hr⟩ := bind_eq_ok.1 hr
  have h₀ : (s.withStage .s6MutateResolve).FrameOk := h.congr rfl rfl rfl
  have hu := (h₀.decrementTtl h₁).rewriteChecksum h₂
  split at hr
  · cases hr
    exact hu.congr rfl rfl rfl
  · exact hu.s7 hr

theorem State.FrameOk.s5 {hl : Nat} {r : RouteEntry} (h : s.FrameOk) (hr : s5TtlCheck hl r s = .ok t) : t.FrameOk := by
  have h₀ : (s.withStage .s5TtlCheck).FrameOk := h.congr rfl rfl rfl
  obtain ⟨_, _, hr⟩ := bind_eq_ok.1 hr
  split at hr
  · cases hr
    exact h₀.congr rfl rfl rfl
  · exact h₀.s6 hr

theorem State.FrameOk.s4 {hl : Nat} {dst : Addr} (h : s.FrameOk) (hr : s4RouteLookup hl dst s = .ok t) :
    t.FrameOk := by
  have h₀ : (s.withStage .s4RouteLookup).FrameOk := h.congr rfl rfl rfl
  unfold s4RouteLookup at hr
  dsimp only at hr
  split at hr
  · cases hr
    exact (h₀.lookup dst).congr rfl rfl rfl
  · exact (h₀.lookup dst).s5 hr

theorem State.FrameOk.s3 {hl : Nat} {dst : Addr} (h : s.FrameOk) (hr : s3CsumValidate hl dst s = .ok t) :
    t.FrameOk := by
  have h₀ : (s.withStage .s3CsumValidate).FrameOk := h.congr rfl rfl rfl
  obtain ⟨_, _, hr⟩ := bind_eq_ok.1 hr
  obtain ⟨bs, _, hr⟩ := bind_eq_ok.1 hr
  split at hr
  · exact (h₀.withAcc _).s4 hr
  · cases hr
    exact h₀.congr rfl rfl rfl

theorem State.FrameOk.s2e {rx : BitVec 8} {hl : Nat} (h : s.FrameOk) (hr : s2eEchoReply rx hl s = .ok t) :
    t.FrameOk := by
  have h₀ : (s.withStage .s2eEchoReply).FrameOk := h.congr rfl rfl rfl
  obtain ⟨_, _, hr⟩ := bind_eq_ok.1 hr
  split at hr
  · cases hr
    exact h₀.congr rfl rfl rfl
  · split at hr
    · cases hr
      exact h₀.congr rfl rfl rfl
    · obtain ⟨_, h₁, hr⟩ := bind_eq_ok.1 hr
      exact (h₀.echoRewrite h₁).emitted hr

theorem State.FrameOk.s2 {rx : BitVec 8} {hl : Nat} (h : s.FrameOk) (hr : s2SelfCheck rx hl s = .ok t) :
    t.FrameOk := by
  have h₀ : (s.withStage .s2SelfCheck).FrameOk := h.congr rfl rfl rfl
  obtain ⟨_, _, hr⟩ := bind_eq_ok.1 hr
  obtain ⟨_, _, hr⟩ := bind_eq_ok.1 hr
  split at hr
  · exact h₀.s2e hr
  · exact h₀.s3 hr

theorem State.FrameOk.s1 {rx : BitVec 8} (h : s.FrameOk) (hr : s1Classify rx s = .ok t) : t.FrameOk := by
  have h₀ : (s.withStage .s1Classify).FrameOk := h.congr rfl rfl rfl
  unfold s1Classify at hr
  dsimp only at hr
  split at hr
  · cases hr
    exact h₀.congr rfl rfl rfl
  · obtain ⟨_, _, hr⟩ := bind_eq_ok.1 hr
    split at hr
    · cases hr
      exact h₀.congr rfl rfl rfl
    · split at hr
      · cases hr
        exact h₀.congr rfl rfl rfl
      · obtain ⟨_, _, hr⟩ := bind_eq_ok.1 hr
        split at hr
        · cases hr
          exact h₀.congr rfl rfl rfl
        · split at hr
          · cases hr
            exact h₀.congr rfl rfl rfl
          · exact h₀.s2 hr

/-- PKT.PROCESS keeps the frame buffer in form. -/
theorem State.FrameOk.pktProcess {rx : BitVec 8} {p : List Byte} (h : s.FrameOk) (hp : p.length ≤ s.params.frameMax)
    (hl : p.length < 2 ^ 16) (hr : pktProcess rx p s = .ok t) : t.FrameOk :=
  (h.loadPayload hp hl).s1 hr

/-- CS.COMPUTE keeps the frame buffer in form. -/
theorem State.FrameOk.csCompute {p : List Byte} (h : s.FrameOk) (hp : p.length ≤ s.params.frameMax)
    (hl : p.length < 2 ^ 16) (hr : csCompute p s = .ok t) : t.FrameOk := by
  obtain ⟨_, _, hr⟩ := bind_eq_ok.1 hr
  cases hr
  exact (h.loadPayload hp hl).congr rfl rfl rfl

/-- CS.VALIDATE keeps the frame buffer in form. -/
theorem State.FrameOk.csValidate {coff claimed : BitVec 16} {p : List Byte} (h : s.FrameOk)
    (hp : p.length ≤ s.params.frameMax) (hl : p.length < 2 ^ 16) (hr : csValidate coff claimed p s = .ok t) :
    t.FrameOk := by
  obtain ⟨_, _, hr⟩ := bind_eq_ok.1 hr
  cases hr
  exact (h.loadPayload hp hl).congr rfl rfl rfl
end

end Sys2Proof.Machine
end

