-- ==== Sys2Proof/Laws/PerInstr.lean ====
section
/-! SUPPORT. What is said of every command as syntax, one lemma per command. -/

namespace Sys2Proof.Laws.EncodedFields

open Sys2Proof

/-- The encoded word of a command holds its opcode (rule R84), its payload's length (rule R80) and no reserved bit
(rule R85). -/
def Statement (i : Instr) : Prop :=
  opField (encodeWord i) = i.opcode.code ∧ lenField (encodeWord i) = i.len ∧ encodeWord i &&& i.opcode.mbz = 0

theorem ifSet (ifid : BitVec 8) (ip : Addr) (mac : LinkAddr) : Statement (.ifSet ifid ip mac) :=
  ⟨by simp [encodeWord], by simp [encodeWord, Instr.len, Instr.payload], by
    show portWord _ _ _ _ _ _ &&& Opcode.mbz .ifSet = 0
    rw [mbz_ifSet, portWord_and, portWord_eq_zero]
    exact ⟨by simp, by simp, by simp, by simp, inLowHalf_and_high _, by simp⟩⟩

theorem rtInsert (pfx mask nextHop : Addr) (ifid : BitVec 8) : Statement (.rtInsert pfx mask nextHop ifid) :=
  ⟨by simp [encodeWord], by simp [encodeWord, Instr.len, Instr.payload], by
    show portWord _ _ _ _ _ _ &&& Opcode.mbz .rtInsert = 0
    rw [mbz_rtInsert, portWord_and, portWord_eq_zero]
    simp⟩

theorem nbInsert (ip : Addr) (mac : LinkAddr) : Statement (.nbInsert ip mac) :=
  ⟨by simp [encodeWord], by simp [encodeWord, Instr.len, Instr.payload], by
    show portWord _ _ _ _ _ _ &&& Opcode.mbz .nbInsert = 0
    rw [mbz_nbInsert, portWord_and, portWord_eq_zero]
    exact ⟨by simp, by simp, by simp, by simp, inLowHalf_and_high _, by simp⟩⟩

theorem cfgSeal : Statement (.cfgSeal) :=
  ⟨by simp [encodeWord], by simp [encodeWord, Instr.len, Instr.payload], by
    show portWord _ _ _ _ _ _ &&& Opcode.mbz .cfgSeal = 0
    rw [mbz_cfgSeal, portWord_and, portWord_eq_zero]
    simp⟩

theorem stRead : Statement (.stRead) :=
  ⟨by simp [encodeWord], by simp [encodeWord, Instr.len, Instr.payload], by
    show portWord _ _ _ _ _ _ &&& Opcode.mbz .stRead = 0
    rw [mbz_stRead, portWord_and, portWord_eq_zero]
    simp⟩

theorem rtLookup (ip : Addr) : Statement (.rtLookup ip) :=
  ⟨by simp [encodeWord], by simp [encodeWord, Instr.len, Instr.payload], by
    show portWord _ _ _ _ _ _ &&& Opcode.mbz .rtLookup = 0
    rw [mbz_rtLookup, portWord_and, portWord_eq_zero]
    simp⟩

theorem nbResolve (ip : Addr) : Statement (.nbResolve ip) :=
  ⟨by simp [encodeWord], by simp [encodeWord, Instr.len, Instr.payload], by
    show portWord _ _ _ _ _ _ &&& Opcode.mbz .nbResolve = 0
    rw [mbz_nbResolve, portWord_and, portWord_eq_zero]
    simp⟩

theorem csCompute (payload : List Byte) : Statement (.csCompute payload) :=
  ⟨by simp [encodeWord], by simp [encodeWord, Instr.len, Instr.payload], by
    show portWord _ _ _ _ _ _ &&& Opcode.mbz .csCompute = 0
    rw [mbz_csCompute, portWord_and, portWord_eq_zero]
    simp⟩

theorem csValidate (coff claimed : BitVec 16) (payload : List Byte) : Statement (.csValidate coff claimed payload) :=
  ⟨by simp [encodeWord], by simp [encodeWord, Instr.len, Instr.payload], by
    show portWord _ _ _ _ _ _ &&& Opcode.mbz .csValidate = 0
    rw [mbz_csValidate, portWord_and, portWord_eq_zero]
    exact ⟨by simp, by simp, by simp, inLowHalf_and_high _, inLowHalf_and_high _, by simp⟩⟩

theorem pktProcess (ifid : BitVec 8) (payload : List Byte) : Statement (.pktProcess ifid payload) :=
  ⟨by simp [encodeWord], by simp [encodeWord, Instr.len, Instr.payload], by
    show portWord _ _ _ _ _ _ &&& Opcode.mbz .pktProcess = 0
    rw [mbz_pktProcess, portWord_and, portWord_eq_zero]
    simp⟩

end Sys2Proof.Laws.EncodedFields
end

