-- ==== Sys2Proof/Laws/Pipeline.lean ====
section
/-! SUPPORT. What the pipeline's operations and stages do to a state whose frame is the byte sequence `f`. -/

namespace Sys2Proof.Machine

open Sys2Proof

/-! ### Byte sequences -/

theorem beBytes_beValue (bs : List Byte) : beBytes bs.length (beValue bs) = bs := by
  induction bs with
  | nil => rfl
  | cons b bs ih =>
    have hlt := beValue_lt bs
    have e : (b.toNat * 2 ^ (8 * bs.length) + beValue bs) / 2 ^ (8 * bs.length) = b.toNat := by
      rw [Nat.mul_comm, Nat.mul_add_div (by positivity), Nat.div_eq_of_lt hlt, Nat.add_zero]
    have e' : beBytes bs.length (b.toNat * 2 ^ (8 * bs.length) + beValue bs) = bs := by
      rw [← beBytes_mod, Nat.mul_comm, Nat.mul_add_mod, Nat.mod_eq_of_lt hlt, ih]
    rw [List.length_cons, beBytes_succ, beValue, e, e']
    simp

/-- A field read as a number and written back is its bytes. -/
theorem beBytes_field {f : List Byte} {o n : Nat} (h : o + n ≤ f.length) :
    beBytes n (BitVec.ofNat (8 * n) (field f o n)).toNat = (f.drop o).take n := by
  have hl := length_field_bytes h
  rw [BitVec.toNat_ofNat, Nat.mod_eq_of_lt field_lt]
  have := beBytes_beValue ((f.drop o).take n)
  rwa [hl] at this

theorem toNat_field {f : List Byte} {o n : Nat} : (BitVec.ofNat (8 * n) (field f o n)).toNat = field f o n := by
  rw [BitVec.toNat_ofNat, Nat.mod_eq_of_lt field_lt]

/-- Two adjacent fields written one after the other. -/
theorem patch_patch {f xs ys : List Byte} {o : Nat} (h : o + xs.length + ys.length ≤ f.length) :
    patch (patch f o xs) (o + xs.length) ys = patch f o (xs ++ ys) := by
  have h₁ : o + xs.length ≤ f.length := by omega
  refine List.ext_getElem? fun i => ?_
  rw [getElem?_patch (by rw [length_patch h₁]; exact h), getElem?_patch h₁,
    getElem?_patch (by rw [List.length_append]; omega), List.length_append]
  by_cases h₂ : o + xs.length ≤ i ∧ i < o + xs.length + ys.length
  · rw [if_pos h₂, if_pos (by omega), List.getElem?_append_right (by omega)]
    congr 1
    omega
  · rw [if_neg h₂]
    by_cases h₃ : o ≤ i ∧ i < o + xs.length
    · rw [if_pos h₃, if_pos (by omega), List.getElem?_append_left (by omega)]
    · rw [if_neg h₃, if_neg (by omega)]

/-- A write outside a field leaves the field. -/
theorem field_bytes_patch {f bs : List Byte} {o p n : Nat} (h : o + bs.length ≤ f.length)
    (hp : p + n ≤ o ∨ o + bs.length ≤ p) : ((patch f o bs).drop p).take n = (f.drop p).take n := by
  refine List.ext_getElem? fun i => ?_
  by_cases hi : i < n
  · rw [getElem?_field_bytes hi, getElem?_field_bytes hi, getElem?_patch h, if_neg (by omega)]
  · rw [List.getElem?_eq_none (by simp; omega), List.getElem?_eq_none (by simp; omega)]

theorem field_patch {f bs : List Byte} {o p n : Nat} (h : o + bs.length ≤ f.length)
    (hp : p + n ≤ o ∨ o + bs.length ≤ p) : field (patch f o bs) p n = field f p n := by
  unfold field
  rw [field_bytes_patch h hp]

theorem length_rechecksummed {f : List Byte} {o start n : Nat} (h : o + 2 ≤ f.length) :
    (rechecksummed f o start n).length = f.length := length_patch (by simpa using h)

theorem length_ttlDecremented {f : List Byte} (h : 23 ≤ f.length) : (ttlDecremented f).length = f.length :=
  length_patch (by simpa using h)

theorem length_mutatedFrame {f : List Byte} (h : 34 ≤ f.length) : (mutatedFrame f).length = f.length := by
  have hl := length_ttlDecremented (show 23 ≤ f.length by omega)
  rw [mutatedFrame, length_rechecksummed (by omega), hl]

theorem length_forwardedFrame {f : List Byte} (h : 34 ≤ f.length) (m src : LinkAddr) :
    (forwardedFrame f m src).length = f.length := by
  rw [forwardedFrame, length_patch, length_mutatedFrame h]
  rw [length_mutatedFrame h, List.length_append, length_beBytes, length_beBytes]
  omega

/-! ### Chains of operations on the frame -/

theorem State.HoldsFrame.trans {s t u : State} {f g : List Byte} (h : s.HoldsFrame t f) (h' : t.HoldsFrame u g)
    (hl : g.length = f.length) : s.HoldsFrame u g :=
  ⟨h'.1, fun o ho => (h'.2 o ho).trans (h.2 o (hl ▸ ho))⟩

theorem State.HoldsFrame.congr {s t u : State} {f : List Byte} (h : s.HoldsFrame t f) (hb : u.fb = t.fb)
    (hl : u.flen = t.flen) : s.HoldsFrame u f := ⟨h.1.congr hb hl, fun o ho => hb ▸ h.2 o ho⟩

theorem State.FrameIs.holds {s t : State} {f : List Byte} (h : s.FrameIs f) (hb : t.fb = s.fb) (hl : t.flen = s.flen) :
    s.HoldsFrame t f := ⟨h.congr hb hl, fun _ _ => by rw [hb]⟩

section
variable {s : State} {f : List Byte}

/-- A write inside the frame, as a change of the frame. -/
theorem memWrite_holds (h : s.FrameIs f) {o n : Nat} (ho : o + n ≤ f.length) (v : BitVec (8 * n)) :
    ∃ t, memWrite s o n v = .ok t ∧ s.HoldsFrame t (patch f o (beBytes n v.toNat)) ∧ t.stage = s.stage := by
  obtain ⟨m, hm, hf, hb⟩ := memWrite_of_frame h ho v
  refine ⟨_, hm, ⟨hf, fun a ha => hb a ?_⟩, rfl⟩
  rwa [length_patch (by simpa using ho)] at ha

theorem decrementTtl_holds (h : s.FrameIs f) (hl : 34 ≤ f.length) :
    ∃ t, decrementTtl s = .ok t ∧ s.HoldsFrame t (ttlDecremented f) ∧ t.stage = s.stage := by
  obtain ⟨t, ht, hf, hs⟩ := memWrite_holds h (o := offTtl) (n := 1) (by simp only [offTtl]; omega)
    (BitVec.ofNat (8 * 1) (field f 22 1) - 1)
  refine ⟨t, ?_, ?_, hs⟩
  · rw [decrementTtl, memRead_of_frame h (by simp only [offTtl]; omega)]
    exact ht
  · convert hf using 1
    have hlt : field f 22 1 < 2 ^ (8 * 1) := field_lt
    unfold ttlDecremented ttlOf
    congr 1
    simp only [beBytes, List.range_one, List.map_cons, List.map_nil, List.cons.injEq, and_true]
    refine BitVec.eq_of_toNat_eq ?_
    simp [BitVec.toNat_sub]
    omega

/-- The checksum rewrite, in full (rule R136). -/
theorem rewriteChecksum_holds (h : s.FrameIs f) {o start n : Nat} (ho : o + 2 ≤ f.length) (hn : start + n ≤ f.length) :
    ∃ t, rewriteChecksum o start n s = .ok t ∧ s.HoldsFrame t (rechecksummed f o start n) ∧ t.stage = s.stage := by
  obtain ⟨t, ht, hf, hs⟩ := memWrite_holds h ho (0 : BitVec 16)
  have hz : beBytes 2 (0 : BitVec 16).toNat = [0, 0] := by decide
  rw [hz] at hf
  have hlen : (patch f o [0, 0]).length = f.length := length_patch (by simpa using ho)
  have hr := fbRange_of_frame hf.1 (o := start) (n := n) (by rw [hlen]; exact hn)
  obtain ⟨u, hu, hg, hs'⟩ := memWrite_holds (s := withSum (((patch f o [0, 0]).drop start).take n) t)
    (hf.1.congr rfl rfl) (o := o) (n := 2) (by rw [hlen]; exact ho) (cksum (((patch f o [0, 0]).drop start).take n))
  have hpp : ∀ b : List Byte, b.length = 2 → patch (patch f o [0, 0]) o b = patch f o b := by
    intro b hb
    refine List.ext_getElem? fun i => ?_
    rw [getElem?_patch (by rw [hlen, hb]; exact ho), getElem?_patch (by simpa using ho),
      getElem?_patch (by rw [hb]; exact ho)]
    simp only [hb, List.length_cons, List.length_nil]
    grind
  rw [hpp _ (by simp)] at hg
  refine ⟨u, ?_, ?_, hs'.trans hs⟩
  · rw [rewriteChecksum, ht]
    show (fbRange t start n >>= _) = _
    rw [hr]
    exact hu
  · have : t.HoldsFrame u (rechecksummed f o start n) := ⟨hg.1, hg.2⟩
    exact hf.trans this (by rw [length_rechecksummed ho, hlen])

/-- Two adjacent fields swapped (rule R166). -/
theorem swapFields_holds (h : s.FrameIs f) {o n : Nat} (ho : o + n + n ≤ f.length) :
    ∃ t, swapFields o (o + n) n s = .ok t ∧
      s.HoldsFrame t (patch f o ((f.drop (o + n)).take n ++ (f.drop o).take n)) ∧ t.stage = s.stage := by
  have hy := length_field_bytes (f := f) (o := o + n) (n := n) (by omega)
  have hx := length_field_bytes (f := f) (o := o) (n := n) (by omega)
  obtain ⟨t, ht, hf, hs⟩ := memWrite_holds h (o := o) (n := n) (by omega) (BitVec.ofNat (8 * n) (field f (o + n) n))
  rw [beBytes_field (by omega)] at hf
  have hlen : (patch f o ((f.drop (o + n)).take n)).length = f.length := length_patch (by rw [hy]; omega)
  obtain ⟨u, hu, hg, hs'⟩ := memWrite_holds hf.1 (o := o + n) (n := n) (by rw [hlen]; omega)
    (BitVec.ofNat (8 * n) (field f o n))
  rw [beBytes_field (by omega)] at hg
  have e := patch_patch (f := f) (xs := (f.drop (o + n)).take n) (ys := (f.drop o).take n) (o := o)
    (by rw [hy, hx]; exact ho)
  rw [hy] at e
  rw [e] at hg
  refine ⟨u, ?_, hf.trans hg ?_, hs'.trans hs⟩
  · rw [swapFields, memRead_of_frame h (by omega)]
    show (memRead s (o + n) n >>= _) = _
    rw [memRead_of_frame h (by omega)]
    show (memWrite s o n _ >>= _) = _
    rw [ht]
    exact hu
  · rw [hlen, length_patch]
    rw [List.length_append, hy, hx]
    omega

theorem length_swappedFrame (h : 34 ≤ f.length) : (swappedFrame f).length = f.length := by
  have h₁ : (patch f 0 ((f.drop 6).take 6 ++ f.take 6)).length = f.length :=
    length_patch (by simp; omega)
  rw [swappedFrame, length_patch, h₁]
  rw [h₁]
  simp
  omega

/-- The rewriting of stage S2E (rule R166). -/
theorem echoRewrite_holds (h : s.FrameIs f) (hh : roomForHeader f) (hi : roomForIcmp f) :
    ∃ t, echoRewrite (hlOf f) (totlenOf f) s = .ok t ∧ s.HoldsFrame t (repliedFrame f) := by
  obtain ⟨h34, h5, hhl⟩ := hh
  obtain ⟨hi₁, hi₂⟩ := hi
  have h20 : 20 ≤ hlOf f := by unfold hlOf; omega
  obtain ⟨s₁, e₁, f₁, -⟩ := swapFields_holds h (o := 0) (n := 6) (by omega)
  have l₁ : (patch f 0 ((f.drop 6).take 6 ++ f.take 6)).length = f.length := length_patch (by simp; omega)
  obtain ⟨s₂, e₂, f₂, -⟩ := swapFields_holds f₁.1 (o := 26) (n := 4) (by simp only [Nat.zero_add, List.drop_zero, l₁]; omega)
  simp only [Nat.zero_add, List.drop_zero] at f₁ f₂
  rw [field_bytes_patch (by simp; omega) (by simp; omega), field_bytes_patch (by simp; omega) (by simp; omega)] at f₂
  have f₂ : s₁.HoldsFrame s₂ (swappedFrame f) := f₂
  have l₂ := length_swappedFrame h34
  obtain ⟨s₃, e₃, f₃, -⟩ := decrementTtl_holds f₂.1 (by omega)
  have l₃ : (ttlDecremented (swappedFrame f)).length = f.length := (length_ttlDecremented (by omega)).trans l₂
  obtain ⟨s₄, e₄, f₄, -⟩ := rewriteChecksum_holds f₃.1 (o := 24) (start := 14) (n := hlOf f) (by omega) (by omega)
  have hhl' : hlOf (swappedFrame f) = hlOf f := by
    unfold hlOf ihlOf swappedFrame
    rw [field_patch (by rw [l₁]; simp; omega) (by simp), field_patch (by simp; omega) (by simp; omega)]
  have f₄ : s₃.HoldsFrame s₄ (mutatedFrame (swappedFrame f)) := by rw [mutatedFrame, hhl']; exact f₄
  have l₄ : (mutatedFrame (swappedFrame f)).length = f.length := (length_mutatedFrame (by omega)).trans l₂
  obtain ⟨s₅, e₅, f₅, -⟩ := memWrite_holds f₄.1 (o := 14 + hlOf f) (n := 1) (by omega) (0 : BitVec 8)
  have hz : beBytes 1 (0 : BitVec 8).toNat = [0] := by decide
  rw [hz] at f₅
  have l₅ : (patch (mutatedFrame (swappedFrame f)) (14 + hlOf f) [0]).length = f.length :=
    (length_patch (by rw [l₄, List.length_singleton]; omega)).trans l₄
  obtain ⟨s₆, e₆, f₆, -⟩ := memWrite_holds f₅.1 (o := 14 + hlOf f + 1) (n := 1) (by omega) (0 : BitVec 8)
  have hp := patch_patch (f := mutatedFrame (swappedFrame f)) (xs := [0]) (ys := [0]) (o := 14 + hlOf f)
    (by rw [l₄]; simp; omega)
  rw [hz] at f₆
  simp only [List.length_singleton] at hp
  rw [hp] at f₆
  have l₆ : (patch (mutatedFrame (swappedFrame f)) (14 + hlOf f) [0, 0]).length = f.length :=
    (length_patch (by rw [l₄]; simp; omega)).trans l₄
  obtain ⟨s₇, e₇, f₇, -⟩ := rewriteChecksum_holds f₆.1 (o := 14 + hlOf f + 2) (start := 14 + hlOf f)
    (n := totlenOf f - hlOf f) (by simp only [List.singleton_append, l₆]; omega)
    (by simp only [List.singleton_append, l₆]; omega)
  refine ⟨s₇, ?_, ?_⟩
  · rw [echoRewrite]
    show (swapFields 0 (0 + 6) 6 s >>= _) = _
    rw [e₁]
    show (swapFields 26 (26 + 4) 4 s₁ >>= _) = _
    rw [e₂]
    show (decrementTtl s₂ >>= _) = _
    rw [e₃]
    show (rewriteChecksum 24 14 (hlOf f) s₃ >>= _) = _
    rw [e₄]
    show (memWrite s₄ (14 + hlOf f) 1 _ >>= _) = _
    rw [e₅]
    show (memWrite s₅ (14 + hlOf f + 1) 1 _ >>= _) = _
    rw [e₆]
    exact e₇
  · have l₇ : (repliedFrame f).length = f.length := by
      rw [repliedFrame, length_rechecksummed (by rw [l₆]; omega), l₆]
    exact (((((f₁.trans f₂ (l₂.trans l₁.symm)).trans f₃ (l₃.trans l₂.symm)).trans f₄ (l₄.trans l₃.symm)).trans f₅
      (l₅.trans l₄.symm)).trans f₆ (l₆.trans l₅.symm)).trans f₇ (l₇.trans l₆.symm)

theorem length_repliedFrame (hh : roomForHeader f) (hi : roomForIcmp f) : (repliedFrame f).length = f.length := by
  obtain ⟨h34, h5, hhl⟩ := hh
  obtain ⟨hi₁, hi₂⟩ := hi
  have l₄ : (mutatedFrame (swappedFrame f)).length = f.length :=
    (length_mutatedFrame (by rw [length_swappedFrame h34]; omega)).trans (length_swappedFrame h34)
  have l₆ : (patch (mutatedFrame (swappedFrame f)) (14 + hlOf f) [0, 0]).length = f.length :=
    (length_patch (by rw [l₄]; simp; omega)).trans l₄
  rw [repliedFrame, length_rechecksummed (by rw [l₆]; omega), l₆]

/-- The header checksum is found valid iff recomputing it gives the field (rules R134, R168). -/
theorem validate_iff (f : List Byte) :
    validate (headerOf f) ipCoff (BitVec.ofNat (8 * 2) (field f 24 2)) = true ↔ headerValid f := by
  rw [validate, beq_iff_eq, ← BitVec.toNat_inj, toNat_field]
  rfl

/-! ### The rewritten frames, byte by byte (rule R173) -/

theorem getElem?_ttlDecremented (h : 34 ≤ f.length) (o : Nat) :
    (ttlDecremented f)[o]? = if o = 22 then some (BitVec.ofNat 8 (ttlOf f + 255)) else f[o]? := by
  unfold ttlDecremented
  rw [getElem?_patch (by simp; omega)]
  simp only [List.length_singleton]
  by_cases h : o = 22
  · subst h; simp
  · rw [if_neg (by omega), if_neg h]

/-- Outside TTL and checksum the mutated frame is the frame. -/
theorem getElem?_mutatedFrame (h : 34 ≤ f.length) {o : Nat} (h₂₄ : o ≠ 24) (h₂₅ : o ≠ 25) :
    (mutatedFrame f)[o]? = if o = 22 then some (BitVec.ofNat 8 (ttlOf f + 255)) else f[o]? := by
  have hl := length_ttlDecremented (show 23 ≤ f.length by omega)
  unfold mutatedFrame rechecksummed
  rw [getElem?_patch (by rw [hl, length_beBytes]; omega), if_neg (by rw [length_beBytes]; omega),
    getElem?_ttlDecremented h]

/-- Outside the link addresses the forwarded frame is the mutated frame. -/
theorem getElem?_forwardedFrame (h : 34 ≤ f.length) (m src : LinkAddr) {o : Nat} (ho : 12 ≤ o) :
    (forwardedFrame f m src)[o]? = (mutatedFrame f)[o]? := by
  unfold forwardedFrame
  rw [getElem?_patch (by simp [length_mutatedFrame h]; omega), if_neg (by simp; omega)]

/-- Outside the link and IP addresses the swapped frame is the frame. -/
theorem getElem?_swappedFrame (h : 34 ≤ f.length) {o : Nat} (h₁₂ : 12 ≤ o) (h₂₆ : o < 26 ∨ 34 ≤ o) :
    (swappedFrame f)[o]? = f[o]? := by
  have hl : (patch f 0 ((f.drop 6).take 6 ++ f.take 6)).length = f.length := length_patch (by simp; omega)
  unfold swappedFrame
  rw [getElem?_patch (by rw [hl]; simp; omega), if_neg (by simp; omega), getElem?_patch (by simp; omega),
    if_neg (by simp; omega)]

/-- Outside the first four bytes of the ICMP segment the reply is the mutated swapped frame. -/
theorem getElem?_repliedFrame (hh : roomForHeader f) (hi : roomForIcmp f) {o : Nat}
    (ho : o < 14 + hlOf f ∨ 18 + hlOf f ≤ o) : (repliedFrame f)[o]? = (mutatedFrame (swappedFrame f))[o]? := by
  obtain ⟨h34, h5, hhl⟩ := hh
  obtain ⟨hi₁, hi₂⟩ := hi
  have l₁ : (mutatedFrame (swappedFrame f)).length = f.length :=
    (length_mutatedFrame (by rw [length_swappedFrame h34]; omega)).trans (length_swappedFrame h34)
  have l₂ : (patch (mutatedFrame (swappedFrame f)) (14 + hlOf f) [0, 0]).length = f.length :=
    (length_patch (by rw [l₁]; simp; omega)).trans l₁
  unfold repliedFrame rechecksummed
  rw [getElem?_patch (by rw [l₂]; simp; omega), if_neg (by simp; omega), getElem?_patch (by rw [l₁]; simp; omega),
    if_neg (by simp; omega)]

/-- A field depends on its bytes alone. -/
theorem field_congr {g : List Byte} {o n : Nat} (h : ∀ i, o ≤ i → i < o + n → f[i]? = g[i]?) :
    (f.drop o).take n = (g.drop o).take n := by
  refine List.ext_getElem? fun i => ?_
  by_cases hi : i < n
  · rw [getElem?_field_bytes hi, getElem?_field_bytes hi, h _ (by omega) (by omega)]
  · have h₁ : ((f.drop o).take n).length ≤ i := by rw [List.length_take]; omega
    have h₂ : ((g.drop o).take n).length ≤ i := by rw [List.length_take]; omega
    rw [List.getElem?_eq_none h₁, List.getElem?_eq_none h₂]

/-! ### The stages -/

/-- Stage S1 (rules R163, R164). -/
theorem s1Classify_eq (h : s.FrameIs f) (rx : BitVec 8) :
    s1Classify rx s =
      if f.length < 14 then .ok (frameRefused (s.withStage .s1Classify))
      else if etherTypeOf f ≠ 0x0800 then .ok (dropped .unsupportedProtocol (s.withStage .s1Classify))
      else if f.length < 34 ∨ ihlOf f < 5 ∨ f.length < 14 + hlOf f then
        .ok (frameRefused (s.withStage .s1Classify))
      else s2SelfCheck rx (hlOf f) (s.withStage .s1Classify) := by
  have h' : (s.withStage .s1Classify).FrameIs f := h.congr rfl rfl
  have hne : ∀ n : Nat, n < 2 ^ 16 → ((BitVec.ofNat (8 * 2) n : BitVec 16) ≠ ethertypeIpv4 ↔ n ≠ 0x0800) := by
    intro n hn
    rw [Ne, ← BitVec.toNat_inj, BitVec.toNat_ofNat, Nat.mod_eq_of_lt hn]
    rfl
  unfold s1Classify
  dsimp only
  rw [h'.flen]
  by_cases h₁ : f.length < 14
  · rw [if_pos h₁]
    exact if_pos h₁
  · rw [if_neg h₁]
    refine (if_neg h₁).trans ?_
    rw [memRead_of_frame h' (by simp only [offEthertype]; omega)]
    show (if BitVec.ofNat (8 * 2) (field f 12 2) ≠ ethertypeIpv4 then _ else _) = _
    by_cases h₂ : etherTypeOf f ≠ 0x0800
    · rw [if_pos h₂]
      exact if_pos ((hne _ field_lt).2 h₂)
    · rw [if_neg h₂]
      refine (if_neg (fun hc => h₂ ((hne _ field_lt).1 hc))).trans ?_
      by_cases h₃ : f.length < 34
      · exact (if_pos h₃).trans (if_pos (Or.inl h₃)).symm
      · refine (if_neg h₃).trans ?_
        rw [memRead_of_frame h' (by simp only [offIhl]; omega)]
        show (if (BitVec.ofNat (8 * 1) (field f 14 1)).toNat % 16 < 5 then _ else
          if f.length < ethHlen + 4 * ((BitVec.ofNat (8 * 1) (field f 14 1)).toNat % 16) then _
          else s2SelfCheck rx (4 * ((BitVec.ofNat (8 * 1) (field f 14 1)).toNat % 16)) _) = _
        rw [toNat_field]
        by_cases h₄ : ihlOf f < 5
        · exact (if_pos h₄).trans (if_pos (Or.inr (Or.inl h₄))).symm
        · refine (if_neg h₄).trans ?_
          by_cases h₅ : f.length < 14 + hlOf f
          · exact (if_pos h₅).trans (if_pos (Or.inr (Or.inr h₅))).symm
          · exact (if_neg h₅).trans (if_neg (by omega)).symm

/-- An interface that has been set can be read (rules R29, R37). -/
theorem ifEntry_of_hasInterface {s : State} {i : BitVec 8} {e : IfEntry} (h : s.HasInterface i e) :
    ifEntry s i = .ok e := by
  simp [ifEntry, h.1, h.2]

/-- An entry that is read is one that exists and has been set. -/
theorem ifEntry_eq_ok {s : State} {i : BitVec 8} {e : IfEntry} (h : ifEntry s i = .ok e) : s.HasInterface i e := by
  unfold ifEntry at h
  split at h
  · split at h
    · injection h with h
      exact ⟨h ▸ ‹_›, h ▸ ‹_›⟩
    · exact absurd h (by simp)
  · exact absurd h (by simp)

/-- Stage S2 (rule R165). -/
theorem s2SelfCheck_eq (h : s.FrameIs f) (hl : 34 ≤ f.length) {rx : BitVec 8} {own : IfEntry}
    (ho : s.HasInterface rx own) (n : Nat) :
    s2SelfCheck rx n s =
      if ipDstOf f = own.ip then s2eEchoReply rx n (s.withStage .s2SelfCheck)
      else s3CsumValidate n (ipDstOf f) (s.withStage .s2SelfCheck) := by
  have h' : (s.withStage .s2SelfCheck).FrameIs f := h.congr rfl rfl
  rw [s2SelfCheck, memRead_of_frame h' (by simp only [offIpDst]; omega)]
  show (ifEntry (s.withStage .s2SelfCheck) rx >>= _) = _
  rw [ifEntry_of_hasInterface (s := s.withStage .s2SelfCheck) ho]
  rfl

/-- Stage S2E (rules R166, R167). -/
theorem s2eEchoReply_eq (h : s.FrameIs f) (hh : roomForHeader f) (rx : BitVec 8) :
    (¬roomForIcmp f → s2eEchoReply rx (hlOf f) s = .ok (frameRefused (s.withStage .s2eEchoReply))) ∧
    (roomForIcmp f → ∃ u, s.HoldsFrame u (repliedFrame f) ∧ s.OnlyProcesses u ∧
      s2eEchoReply rx (hlOf f) s =
        .ok ((u.respond (emitResponse .replied rx u.flen) (repliedFrame f)).withStage .idle)) := by
  have h' : (s.withStage .s2eEchoReply).FrameIs f := h.congr rfl rfl
  have e : s2eEchoReply rx (hlOf f) s =
      if totlenOf f < hlOf f + 4 then .ok (frameRefused (s.withStage .s2eEchoReply))
      else if f.length < 14 + totlenOf f then .ok (frameRefused (s.withStage .s2eEchoReply))
      else echoRewrite (hlOf f) (totlenOf f) (s.withStage .s2eEchoReply) >>= emitted .replied rx := by
    rw [s2eEchoReply, memRead_of_frame h' (by have := hh.1; simp only [offTotlen]; omega)]
    show (if (BitVec.ofNat (8 * 2) (field f 16 2)).toNat < hlOf f + 4 then _
      else if (s.withStage .s2eEchoReply).flen.toNat < ethHlen + (BitVec.ofNat (8 * 2) (field f 16 2)).toNat then _
      else echoRewrite (hlOf f) (BitVec.ofNat (8 * 2) (field f 16 2)).toNat _ >>= _) = _
    rw [toNat_field, h'.flen]
    rfl
  rw [e]
  refine ⟨fun hi => ?_, fun hi => ?_⟩
  · by_cases h₁ : totlenOf f < hlOf f + 4
    · exact if_pos h₁
    · refine (if_neg h₁).trans (if_pos ?_)
      unfold roomForIcmp at hi
      omega
  · obtain ⟨u, hu, hf⟩ := echoRewrite_holds h' hh hi
    refine ⟨u, ⟨hf.1, hf.2⟩, (withStage_onlyProcesses s _).trans (echoRewrite_onlyProcesses hu), ?_⟩
    unfold roomForIcmp at hi
    rw [if_neg (by omega), if_neg (by omega), hu]
    show emitted _ _ u = _
    rw [emitted, fbRange_whole hf.1]
    rfl

/-- Stage S3 (rule R168). -/
theorem s3CsumValidate_eq (h : s.FrameIs f) (hh : roomForHeader f) (dst : Addr) :
    ∃ u, s.HoldsFrame u f ∧ s.OnlyProcesses u ∧
      (headerValid f → s3CsumValidate (hlOf f) dst s = s4RouteLookup (hlOf f) dst u) ∧
      (¬headerValid f → s3CsumValidate (hlOf f) dst s = .ok (dropped .badChecksum u)) := by
  have h' : (s.withStage .s3CsumValidate).FrameIs f := h.congr rfl rfl
  have hl := hh.1
  have e : s3CsumValidate (hlOf f) dst s =
      if validate (headerOf f) ipCoff (BitVec.ofNat (8 * 2) (field f 24 2)) then
        s4RouteLookup (hlOf f) dst (withSum (zeroField (headerOf f) ipCoff) (s.withStage .s3CsumValidate))
      else .ok (dropped .badChecksum (withSum (zeroField (headerOf f) ipCoff) (s.withStage .s3CsumValidate))) := by
    rw [s3CsumValidate, memRead_of_frame h' (by simp only [offIpCsum]; omega)]
    show (fbRange (s.withStage .s3CsumValidate) 14 (hlOf f) >>= _) = _
    rw [fbRange_of_frame h' hh.2.2]
    rfl
  refine ⟨withSum (zeroField (headerOf f) ipCoff) (s.withStage .s3CsumValidate), h.holds rfl rfl, rfl, fun hv => ?_,
    fun hv => ?_⟩
  · rw [e, if_pos ((validate_iff f).2 hv)]
  · rw [e, if_neg (fun hc => hv ((validate_iff f).1 hc))]

/-- The match found depends on the trie and the address alone. -/
theorem trieLookup_best_congr {s t : State} (h : t.trie = s.trie) (a : Addr) :
    (trieLookup a t).best = (trieLookup a s).best := by
  have hb : ∀ (bs : List Bool) (s t : State), t.trie = s.trie → t.cur = s.cur → t.best = s.best →
      (lookupWalk bs t).best = (lookupWalk bs s).best := by
    have hv : ∀ s t : State, t.trie = s.trie → t.cur = s.cur → t.best = s.best →
        (visit t).best = (visit s).best ∧ (visit t).trie = (visit s).trie ∧ (visit t).cur = (visit s).cur := by
      intro s t h₁ h₂ h₃
      unfold visit
      rw [h₁, h₂]
      split <;> simp [h₁, h₂, h₃]
    intro bs
    induction bs with
    | nil => exact fun s t h₁ h₂ h₃ => (hv s t h₁ h₂ h₃).1
    | cons b bs ih =>
      intro s t h₁ h₂ h₃
      obtain ⟨v₁, v₂, v₃⟩ := hv s t h₁ h₂ h₃
      unfold lookupWalk
      dsimp only
      rw [v₂, v₃]
      split
      · exact ih _ _ (by simpa using v₂) rfl (by simpa using v₁)
      · exact v₁
  exact hb _ _ _ (by simpa using h) rfl rfl

/-- Stages S4 and S5: the route, then the TTL (rules R169, R170). -/
theorem s4RouteLookup_eq (h : s.FrameIs f) (hl : 34 ≤ f.length) (n : Nat) (dst : Addr) :
    ∃ u, s.HoldsFrame u f ∧ s.OnlyProcesses u ∧
      ((trieLookup dst s).best = none → s4RouteLookup n dst s = .ok (dropped .noRoute u)) ∧
      (∀ r, (trieLookup dst s).best = some r → ttlOf f = 0 →
        s4RouteLookup n dst s = .ok (dropped .ttlExceeded (u.withStage .s5TtlCheck))) ∧
      ∀ r, (trieLookup dst s).best = some r → 1 ≤ ttlOf f →
        s4RouteLookup n dst s = s6MutateResolve n r (u.withStage .s5TtlCheck) := by
  have hb := trieLookup_best_congr (s := s) (t := s.withStage .s4RouteLookup) rfl dst
  have hf := trieLookup_fb dst (s.withStage .s4RouteLookup)
  have hu : s.HoldsFrame (trieLookup dst (s.withStage .s4RouteLookup)) f := h.holds hf.1 hf.2
  have e : ∀ r, (trieLookup dst s).best = some r → s4RouteLookup n dst s =
      if ttlOf f < 1 then .ok (dropped .ttlExceeded ((trieLookup dst (s.withStage .s4RouteLookup)).withStage .s5TtlCheck))
      else s6MutateResolve n r ((trieLookup dst (s.withStage .s4RouteLookup)).withStage .s5TtlCheck) := by
    intro r hr
    rw [← hb] at hr
    have h' : ((trieLookup dst (s.withStage .s4RouteLookup)).withStage .s5TtlCheck).FrameIs f := hu.1.congr rfl rfl
    simp only [s4RouteLookup, hr, s5TtlCheck]
    rw [memRead_of_frame h' (by simp only [offTtl]; omega)]
    show (if (BitVec.ofNat (8 * 1) (field f 22 1)).toNat < 1 then _ else _) = _
    rw [toNat_field]
    rfl
  refine ⟨_, hu, (withStage_onlyProcesses s _).trans (trieLookup_onlyProcesses dst _), fun hr => ?_, fun r hr ht => ?_,
    fun r hr ht => ?_⟩
  · rw [← hb] at hr
    simp only [s4RouteLookup, hr]
  · rw [e r hr, if_pos (by omega)]
  · rw [e r hr, if_neg (by omega)]

/-- Stages S6 and S7: the mutation, the neighbour, and the frame on its way (rules R171, R172). -/
theorem s6MutateResolve_eq (h : s.FrameIs f) (hh : roomForHeader f) (r : RouteEntry) :
    ∃ u, s.HoldsFrame u (mutatedFrame f) ∧ s.OnlyProcesses u ∧
      (nbrResolve s.nbr r.nextHop = none → s6MutateResolve (hlOf f) r s = .ok (dropped .neighborMiss u)) ∧
      ∀ m out, nbrResolve s.nbr r.nextHop = some m → s.HasInterface r.egress out →
        ∃ v, s.HoldsFrame v (forwardedFrame f m out.linkAddress) ∧ s.OnlyProcesses v ∧
          s6MutateResolve (hlOf f) r s =
            .ok ((v.respond (emitResponse .transmitted r.egress v.flen)
              (forwardedFrame f m out.linkAddress)).withStage .idle) := by
  obtain ⟨h34, -, hhl⟩ := hh
  have h₀ : (s.withStage .s6MutateResolve).FrameIs f := h.congr rfl rfl
  obtain ⟨t, e₁, f₁, -⟩ := decrementTtl_holds h₀ h34
  have l₁ : (ttlDecremented f).length = f.length := length_ttlDecremented (by omega)
  obtain ⟨u, e₂, f₂, -⟩ := rewriteChecksum_holds f₁.1 (o := 24) (start := 14) (n := hlOf f) (by omega) (by omega)
  have f₂ : t.HoldsFrame u (mutatedFrame f) := f₂
  have l₂ := length_mutatedFrame h34
  have hu : (s.withStage .s6MutateResolve).HoldsFrame u (mutatedFrame f) := f₁.trans f₂ (l₂.trans l₁.symm)
  have ho : s.OnlyProcesses u := ((withStage_onlyProcesses s _).trans (decrementTtl_onlyProcesses e₁)).trans
    (rewriteChecksum_onlyProcesses e₂)
  obtain ⟨-, -, -, -, hn, -, hi, -⟩ := onlyProcesses_iff.1 ho
  have e : s6MutateResolve (hlOf f) r s =
      match nbrResolve s.nbr r.nextHop with
      | none => .ok (dropped .neighborMiss u)
      | some m => s7Forward r m u := by
    rw [s6MutateResolve]
    show (decrementTtl (s.withStage .s6MutateResolve) >>= _) = _
    rw [e₁]
    show (rewriteChecksum 24 14 (hlOf f) t >>= _) = _
    rw [e₂]
    show (match nbrResolve u.nbr r.nextHop with | none => _ | some m => _) = _
    rw [hn]
  refine ⟨u, ⟨hu.1, hu.2⟩, ho, fun hm => by rw [e, hm], fun m out hm hout => ?_⟩
  have h₁ : (u.withStage .s7Forward).FrameIs (mutatedFrame f) := hu.1.congr rfl rfl
  obtain ⟨v, e₃, f₃, -⟩ := memWrite_holds h₁ (o := 0) (n := 6) (by omega) m
  have l₃ : (patch (mutatedFrame f) 0 (beBytes 6 m.toNat)).length = f.length :=
    (length_patch (by rw [l₂, length_beBytes]; omega)).trans l₂
  obtain ⟨w, e₄, f₄, -⟩ := memWrite_holds f₃.1 (o := 6) (n := 6) (by omega) out.linkAddress
  have hp := patch_patch (f := mutatedFrame f) (xs := beBytes 6 m.toNat) (ys := beBytes 6 out.linkAddress.toNat)
    (o := 0) (by rw [l₂, length_beBytes, length_beBytes]; omega)
  rw [length_beBytes, Nat.zero_add] at hp
  rw [hp] at f₄
  have l₄ := length_forwardedFrame h34 m out.linkAddress
  have f₄ : v.HoldsFrame w (forwardedFrame f m out.linkAddress) := f₄
  have hv : (u.withStage .s7Forward).OnlyProcesses v := memWrite_onlyProcesses e₃
  have hvi : v.HasInterface r.egress out := by
    obtain ⟨-, -, -, -, -, -, hvi, -⟩ := onlyProcesses_iff.1 hv
    rw [State.HasInterface, hvi, State.withStage_ift, hi]
    exact hout
  refine ⟨w, ?_, ?_, ?_⟩
  · have := (f₃.trans f₄ (l₄.trans l₃.symm))
    have hx : u.HoldsFrame w (forwardedFrame f m out.linkAddress) := ⟨this.1, this.2⟩
    have := hu.trans hx (l₄.trans l₂.symm)
    exact ⟨this.1, this.2⟩
  · exact ((ho.trans (withStage_onlyProcesses u _)).trans hv).trans (memWrite_onlyProcesses e₄)
  · rw [e, hm]
    show s7Forward r m u = _
    rw [s7Forward]
    show (memWrite (u.withStage .s7Forward) 0 6 m >>= _) = _
    rw [e₃]
    show (ifEntry v r.egress >>= _) = _
    rw [ifEntry_of_hasInterface hvi]
    show (memWrite v 6 6 out.linkAddress >>= _) = _
    rw [e₄]
    show emitted _ _ w = _
    rw [emitted, fbRange_whole f₄.1]
    rfl
end

end Sys2Proof.Machine
end

