-- ==== Sys2Proof/Laws/Step.lean ====
section
/-! SUPPORT. What a step can do: the arms of `exec` as the checks of rule R90 before each command's rule, and the
cases of a step. -/

namespace Sys2Proof.Machine

open Sys2Proof

/-! ### The arms of `exec` -/

section
variable (s : State)

theorem exec_ifSet (ifid : BitVec 8) (ip : Addr) (mac : LinkAddr) :
    exec (.ifSet ifid ip mac) s = checked .ifSet true s fun s => .next (ifSet ifid ip mac s) := rfl

theorem exec_rtInsert (pfx mask nextHop : Addr) (ifid : BitVec 8) :
    exec (.rtInsert pfx mask nextHop ifid) s = checked .rtInsert true s fun s =>
      .next (rtInsert { pfx := pfx, mask := mask, nextHop := nextHop, egress := ifid } s) := rfl

theorem exec_nbInsert (ip : Addr) (mac : LinkAddr) :
    exec (.nbInsert ip mac) s =
      checked .nbInsert true s fun s => .next (nbInsert { ip := ip, linkAddress := mac } s) := rfl

theorem exec_cfgSeal : exec .cfgSeal s = checked .cfgSeal true s fun s => .next (cfgSeal s) := rfl

theorem exec_stRead : exec .stRead s = checked .stRead true s fun s => .next (stRead s) := rfl

theorem exec_rtLookup (ip : Addr) :
    exec (.rtLookup ip) s = checked .rtLookup true s fun s => .next (rtLookup ip s) := rfl

theorem exec_nbResolve (ip : Addr) :
    exec (.nbResolve ip) s = checked .nbResolve true s fun s => .next (nbResolve ip s) := rfl

theorem exec_csCompute (p : List Byte) :
    exec (.csCompute p) s =
      checked .csCompute (lenLegal s.params p) s fun s => ofAccess (csCompute p s) := rfl

theorem exec_csValidate (coff claimed : BitVec 16) (p : List Byte) :
    exec (.csValidate coff claimed p) s = checked .csValidate (lenLegal s.params p && coffLegal coff p) s fun s =>
      ofAccess (csValidate coff claimed p s) := rfl

theorem exec_pktProcess (ifid : BitVec 8) (p : List Byte) :
    exec (.pktProcess ifid p) s =
      checked .pktProcess (lenLegal s.params p && ifidLegal s.params ifid) s fun s =>
        ofAccess (pktProcess ifid p s) := rfl
end

/-- What an executed command did: it was refused for its phase, or for its operands, or ran its rule. -/
theorem exec_cases {i : Instr} {s t : State} (h : exec i s = .next t) :
    (permitted i.opcode s.phase = false ∧ t = refuse .errPhase s) ∨
    (permitted i.opcode s.phase = true ∧ t = refuse .errOperand s) ∨
    (permitted i.opcode s.phase = true ∧
      ((∃ ifid ip mac, i = .ifSet ifid ip mac ∧ t = ifSet ifid ip mac s) ∨
      (∃ e : RouteEntry, i = .rtInsert e.pfx e.mask e.nextHop e.egress ∧ t = rtInsert e s) ∨
      (∃ e : NeighborEntry, i = .nbInsert e.ip e.linkAddress ∧ t = nbInsert e s) ∨
      (i = .cfgSeal ∧ t = cfgSeal s) ∨
      (i = .stRead ∧ t = stRead s) ∨
      (∃ ip, i = .rtLookup ip ∧ t = rtLookup ip s) ∨
      (∃ ip, i = .nbResolve ip ∧ t = nbResolve ip s) ∨
      (∃ p, i = .csCompute p ∧ lenLegal s.params p = true ∧ csCompute p s = .ok t) ∨
      (∃ coff claimed p, i = .csValidate coff claimed p ∧ lenLegal s.params p = true ∧ coffLegal coff p = true ∧
        csValidate coff claimed p s = .ok t) ∨
      ∃ ifid p, i = .pktProcess ifid p ∧ lenLegal s.params p = true ∧ ifidLegal s.params ifid = true ∧
        pktProcess ifid p s = .ok t)) := by
  cases i <;>
  · simp only [exec_ifSet, exec_rtInsert, exec_nbInsert, exec_cfgSeal, exec_stRead, exec_rtLookup, exec_nbResolve,
      exec_csCompute, exec_csValidate, exec_pktProcess] at h
    obtain ⟨hp, rfl⟩ | ⟨hp, -, rfl⟩ | ⟨hp, ho, hr⟩ := checked_eq_next h
    · exact .inl ⟨hp, rfl⟩
    · exact .inr (.inl ⟨hp, rfl⟩)
    · refine .inr (.inr ⟨hp, ?_⟩)
      simp only [ofAccess_eq_next, Host.Outcome.next.injEq, Bool.and_eq_true] at hr ho
      simp [hr, ho]
      try exact ⟨⟨_, _, _, _⟩, by simp, hr.symm⟩
      try exact ⟨⟨_, _⟩, by simp, hr.symm⟩

/-! ### The step -/

theorem step_of_command {s : State} {c : Command} {later : List HostEvent} (h : s.host = .command c :: later) :
    step s = runCommand c later s := by
  unfold step runEvent
  rw [h]

theorem step_of_reset {s : State} {later : List HostEvent} (h : s.host = .reset :: later) :
    step s = .next (runReset later s) := by
  unfold step runEvent
  rw [h]

/-- Everything a step that has a next state did: the block waited, was reset, refused a command that does not decode, or
executed the command that its host presented. -/
theorem step_cases {s t : State} (h : step s = .next t) :
    (s.host = [] ∧ t = s) ∨
    (∃ later, s.host = .reset :: later ∧ t = runReset later s) ∨
    ∃ c later, s.host = .command c :: later ∧ c.payload.length = (lenField c.word).toNat ∧
      ((decode c = .error (.illegalOpcode (opField c.word)) ∧ t = refuse .errOpcode (acceptCommand c later s)) ∨
      (∃ op, decode c = .error (.reservedBits op) ∧ t = refuseReserved op (acceptCommand c later s)) ∨
      ∃ i, decode c = .ok i ∧ exec i (acceptCommand c later s) = .next t) := by
  unfold step runEvent at h
  split at h
  · rename_i hh
    exact .inl ⟨hh, by injection h with h; exact h.symm⟩
  · rename_i later hh
    exact .inr (.inl ⟨later, hh, by injection h with h; exact h.symm⟩)
  · rename_i c later hh
    refine .inr (.inr ⟨c, later, hh, ?_⟩)
    by_cases hl : c.payload.length = (lenField c.word).toNat
    · refine ⟨hl, ?_⟩
      unfold runCommand at h
      split at h
      · exact absurd h (by simp)
      · rename_i op hd
        have : op = opField c.word := by
          unfold decode at hd
          rw [if_pos hl] at hd
          split at hd
          · injection hd with hd; injection hd with hd; exact hd.symm
          · split at hd <;> simp at hd
        subst this
        exact .inl ⟨hd, by injection h with h; exact h.symm⟩
      · rename_i op hd
        exact .inr (.inl ⟨op, hd, by injection h with h; exact h.symm⟩)
      · rename_i i hd
        exact .inr (.inr ⟨i, hd, h⟩)
    · unfold runCommand at h
      rw [decode_lengthMismatch hl] at h
      exact absurd h (by simp)

/-- The reserved-bit refusal is one of the two refusals. -/
theorem refuseReserved_cases (op : Opcode) (s : State) :
    refuseReserved op s = refuse .errOperand s ∨ refuseReserved op s = refuse .errPhase s := by
  unfold refuseReserved
  split
  · exact .inl rfl
  · exact .inr rfl

end Sys2Proof.Machine
end

