-- ==== Sys2Proof/Laws/Trie.lean ====
section
/-! SUPPORT. The node store as a map from keys to routes, and what the two walks over it do. -/

namespace Sys2Proof.Machine

open Sys2Proof

/-! ### The node store (rules R24, R27) -/

theorem Trie.mem_keys (t : Trie) (k : Key) : k ∈ t.keys ↔ t.hasNode k = true := by
  induction t generalizing k with
  | absent => simp [Trie.keys, Trie.hasNode]
  | node route zero one ihz iho =>
    cases k with
    | nil => simp [Trie.keys, Trie.hasNode]
    | cons b k => cases b <;> simp [Trie.keys, Trie.hasNode, ihz, iho]

theorem Trie.keys_nodup (t : Trie) : t.keys.Nodup := by
  induction t with
  | absent => simp [Trie.keys]
  | node route zero one ihz iho =>
    have hb : ∀ b : Bool, Function.Injective (List.cons b) := fun b x y h => (List.cons.inj h).2
    simp only [Trie.keys, List.nodup_cons, List.nodup_append, List.mem_append, List.mem_map]
    refine ⟨by simp, ihz.map (hb _), iho.map (hb _), ?_⟩
    rintro x ⟨_, _, rfl⟩ y ⟨_, _, rfl⟩
    simp

/-- The nodes are prefix-closed. -/
theorem Trie.hasNode_of_prefix {t : Trie} {k k' : Key} (h : k' <+: k) (hk : t.hasNode k = true) :
    t.hasNode k' = true := by
  induction t generalizing k k' with
  | absent => simp [Trie.hasNode] at hk
  | node route zero one ihz iho =>
    cases k' with
    | nil => simp [Trie.hasNode]
    | cons b k' =>
      obtain ⟨l, rfl⟩ := h
      cases b
      · exact ihz (List.prefix_append k' l) hk
      · exact iho (List.prefix_append k' l) hk

/-- A key that owns a route is a node. -/
theorem Trie.hasNode_of_routeAt {t : Trie} {k : Key} {r : RouteEntry} (h : t.routeAt k = some r) :
    t.hasNode k = true := by
  induction t generalizing k with
  | absent => simp [Trie.routeAt] at h
  | node route zero one ihz iho =>
    cases k with
    | nil => simp [Trie.hasNode]
    | cons b k =>
      cases b
      · exact ihz h
      · exact iho h

theorem Trie.routeAt_of_not_hasNode {t : Trie} {k : Key} (h : t.hasNode k = false) : t.routeAt k = none := by
  cases hr : t.routeAt k with
  | none => rfl
  | some r => simp [Trie.hasNode_of_routeAt hr] at h

/-- A new child adds its key and no other. -/
theorem Trie.hasNode_addNode {t : Trie} {k : Key} (b : Bool) (h : t.hasNode k = true) (k' : Key) :
    (t.addNode (k ++ [b])).hasNode k' = (k' == k ++ [b] || t.hasNode k') := by
  induction t generalizing k k' with
  | absent => simp [Trie.hasNode] at h
  | node route zero one ihz iho =>
    cases k with
    | nil =>
      have hn : ∀ (t : Trie) (k : Key), (t.addNode []).hasNode k = (k == [] || t.hasNode k) := by
        intro t k
        cases t <;> cases k <;> simp [Trie.addNode, Trie.hasNode]
      cases k' with
      | nil => cases b <;> simp [Trie.addNode, Trie.hasNode]
      | cons c k' => cases b <;> cases c <;> simp [Trie.addNode, Trie.hasNode, hn]
    | cons c k =>
      cases k' with
      | nil => cases c <;> simp [Trie.addNode, Trie.hasNode]
      | cons d k' =>
        cases c
        · cases d
          · simpa [Trie.addNode, Trie.hasNode] using ihz h k'
          · simp [Trie.addNode, Trie.hasNode]
        · cases d
          · simp [Trie.addNode, Trie.hasNode]
          · simpa [Trie.addNode, Trie.hasNode] using iho h k'

/-- A new child owns no route. -/
theorem Trie.routeAt_addNode (t : Trie) (k k' : Key) : (t.addNode k).routeAt k' = t.routeAt k' := by
  induction t generalizing k k' with
  | absent => cases k <;> cases k' <;> simp [Trie.addNode, Trie.routeAt]
  | node route zero one ihz iho =>
    cases k with
    | nil => rfl
    | cons b k =>
      cases k' with
      | nil => cases b <;> simp [Trie.addNode, Trie.routeAt]
      | cons c k' => cases b <;> cases c <;> simp [Trie.addNode, Trie.routeAt, ihz, iho]

theorem Trie.length_keys_addNode {t : Trie} {k : Key} {b : Bool} (h : t.hasNode k = true)
    (hb : t.hasNode (k ++ [b]) = false) : (t.addNode (k ++ [b])).keys.length = t.keys.length + 1 := by
  have hmem : ∀ x, x ∈ (t.addNode (k ++ [b])).keys ↔ x ∈ (k ++ [b]) :: t.keys := by
    intro x
    rw [Trie.mem_keys, Trie.hasNode_addNode b h, List.mem_cons, Trie.mem_keys]
    simp
  have hnd : ((k ++ [b]) :: t.keys).Nodup :=
    List.nodup_cons.2 ⟨by rw [Trie.mem_keys, hb]; simp, t.keys_nodup⟩
  simpa using (((Trie.keys_nodup _).subperm (fun x hx => (hmem x).1 hx)).antisymm
    (hnd.subperm (fun x hx => (hmem x).2 hx))).length_eq

@[simp] theorem Trie.hasNode_setRoute (t : Trie) (k k' : Key) (e : RouteEntry) :
    (t.setRoute k e).hasNode k' = t.hasNode k' := by
  induction t generalizing k k' with
  | absent => rfl
  | node route zero one ihz iho =>
    cases k with
    | nil => cases k' <;> rfl
    | cons b k =>
      cases k' with
      | nil => cases b <;> simp [Trie.setRoute, Trie.hasNode]
      | cons c k' => cases b <;> cases c <;> simp [Trie.setRoute, Trie.hasNode, ihz, iho]

@[simp] theorem Trie.keys_setRoute (t : Trie) (k : Key) (e : RouteEntry) : (t.setRoute k e).keys = t.keys := by
  induction t generalizing k with
  | absent => rfl
  | node route zero one ihz iho =>
    cases k with
    | nil => rfl
    | cons b k => cases b <;> simp [Trie.setRoute, Trie.keys, ihz, iho]

/-- The route stored at a node is read back there, and no other key's route changes. -/
theorem Trie.routeAt_setRoute {t : Trie} {k : Key} (h : t.hasNode k = true) (k' : Key) (e : RouteEntry) :
    (t.setRoute k e).routeAt k' = if k' = k then some e else t.routeAt k' := by
  induction t generalizing k k' with
  | absent => simp [Trie.hasNode] at h
  | node route zero one ihz iho =>
    cases k with
    | nil => cases k' <;> simp [Trie.setRoute, Trie.routeAt]
    | cons b k =>
      cases k' with
      | nil => cases b <;> simp [Trie.setRoute, Trie.routeAt]
      | cons c k' =>
        cases b
        · cases c
          · simpa [Trie.setRoute, Trie.routeAt] using ihz h k'
          · simp [Trie.setRoute, Trie.routeAt]
        · cases c
          · simp [Trie.setRoute, Trie.routeAt]
          · simpa [Trie.setRoute, Trie.routeAt] using iho h k'

/-- Two tries with the same nodes and the same routes are the same trie. -/
theorem Trie.ext_of_keys {t u : Trie} (hn : ∀ k, t.hasNode k = u.hasNode k) (hr : ∀ k, t.routeAt k = u.routeAt k) :
    t = u := by
  induction t generalizing u with
  | absent =>
    cases u with
    | absent => rfl
    | node _ _ _ => simpa [Trie.hasNode] using hn []
  | node route zero one ihz iho =>
    cases u with
    | absent => simpa [Trie.hasNode] using hn []
    | node route' zero' one' =>
      have h0 : route = route' := hr []
      have hz : zero = zero' := ihz (fun k => hn (false :: k)) (fun k => hr (false :: k))
      have ho : one = one' := iho (fun k => hn (true :: k)) (fun k => hr (true :: k))
      rw [h0, hz, ho]

/-! ### Keys -/

theorem take_key {m n : Nat} (v : Addr) (h : m ≤ n) : (key v n).take m = key v m := by
  simpa using (List.prefix_iff_eq_take.1 (key_prefix v h)).symm

/-! ### The insertion walk (rule R112) -/

/-- How many of the keys on the way from the node being visited along `bs` are no nodes yet. -/
def missingFrom (t : Trie) (cur : Key) (bs : List Bool) : Nat :=
  ((List.range bs.length).filter (fun n => !t.hasNode (cur ++ bs.take (n + 1)))).length

theorem missingFrom_cons (t : Trie) (cur : Key) (b : Bool) (bs : List Bool) :
    missingFrom t cur (b :: bs) = (if t.hasNode (cur ++ [b]) then 0 else 1) + missingFrom t (cur ++ [b]) bs := by
  have e : (fun n => !t.hasNode (cur ++ (b :: bs).take (n + 1))) ∘ Nat.succ =
      fun n => !t.hasNode (cur ++ [b] ++ bs.take (n + 1)) := by
    funext n
    simp
  unfold missingFrom
  rw [List.length_cons, List.range_succ_eq_map, List.filter_cons, List.filter_map, e]
  by_cases h : t.hasNode (cur ++ [b]) <;> simp [h, Nat.add_comm]

/-- A node above the way makes none of it less missing. -/
theorem missingFrom_addNode {t : Trie} {k : Key} (b : Bool) (h : t.hasNode k = true) (bs : List Bool) :
    missingFrom (t.addNode (k ++ [b])) (k ++ [b]) bs = missingFrom t (k ++ [b]) bs := by
  unfold missingFrom
  congr 1
  refine List.filter_congr fun n hn => ?_
  have hn := List.mem_range.1 hn
  have hne : (k ++ [b] ++ bs.take (n + 1) == k ++ [b]) = false := by
    refine beq_false_of_ne fun he => ?_
    have := congrArg List.length he
    rw [List.length_append, List.length_take] at this
    omega
  rw [Trie.hasNode_addNode b h, hne, Bool.false_or]

theorem missing_eq (t : Trie) (v : Addr) (n : Nat) : t.missing v n = missingFrom t [] (key v n) := by
  unfold Trie.missing missingFrom
  rw [length_key]
  congr 1
  refine List.filter_congr fun i hi => ?_
  rw [List.nil_append, take_key v (by have := List.mem_range.1 hi; omega)]

theorem missing_le (t : Trie) (v : Addr) (n : Nat) : t.missing v n ≤ n := by
  unfold Trie.missing
  exact (List.length_filter_le _ _).trans (by simp)

/-- Everything the insertion walk does from a node: the nodes on its way are there, no route changes, `NODE_CNT` grows
by the number of nodes created, the walk ends at the key it was sent to, and nothing else changes. -/
theorem insertWalk_spec (bs : List Bool) (s : State) (h : s.trie.hasNode s.cur = true) :
    (∀ k, (insertWalk bs s).trie.hasNode k = true ↔ s.trie.hasNode k = true ∨ k <+: s.cur ++ bs) ∧
    (∀ k, (insertWalk bs s).trie.routeAt k = s.trie.routeAt k) ∧
    (insertWalk bs s).trie.keys.length = s.trie.keys.length + missingFrom s.trie s.cur bs ∧
    (insertWalk bs s).nodeCnt = s.nodeCnt + BitVec.ofNat 32 (missingFrom s.trie s.cur bs) ∧
    (insertWalk bs s).cur = s.cur ++ bs ∧ (insertWalk bs s).depth = s.depth + bs.length ∧
    { insertWalk bs s with trie := s.trie, nodeCnt := s.nodeCnt, cur := s.cur, depth := s.depth } = s := by
  induction bs generalizing s with
  | nil =>
    refine ⟨fun k => ⟨.inl, ?_⟩, fun _ => rfl, rfl, ?_, by simp [insertWalk], rfl, rfl⟩
    · rintro (hk | hk)
      · exact hk
      · exact Trie.hasNode_of_prefix (by simpa using hk) h
    · simp [insertWalk, missingFrom]
  | cons b bs ih =>
    have hs : ∀ k, (insertStep b s).trie.hasNode k = (k == s.cur ++ [b] || s.trie.hasNode k) := by
      intro k
      unfold insertStep
      by_cases hc : s.trie.hasNode (s.cur ++ [b]) = true
      · by_cases hk : k = s.cur ++ [b]
        · simp [hc, hk]
        · simp [hc, hk]
      · simp [hc, Trie.hasNode_addNode b h]
    have hcur : (insertStep b s).cur = s.cur ++ [b] := rfl
    have hm : missingFrom (insertStep b s).trie (s.cur ++ [b]) bs = missingFrom s.trie (s.cur ++ [b]) bs := by
      unfold insertStep
      by_cases hc : s.trie.hasNode (s.cur ++ [b]) = true
      · simp [hc]
      · simp [hc, missingFrom_addNode b h]
    obtain ⟨i₁, i₂, i₃, i₄, i₅, i₆, i₇⟩ := ih (insertStep b s) (by rw [hs, hcur]; simp)
    have hw : insertWalk (b :: bs) s = insertWalk bs (insertStep b s) := rfl
    rw [hw]
    rw [hcur] at i₁ i₃ i₄ i₅
    rw [hm] at i₃ i₄
    refine ⟨fun k => ?_, fun k => ?_, ?_, ?_, ?_, ?_, ?_⟩
    · rw [i₁, hs, List.append_assoc, List.singleton_append]
      simp only [Bool.or_eq_true, beq_iff_eq]
      constructor
      · rintro ((rfl | hk) | hk)
        · exact .inr ⟨bs, by simp⟩
        · exact .inl hk
        · exact .inr hk
      · rintro (hk | hk)
        · exact .inl (.inr hk)
        · exact .inr hk
    · rw [i₂]
      unfold insertStep
      by_cases hc : s.trie.hasNode (s.cur ++ [b]) = true
      · simp [hc]
      · simp [hc, Trie.routeAt_addNode]
    · rw [i₃, missingFrom_cons]
      unfold insertStep
      by_cases hc : s.trie.hasNode (s.cur ++ [b]) = true
      · simp [hc]
      · simp [hc, Trie.length_keys_addNode h (by simpa using hc)]
        omega
    · rw [i₄, missingFrom_cons]
      unfold insertStep
      by_cases hc : s.trie.hasNode (s.cur ++ [b]) = true
      · simp [hc]
      · simp [hc, BitVec.ofNat_add, BitVec.add_assoc]
    · simp [i₅]
    · rw [i₆]
      simp [insertStep]
      omega
    · have e : { insertStep b s with trie := s.trie, nodeCnt := s.nodeCnt, cur := s.cur, depth := s.depth } = s := by
        unfold insertStep
        by_cases hc : s.trie.hasNode (s.cur ++ [b]) = true
        · simp only [hc, if_true]; rfl
        · simp only [hc]; rfl
      calc _ = { { insertWalk bs (insertStep b s) with
            trie := (insertStep b s).trie, nodeCnt := (insertStep b s).nodeCnt
            cur := (insertStep b s).cur, depth := (insertStep b s).depth } with
            trie := s.trie, nodeCnt := s.nodeCnt, cur := s.cur, depth := s.depth } := rfl
        _ = _ := by rw [i₇]; exact e

/-! ### The lookup walk (rule R118) -/

/-- Everything a visit does. -/
theorem visit_eq (s : State) : visit s = s.withWalk s.cur s.depth ((s.trie.routeAt s.cur).or s.best) := by
  unfold visit
  cases s.trie.routeAt s.cur <;> rfl

/-- Everything the lookup walk does: it ends at the deepest node on its way, with the route at the longest key on the
way that owns one (or the best match it started with), and changes nothing else. -/
theorem lookupWalk_spec (bs : List Bool) (s : State) :
    (∃ j, j ≤ bs.length ∧ (lookupWalk bs s).cur = s.cur ++ bs.take j ∧ (lookupWalk bs s).depth = s.depth + j ∧
      (s.trie.hasNode s.cur = true → s.trie.hasNode (s.cur ++ bs.take j) = true) ∧
      (j = bs.length ∨ s.trie.hasNode (s.cur ++ bs.take (j + 1)) = false)) ∧
    (∀ n r, n ≤ bs.length → s.trie.routeAt (s.cur ++ bs.take n) = some r →
      (∀ m, n < m → m ≤ bs.length → s.trie.routeAt (s.cur ++ bs.take m) = none) → (lookupWalk bs s).best = some r) ∧
    ((∀ n, n ≤ bs.length → s.trie.routeAt (s.cur ++ bs.take n) = none) → (lookupWalk bs s).best = s.best) ∧
    { lookupWalk bs s with cur := s.cur, depth := s.depth, best := s.best } = s := by
  induction bs generalizing s with
  | nil =>
    unfold lookupWalk
    rw [visit_eq]
    refine ⟨⟨0, by simp⟩, fun n r hn hr _ => ?_, fun hr => ?_, rfl⟩
    · simp at hr
      simp [hr]
    · have := hr 0 (by simp)
      simp at this
      simp [this]
  | cons b bs ih =>
    have e : lookupWalk (b :: bs) s = if s.trie.hasNode (s.cur ++ [b]) then
        lookupWalk bs (s.withWalk (s.cur ++ [b]) (s.depth + 1) ((s.trie.routeAt s.cur).or s.best))
        else s.withWalk s.cur s.depth ((s.trie.routeAt s.cur).or s.best) := by
      rw [lookupWalk, visit_eq]
      rfl
    by_cases hc : s.trie.hasNode (s.cur ++ [b]) = true
    · rw [e, if_pos hc]
      obtain ⟨⟨j, j₁, j₂, j₃, j₄, j₅⟩, i₂, i₃, i₄⟩ :=
        ih (s.withWalk (s.cur ++ [b]) (s.depth + 1) ((s.trie.routeAt s.cur).or s.best))
      simp only [State.withWalk_cur, State.withWalk_depth, State.withWalk_trie, State.withWalk_best,
        List.append_assoc, List.singleton_append] at j₂ j₃ j₄ j₅ i₂ i₃
      refine ⟨⟨j + 1, by simpa using j₁, by simpa using j₂, by omega, fun _ => by simpa using j₄ hc,
        by simpa using j₅⟩, fun n r hn hr hm => ?_, fun hr => ?_, ?_⟩
      · cases n with
        | zero =>
          rw [i₃ fun m hm' => by simpa using hm (m + 1) (by omega) (by simpa using hm')]
          simp at hr
          simp [hr]
        | succ n =>
          exact i₂ n r (by simpa using hn) (by simpa using hr) fun m h₁ h₂ => by
            simpa using hm (m + 1) (by omega) (by simpa using h₂)
      · rw [i₃ fun m hm' => by simpa using hr (m + 1) (by simpa using hm')]
        have := hr 0 (by simp)
        simp at this
        simp [this]
      · exact congrArg (fun u : State => { u with cur := s.cur, depth := s.depth, best := s.best }) i₄
    · have hc : s.trie.hasNode (s.cur ++ [b]) = false := by simpa using hc
      rw [e, hc]
      have hnone : ∀ m, 0 < m → s.trie.routeAt (s.cur ++ (b :: bs).take m) = none := by
        intro m hm
        refine Trie.routeAt_of_not_hasNode ?_
        by_contra hn
        have hp : s.cur ++ [b] <+: s.cur ++ (b :: bs).take m := by
          obtain ⟨m, rfl⟩ : ∃ m', m = m' + 1 := ⟨m - 1, by omega⟩
          exact ⟨bs.take m, by simp⟩
        rw [Trie.hasNode_of_prefix hp (by simpa using hn)] at hc
        exact absurd hc (by simp)
      refine ⟨⟨0, by simp [hc]⟩, fun n r hn hr hm => ?_, fun hr => ?_, rfl⟩
      · cases n with
        | zero =>
          simp at hr
          simp [hr]
        | succ n => rw [hnone _ (by omega)] at hr; exact absurd hr (by simp)
      · have := hr 0 (by simp)
        simp at this
        simp [this]

/-- `trie_lookup` in terms of the address's keys (rules R118, R119). -/
theorem trieLookup_spec (a : Addr) (s : State) :
    (∃ j, j ≤ 32 ∧ (trieLookup a s).cur = key a j ∧ (trieLookup a s).depth = j ∧
      (s.trie.hasNode [] = true → s.trie.hasNode (key a j) = true) ∧
      (j = 32 ∨ s.trie.hasNode (key a (j + 1)) = false)) ∧
    (∀ n r, n ≤ 32 → s.trie.routeAt (key a n) = some r →
      (∀ m, n < m → m ≤ 32 → s.trie.routeAt (key a m) = none) → (trieLookup a s).best = some r) ∧
    ((∀ n, n ≤ 32 → s.trie.routeAt (key a n) = none) → (trieLookup a s).best = none) ∧
    { trieLookup a s with cur := s.cur, depth := s.depth, best := s.best } = s := by
  obtain ⟨⟨j, j₁, j₂, j₃, j₄, j₅⟩, i₂, i₃, i₄⟩ := lookupWalk_spec (key a 32) (s.withWalk [] 0 none)
  simp only [State.withWalk_cur, State.withWalk_depth, State.withWalk_trie, State.withWalk_best,
    List.nil_append, length_key] at j₁ j₂ j₃ j₄ j₅ i₂ i₃
  refine ⟨⟨j, j₁, ?_, ?_, ?_, ?_⟩, fun n r hn hr hm => ?_, fun hr => ?_, ?_⟩
  · rw [← take_key a j₁]; exact j₂
  · exact j₃.trans (Nat.zero_add j)
  · rw [← take_key a j₁]; exact j₄
  · rcases j₅ with rfl | j₅
    · exact .inl rfl
    · by_cases hj : j = 32
      · exact .inl hj
      · rw [take_key a (by omega)] at j₅
        exact .inr j₅
  · refine i₂ n r hn (by rwa [take_key a hn]) fun m h₁ h₂ => ?_
    rw [take_key a h₂]
    exact hm m h₁ h₂
  · exact i₃ fun n hn => by rw [take_key a hn]; exact hr n hn
  · exact congrArg (fun u : State => { u with cur := s.cur, depth := s.depth, best := s.best }) i₄

/-- The match found is a stored route on the address's way, or there is none on it (rule R119). -/
theorem trieLookup_cases (a : Addr) (s : State) :
    ((trieLookup a s).best = none ∧ ∀ n, n ≤ 32 → s.trie.routeAt (key a n) = none) ∨
    ∃ n r, n ≤ 32 ∧ (trieLookup a s).best = some r ∧ s.trie.routeAt (key a n) = some r ∧
      ∀ m, n < m → m ≤ 32 → s.trie.routeAt (key a m) = none := by
  obtain ⟨_, h₂, h₃, _⟩ := trieLookup_spec a s
  have main : ∀ d, d ≤ 33 → (∀ m, m ≤ 32 → d ≤ m → s.trie.routeAt (key a m) = none) ∨
      ∃ n r, n ≤ 32 ∧ s.trie.routeAt (key a n) = some r ∧
        ∀ m, n < m → m ≤ 32 → s.trie.routeAt (key a m) = none := by
    intro d hd
    induction hk : 33 - d generalizing d with
    | zero => exact .inl fun m h₁ h₂ => by omega
    | succ k ih =>
      rcases ih (d + 1) (by omega) (by omega) with h | h
      · cases hr : s.trie.routeAt (key a d) with
        | none =>
          refine .inl fun m h₁ h₂ => ?_
          rcases Nat.eq_or_lt_of_le h₂ with rfl | h₂
          · exact hr
          · exact h m h₁ h₂
        | some r => exact .inr ⟨d, r, by omega, hr, fun m h₁ h₂ => h m h₂ h₁⟩
      · exact .inr h
  rcases main 0 (by omega) with h | ⟨n, r, hn, hr, hm⟩
  · exact .inl ⟨h₃ fun n hn => h n hn (by omega), fun n hn => h n hn (by omega)⟩
  · exact .inr ⟨n, r, hn, h₂ n r hn hr hm, hr, hm⟩

end Sys2Proof.Machine
end

