-- ==== Sys2Proof/Tests/Slice0.lean ====
section
/-! SUPPORT. Tests: what the check of form refuses, words of `spec/95_test_vectors.md` and `spec/30_encoding.md` rule R94
decoded, one step of every command on the vectors of `spec/95_test_vectors.md`, and for every statement with hypotheses a
state and operands that meet them. Expected values are the spec's. -/

namespace Sys2Proof.Tests

open Sys2Proof Sys2Proof.Machine

/- The tests are elaborated one after the other: each waits for the kernel, and a hundred waiting threads are more than
the memory limit of the check allows. -/
section
set_option Elab.async false

/-! ### WellFormed -/

theorem test_wellFormed_refuses_long_csCompute (p : List Byte) (h : p.length = 65536) :
    ¬(Instr.csCompute p).WellFormed := by simp [Instr.WellFormed, Instr.payloadFits, Instr.payload, h]

theorem test_wellFormed_refuses_long_csValidate (p : List Byte) (h : p.length = 65536) :
    ¬(Instr.csValidate 0 0 p).WellFormed := by simp [Instr.WellFormed, Instr.payloadFits, Instr.payload, h]

theorem test_wellFormed_refuses_long_pktProcess (p : List Byte) (h : p.length = 65536) :
    ¬(Instr.pktProcess 0 p).WellFormed := by simp [Instr.WellFormed, Instr.payloadFits, Instr.payload, h]

/-- An ill-formed term: a payload one byte too long for the field `LEN`. -/
theorem test_wellFormed_refuses_a_term : ∃ p : List Byte, ¬(Instr.csCompute p).WellFormed :=
  ⟨List.replicate 65536 0, test_wellFormed_refuses_long_csCompute _ List.length_replicate⟩

theorem test_wellFormed_allows_longest (p : List Byte) (h : p.length = 65535) : (Instr.csCompute p).WellFormed := by
  simp [Instr.WellFormed, Instr.payloadFits, Instr.payload, h]

/-! ### Decode: words written out from the encoding tables -/

theorem test_decode_ifSet :
    decode ⟨0x01010000C0A801010000DEADBEEF0001, []⟩ = .ok (.ifSet 1 0xC0A80101 0xDEADBEEF0001) := by decide

theorem test_decode_rtInsert :
    decode ⟨0x020200000A000105FFFFFFFF0AFF0202, []⟩ = .ok (.rtInsert 0x0A000105 0xFFFFFFFF 0x0AFF0202 2) := by decide

theorem test_decode_nbInsert :
    decode ⟨0x03000000C0A800020000AABBCC000002, []⟩ = .ok (.nbInsert 0xC0A80002 0xAABBCC000002) := by decide

theorem test_decode_cfgSeal : decode ⟨0x04000000000000000000000000000000, []⟩ = .ok .cfgSeal := by decide

theorem test_decode_stRead : decode ⟨0x05000000000000000000000000000000, []⟩ = .ok .stRead := by decide

theorem test_decode_rtLookup :
    decode ⟨0x100000000A0002070000000000000000, []⟩ = .ok (.rtLookup 0x0A000207) := by decide

theorem test_decode_nbResolve :
    decode ⟨0x11000000C0A801020000000000000000, []⟩ = .ok (.nbResolve 0xC0A80102) := by decide

theorem test_decode_csCompute :
    decode ⟨0x20000003000000000000000000000000, [0x12, 0x34, 0x56]⟩ = .ok (.csCompute [0x12, 0x34, 0x56]) := by decide

/-- The claimed checksum stands in `A`, `coff` in `B` (CK11's word, its payload cut to the four bytes of `LEN` = 4). -/
theorem test_decode_csValidate :
    decode ⟨0x210000040000B8610000000A00000000, [0, 1, 2, 3]⟩ = .ok (.csValidate 10 0xB861 [0, 1, 2, 3]) := by decide

theorem test_decode_pktProcess :
    decode ⟨0x30010002000000000000000000000000, [5, 6]⟩ = .ok (.pktProcess 1 [5, 6]) := by decide

/-- E1, E2. -/
theorem test_decode_refuses_illegal_opcode :
    decode ⟨0, []⟩ = .error (.illegalOpcode 0) ∧
    decode ⟨0xFF000000000000000000000000000000, []⟩ = .error (.illegalOpcode 0xFF) := by decide

/-- E7, E9. -/
theorem test_decode_refuses_reserved_bit :
    decode ⟨0x04000000000000000000000000000001, []⟩ = .error (.reservedBits .cfgSeal) ∧
    decode ⟨0x03000000C0A800020001AABBCC000002, []⟩ = .error (.reservedBits .nbInsert) := by decide

/-- Rule R80: two bytes announced, one presented. -/
theorem test_decode_refuses_length_mismatch :
    decode ⟨0x20000002000000000000000000000000, [0x12]⟩ = .error .lengthMismatch := by decide

/-- The table's numbering: 128 bits, bit 0 the least significant; a payload of `LEN` zero bytes. -/
theorem test_decodeTableWord :
    decodeTableWord 128 0x20000002000000000000000000000000 = some (.csCompute [0, 0]) ∧
    decodeTableWord 128 0 = none := by decide

/-! ### Small states -/

/-- `N_IF = 2`, `NODE_CAP = 64`, `NBR_CAP = 2`, `FRAME_MAX = 64`. -/
def params : Params := { nIf := 2, nodeCap := 64, nbrCap := 2, frameMax := 64 }

/-- The block just after reset. -/
def start : State := State.resetWith params

/-- A trie that holds one route, at the end of a path. -/
def chain : Key → RouteEntry → Trie
  | [], e => .node (some e) .absent .absent
  | b :: k, e => if b then .node none .absent (chain k e) else .node none (chain k e) .absent

/-- CFG-B of `spec/95_test_vectors.md` section 2.5 without its first route, not yet sealed. -/
def loaded : State :=
  { start with
    ift := [⟨true, 0xC0A80001, 0xDEADBEEF0000⟩, ⟨true, 0xC0A80101, 0xDEADBEEF0001⟩]
    trie := .node none (chain (key 0x08080800 24).tail ⟨0x08080800, 0xFFFFFF00, 0xC0A801FE, 1⟩)
      (chain (key 0xC0A80100 24).tail ⟨0xC0A80100, 0xFFFFFF00, 0xC0A80102, 1⟩)
    nodeCnt := 49
    nbr := [⟨0xC0A80002, 0xAABBCC000002⟩, ⟨0xC0A80102, 0xAABBCC000102⟩]
    nbrCnt := 2 }

/-- The same, sealed. -/
def running : State := { loaded with phase := .run }

/-- A block whose load has failed. -/
def failed : State := { start with phase := .failed }

/-- The routes of PROG1, sealed. -/
def lpm : State :=
  { State.resetWith { nIf := 3, nodeCap := 64, nbrCap := 4, frameMax := 1514 } with
    phase := .run
    ift := List.replicate 3 ⟨true, 0, 0⟩
    trie := ((chain (key 0x0A000105 32) ⟨0x0A000105, 0xFFFFFFFF, 0x0AFF0202, 2⟩).setRoute (key 0x0A000000 8)
      ⟨0x0A000000, 0xFF000000, 0x0AFF0002, 0⟩).setRoute (key 0x0A000000 16) ⟨0x0A000000, 0xFFFF0000, 0x0AFF0102, 1⟩
    nodeCnt := 33 }

/-- P1's frame with another TTL, header checksum and destination. -/
def forward (ttl hi lo d₁ d₂ d₃ d₄ : Byte) : List Byte :=
  [0xde, 0xad, 0xbe, 0xef, 0, 0, 0xaa, 0xbb, 0xcc, 0, 0, 2, 8, 0, 0x45, 0, 0, 0x1c, 0, 1, 0, 0, ttl, 0x11, hi, lo,
    0xc0, 0xa8, 0, 2, d₁, d₂, d₃, d₄, 4, 0xd2, 0, 0x35, 0, 8, 0, 0]

/-- P1's input. -/
def p1 : List Byte := forward 0x40 0xf8 0x7b 0xc0 0xa8 1 2

/-- P10's input with another IHL byte, total length, TTL and header checksum. -/
def echo (ihl totlen ttl hi lo : Byte) : List Byte :=
  [0xde, 0xad, 0xbe, 0xef, 0, 0, 0xaa, 0xbb, 0xcc, 0, 0, 2, 8, 0, ihl, 0, 0, totlen, 0, 1, 0, 0, ttl, 1, hi, lo,
    0xc0, 0xa8, 0, 2, 0xc0, 0xa8, 0, 1, 8, 0, 0xbc, 3, 0x12, 0x34, 0, 1, 0x61, 0x62, 0x63, 0x64, 0x65]

/-- P10's input. -/
def p10 : List Byte := echo 0x45 0x21 0x40 0xf9 0x87

/-- The response of a step, if it has a next state. -/
def answer (o : Host.Outcome State Fault Refusal) : Option (PortWord × List Byte) :=
  match o with
  | .next t => some (t.rsp, t.rspPayload)
  | _ => none

/-- The response to a command, in one step. -/
def ask (s : State) (word : PortWord) (payload : List Byte) : Option (PortWord × List Byte) :=
  answer (step (presenting ⟨word, payload⟩ s))

/-- An outcome is a next state with a property. -/
def ends (o : Host.Outcome State Fault Refusal) (p : State → Bool) : Bool :=
  match o with
  | .next t => p t
  | _ => false

theorem ends_spec {o : Host.Outcome State Fault Refusal} {p : State → Bool} (h : ends o p = true) :
    ∃ t, o = .next t ∧ p t = true := by
  cases o with
  | next t => exact ⟨t, rfl, h⟩
  | fault f => exact absurd h (by simp [ends])
  | refused r => exact absurd h (by simp [ends])

/-! ### One step of each command -/

/-- PROG1 line 1's form: the entry is written. -/
theorem test_ifSet_writes :
    ends (step (presenting ⟨0x01010000C0A801010000DEADBEEF0001, []⟩ start))
      (fun t => t.ift == [IfEntry.unset, ⟨true, 0xC0A80101, 0xDEADBEEF0001⟩] && t.rsp == 0) = true := by decide +kernel

/-- CF3. -/
theorem test_ifSet_bad_ifid : ask start 0x01020000000000010000000000000002 [] =
    some (0x50000000000000020000000000000000, []) := by decide +kernel

/-- T14: a second route with the same key replaces the first; `NODE_CNT` stays 9. -/
theorem test_rtInsert_replaces :
    ends (step (presenting ⟨0x020100000A090909FF000000C0A80102, []⟩
        (rtInsert ⟨0x0A000000, 0xFF000000, 0xC0A80002, 0⟩ start)))
      (fun t => t.rsp == 0x02000000000000000000000000000000 && t.nodeCnt == 9) = true := by decide +kernel

/-- T16. -/
theorem test_rtInsert_bad_mask : ask start 0x020000000A00000000FFFFFF0AFF0002 [] =
    some (0x50000000000000010000000000000000, []) := by decide +kernel

/-- NB1. -/
theorem test_nbInsert_appends :
    ends (step (presenting ⟨0x030000000AFF00020000AABBCC000002, []⟩ start))
      (fun t => t.nbr == [⟨0x0AFF0002, 0xAABBCC000002⟩] && t.nbrCnt == 1 && t.rsp == 0) = true := by decide +kernel

/-- NB4: duplicate and full, the duplicate is reported. -/
theorem test_nbInsert_duplicate_before_full :
    ask loaded 0x03000000C0A801020000AABBCC000009 [] =
      some (0x50000000000000040000000000000000, []) := by decide +kernel

/-- CF2. -/
theorem test_cfgSeal_missing :
    ends (step (presenting ⟨0x04000000000000000000000000000000, []⟩ start))
      (fun t => t.rsp == 0x50000000000000060000000000000000 && t.phase == .failed) = true := by decide +kernel

/-- PROG2 line 8. -/
theorem test_cfgSeal_seals :
    ends (step (presenting ⟨0x04000000000000000000000000000000, []⟩ loaded))
      (fun t => t.rsp == 0 && t.phase == .run) = true := by decide +kernel

/-- CF1. -/
theorem test_stRead_after_reset : ask start 0x05000000000000000000000000000000 [] =
    some (0x00000000000000000000000100000000, []) := by decide +kernel

/-- PROG2 line 15's form, with 49 nodes (the first route is left out here: 25 and 24 more). -/
theorem test_stRead_running : ask running 0x05000000000000000000000000000000 [] =
    some (0x00000000000200010000003100000002, []) := by decide +kernel

/-- T2. -/
theorem test_rtLookup_longest : ask lpm 0x100000000A0002070000000000000000 [] =
    some (0x010100000A000000FFFF00000AFF0102, []) := by decide +kernel

/-- T3. -/
theorem test_rtLookup_none : ask lpm 0x100000000B0000000000000000000000 [] = some (0, []) := by decide +kernel

/-- NB5. -/
theorem test_nbResolve_hit : ask running 0x11000000C0A801020000000000000000 [] =
    some (0x01000000000000000000AABBCC000102, []) := by decide +kernel

/-- NB6. -/
theorem test_nbResolve_miss : ask running 0x11000000C0A801FE0000000000000000 [] = some (0, []) := by decide +kernel

/-- CK7: an odd length. -/
theorem test_csCompute_odd : ask start 0x20000003000000000000000000000000 [0x12, 0x34, 0x56] =
    some (0x00000000000097CB0000000000000000, []) := by decide +kernel

/-- CK8: the end-around carry. -/
theorem test_csCompute_carry : ask start 0x20000004000000000000000000000000 [0xff, 0xff, 0, 1] =
    some (0x000000000000FFFE0000000000000000, []) := by decide +kernel

/-- CK11. -/
theorem test_csValidate_valid :
    ask start 0x210000140000B8610000000A00000000
      [0x45, 0, 0, 0x73, 0, 0, 0x40, 0, 0x40, 0x11, 0xb8, 0x61, 0xc0, 0xa8, 0, 1, 0xc0, 0xa8, 0, 0xc7] =
      some (0x010000000000B8610000000000000000, []) := by decide +kernel

/-- CK14: the zero corner. -/
theorem test_csValidate_zero_corner :
    ask start 0x2100000C0000FFFF0000000A00000000 [0xff, 0xff, 0, 0, 0, 0, 0, 0, 0, 0, 0xff, 0xff] = some (0, []) := by
  decide +kernel

/-- P1. -/
theorem test_pktProcess_forwards :
    ask running 0x3000002A000000000000000000000000 p1 = some (0x0101002A000000000000000000000000,
      [0xaa, 0xbb, 0xcc, 0, 1, 2, 0xde, 0xad, 0xbe, 0xef, 0, 1, 8, 0, 0x45, 0, 0, 0x1c, 0, 1, 0, 0, 0x3f, 0x11, 0xf9,
        0x7b, 0xc0, 0xa8, 0, 2, 0xc0, 0xa8, 1, 2, 4, 0xd2, 0, 0x35, 0, 8, 0, 0]) := by decide +kernel

/-- P10: an odd ICMP length. -/
theorem test_pktProcess_replies :
    ask running 0x3000002F000000000000000000000000 p10 = some (0x0100002F000000010000000000000000,
      [0xaa, 0xbb, 0xcc, 0, 0, 2, 0xde, 0xad, 0xbe, 0xef, 0, 0, 8, 0, 0x45, 0, 0, 0x21, 0, 1, 0, 0, 0x3f, 1, 0xfa,
        0x87, 0xc0, 0xa8, 0, 1, 0xc0, 0xa8, 0, 2, 0, 0, 0xc4, 3, 0x12, 0x34, 0, 1, 0x61, 0x62, 0x63, 0x64, 0x65]) := by
  decide +kernel

/-! ### Witnesses: encoding -/

theorem witness_SpecExampleEncodings :
    (List.replicate 42 (0 : Byte)).length = 42 ∧ (List.replicate 20 (0 : Byte)).length = 20 := by decide

theorem witness_DecodeOfEncode : (Instr.csValidate 10 0xB861 [1, 2, 3]).WellFormed := by decide

theorem witness_EncodeOfDecode :
    decode ⟨0x30FF0001000000000000000000000000, [7]⟩ = .ok (.pktProcess 0xFF [7]) := by decide

/-! ### Witnesses: the port -/

theorem witness_StepRunsDecodedCommand :
    (presenting ⟨0x05000000000000000000000000000000, []⟩ start).host =
      .command ⟨0x05000000000000000000000000000000, []⟩ :: [] ∧
    decode ⟨0x05000000000000000000000000000000, []⟩ = .ok .stRead := by decide

theorem witness_StepWaitsOrIsStuck :
    start.host = [] ∧
    (presenting ⟨0x20000001000000000000000000000000, []⟩ start).host =
      .command ⟨0x20000001000000000000000000000000, []⟩ :: [] ∧
    ([] : List Byte).length ≠ (lenField 0x20000001000000000000000000000000).toNat := by decide

/-- The illegal values next to legal ones. -/
theorem witness_IllegalOpcodeRefused :
    (presenting ⟨0x06000000000000000000000000000000, []⟩ running).Presents ⟨0x06000000000000000000000000000000, []⟩ [] ∧
    opField 0x06000000000000000000000000000000 ∉
      ([0x01, 0x02, 0x03, 0x04, 0x05, 0x10, 0x11, 0x20, 0x21, 0x30] : List (BitVec 8)) ∧
    (presenting ⟨0, []⟩ failed).Presents ⟨0, []⟩ [] := ⟨⟨rfl, by decide⟩, by decide, rfl, by decide⟩

/-- E14: where the command may run, and where not. -/
theorem witness_ReservedBitRefused :
    (presenting ⟨0x04000000000000000000000000000001, []⟩ start).Presents ⟨0x04000000000000000000000000000001, []⟩ [] ∧
    (presenting ⟨0x04000000000000000000000000000001, []⟩ running).Presents ⟨0x04000000000000000000000000000001, []⟩ [] ∧
    opField 0x04000000000000000000000000000001 = Opcode.cfgSeal.code ∧
    (0x04000000000000000000000000000001 : PortWord) &&& Opcode.cfgSeal.mbz ≠ 0 ∧
    permitted .cfgSeal start.phase = true ∧ permitted .cfgSeal running.phase = false :=
  ⟨⟨rfl, by decide⟩, ⟨rfl, by decide⟩, by decide, by decide, by decide, by decide⟩

theorem witness_PhaseTableEnforced :
    permitted (Instr.rtLookup 0).opcode start.phase = false ∧
    permitted Instr.cfgSeal.opcode running.phase = false ∧
    permitted (Instr.csCompute []).opcode failed.phase = false := by decide

/-- One byte too many; an odd `coff`; `coff + 2` one above `LEN`; the interface `N_IF`. -/
theorem witness_BadOperandRefused :
    start.phase ≠ .failed ∧ start.params.frameMax < (List.replicate 65 (0 : Byte)).length ∧
    (1 : BitVec 16).toNat % 2 = 1 ∧ ([0, 0, 0] : List Byte).length < (2 : BitVec 16).toNat + 2 ∧
    running.phase = .run ∧ running.params.frameMax < (List.replicate 65 (0 : Byte)).length ∧
    running.params.nIf ≤ (2 : BitVec 8).toNat := by decide

/-- The four ways: nothing, a reset, a seal, a load failure. -/
theorem witness_PhaseChangesOnlyByRule :
    (∃ t, step running = .next t ∧ (t.phase == .run) = true) ∧
    (∃ t, step { running with host := [.reset] } = .next t ∧ (t.phase == .config) = true) ∧
    (∃ t, step (presenting ⟨0x04000000000000000000000000000000, []⟩ loaded) = .next t ∧ (t.phase == .run) = true) ∧
    ∃ t, step (presenting ⟨0x04000000000000000000000000000000, []⟩ start) = .next t ∧ (t.phase == .failed) = true :=
  ⟨ends_spec (by decide +kernel), ends_spec (by decide +kernel), ends_spec (by decide +kernel),
    ends_spec (by decide +kernel)⟩

/-! ### Witnesses: the invariant -/

theorem params_legal : params.Legal := by constructor <;> decide

theorem start_inv : start.Inv := by
  constructor
  case params => exact params_legal
  all_goals decide +kernel

theorem running_inv : running.Inv := by
  constructor
  case params => exact params_legal
  all_goals decide +kernel

/-- `running` with a frame in its buffer. -/
theorem running_frame_inv : { running with fb := [(0, 1), (1, 2)], flen := 2 }.Inv := by
  constructor
  case params => exact params_legal
  all_goals decide +kernel

theorem failed_inv : failed.Inv := by
  constructor
  case params => exact params_legal
  all_goals decide +kernel

/-- What the host does next is no part of the invariant. -/
theorem presenting_inv (c : Command) {s : State} (h : s.Inv) : (presenting c s).Inv :=
  ⟨h.params, h.root, h.nodeCnt, h.nodeCap, h.depth, h.routes, h.nbrDistinct, h.nbrCnt, h.nbrCap, h.flen, h.sealed, h.ift,
    h.fbWf, h.fbSize, h.fbLoaded, h.stage⟩

theorem witness_FailedLeftByResetOnly :
    (presenting ⟨0x31000000000000000000000000000000, []⟩ failed).Presents ⟨0x31000000000000000000000000000000, []⟩ [] ∧
    (presenting ⟨0x04000000000000000000000000000000, []⟩ failed).Presents ⟨0x04000000000000000000000000000000, []⟩ [] ∧
    failed.phase = .failed ∧
    opField 0x31000000000000000000000000000000 ∉
      ([0x01, 0x02, 0x03, 0x04, 0x05, 0x10, 0x11, 0x20, 0x21, 0x30] : List (BitVec 8)) ∧
    opField 0x04000000000000000000000000000000 ∈
      ([0x01, 0x02, 0x03, 0x04, 0x10, 0x11, 0x20, 0x21, 0x30] : List (BitVec 8)) ∧
    { failed with host := [.reset] }.host = .reset :: [] ∧
    (presenting ⟨0x04000000000000000000000000000000, []⟩ failed).Inv := by
  exact ⟨⟨rfl, by decide⟩, ⟨rfl, by decide⟩, by decide, by decide, by decide, rfl, presenting_inv _ failed_inv⟩

/-- A lookup that is OK, a load failure (IF_MISSING), a frame too short for its link header (P13: ERR_FRAME), a frame
transmitted (P1: code 0) and one dropped (P6: code 6). -/
theorem witness_ResponseFollowsTheCodeTables :
    (let c : Command := ⟨0x11000000C0A801020000000000000000, []⟩
     (presenting c running).Inv ∧ (presenting c running).Presents c []) ∧
    (let c : Command := ⟨0x04000000000000000000000000000000, []⟩
     (presenting c start).Inv ∧ (presenting c start).Presents c [] ∧
     ∃ t, step (presenting c start) = .next t ∧ (t.rsp == 0x50000000000000060000000000000000) = true) ∧
    (let c := encode (.pktProcess 0 (p1.take 13))
     (presenting c running).Inv ∧ (presenting c running).Presents c [] ∧
     ∃ t, step (presenting c running) = .next t ∧ ((Response.ofWord t.rsp).st == 4) = true) ∧
    (let c := encode (.pktProcess 0 p1)
     (presenting c running).Inv ∧ (presenting c running).Presents c [] ∧ opField c.word = 0x30 ∧
     ∃ t, step (presenting c running) = .next t ∧
       ((Response.ofWord t.rsp).a == 0 && (Response.ofWord t.rsp).flg == 1) = true) ∧
    (let c := encode (.pktProcess 0 (forward 0x40 0xaa 0x16 8 8 8 8))
     (presenting c running).Presents c [] ∧
     ∃ t, step (presenting c running) = .next t ∧
       ((Response.ofWord t.rsp).a == 6 && (Response.ofWord t.rsp).flg == 0) = true) := by
  exact ⟨⟨presenting_inv _ running_inv, rfl, by decide⟩,
    ⟨presenting_inv _ start_inv, ⟨rfl, by decide⟩, ends_spec (by decide +kernel)⟩,
    ⟨presenting_inv _ running_inv, ⟨rfl, by decide +kernel⟩, ends_spec (by decide +kernel)⟩,
    ⟨presenting_inv _ running_inv, ⟨rfl, by decide +kernel⟩, by decide +kernel, ends_spec (by decide +kernel)⟩,
    ⟨rfl, by decide +kernel⟩, ends_spec (by decide +kernel)⟩

theorem witness_RunTablesImmutable :
    running.phase = .run ∧ (∀ later, running.host ≠ .reset :: later) ∧
    ∃ t, step (presenting ⟨0x020000000C000000FF0000000AFF0002, []⟩ running) = .next t ∧
      (t.rsp == 0x20000000000000000000000000000000) = true :=
  ⟨by decide, fun _ h => (nomatch h), ends_spec (by decide +kernel)⟩

theorem witness_ParametersNeverChange :
    ∃ t, step { running with host := [.reset] } = .next t ∧ (t.params == params) = true := ends_spec (by decide +kernel)

theorem witness_ResetGivesTheSpecsValues : { running with host := [.reset] }.host = .reset :: [] := rfl

theorem witness_StepKeepsInvariant :
    running.Inv ∧ { running with fb := [(0, 1), (1, 2)], flen := 2 }.Inv ∧
    ∃ t, step running = .next t ∧ (t.phase == .run) = true :=
  ⟨running_inv, running_frame_inv, ends_spec (by decide +kernel)⟩

/-- The two differ in every hidden field and in the contents of an interface entry that is not valid. -/
theorem witness_HiddenStateNeverShows :
    start.Inv ∧ start.AgreesWith
      { start with
        ift := [⟨false, 7, 8⟩, IfEntry.unset], fb := [(3, 9)], flen := 5, cmd := 1, cmdPayload := [2], rsp := 3
        rspPayload := [4], stage := .s4RouteLookup, cur := [true], depth := 6, best := some ⟨1, 2, 3, 4⟩, acc := 5 } := by
  refine ⟨start_inv, rfl, rfl, rfl, rfl, rfl, rfl, ?_, rfl⟩
  exact .cons ⟨rfl, fun h => (nomatch h)⟩ (.cons ⟨rfl, fun _ => rfl⟩ .nil)

/-! ### Witnesses: the trie -/

/-- A key that is a node with a route, below it another. -/
theorem witness_KeysListTheNodes :
    lpm.trie.hasNode (key 0x0A000000 16) = true ∧ key 0x0A000000 8 <+: key 0x0A000000 16 ∧
    lpm.trie.routeAt (key 0x0A000000 8) = some ⟨0x0A000000, 0xFF000000, 0x0AFF0002, 0⟩ :=
  ⟨by decide +kernel, by decide +kernel, by decide +kernel⟩

/-- T15: 32 new nodes fill the node store exactly; and the root alone. -/
theorem witness_RtInsertStoresRoute :
    let s := State.resetWith { params with nodeCap := 33 }
    s.phase = .config ∧ s.trie.hasNode [] = true ∧ (32 ≤ 32 ∧ 0 ≤ 32) ∧ (1 : BitVec 8).toNat < s.params.nIf ∧
    s.nodeCnt.toNat + s.trie.missing 0xFFFFFFFF 32 = s.params.nodeCap ∧
    s.nodeCnt.toNat + s.trie.missing 0 0 ≤ s.params.nodeCap := by decide +kernel

theorem witness_GappedMaskFailsTheLoad :
    start.phase = .config ∧ ∀ n, n ≤ 32 → (0xFF00FF00 : Addr) ≠ ones n := ⟨rfl, by decide⟩

/-- The interface `N_IF`; one node too many. -/
theorem witness_RtInsertLoadFailures :
    let s := State.resetWith { params with nodeCap := 32 }
    s.phase = .config ∧ 32 ≤ 32 ∧ s.params.nIf ≤ (2 : BitVec 8).toNat ∧ (1 : BitVec 8).toNat < s.params.nIf ∧
    s.params.nodeCap < s.nodeCnt.toNat + s.trie.missing 0xFFFFFFFF 32 := by decide +kernel

/-- Two entries with one key and one with another, in two orders; the capacity at its bound. -/
theorem witness_BuildKeepsLastEntryPerKey :
    let p : Params := { params with nodeCap := 97 }
    let a : RouteEntry := ⟨0x0A000000, 0xFF000000, 1, 0⟩
    let b : RouteEntry := ⟨0x0A090909, 0xFF000000, 2, 1⟩
    let c : RouteEntry := ⟨0, 0, 3, 1⟩
    p.Legal ∧ (∃ t, execAll ([a, b, c].map insertion) (State.resetWith p) = .next t ∧ (t.phase == .config) = true) ∧
    [c, a, b].Perm [a, b, c] ∧
    (∀ k, [c, a, b].filter (fun e => routeKey e == k) = [a, b, c].filter (fun e => routeKey e == k)) ∧
    32 * [a, b, c].length + 1 ≤ p.nodeCap ∧
    ∀ e ∈ [a, b, c], (∃ n, n ≤ 32 ∧ e.mask = ones n) ∧ e.egress.toNat < p.nIf := by
  intro p a b c
  refine ⟨by constructor <;> decide, ends_spec (by decide +kernel), by decide, fun k => ?_, by decide, ?_⟩
  · have ha : routeKey a = [false, false, false, false, true, false, true, false] := by decide
    have hb : routeKey b = [false, false, false, false, true, false, true, false] := by decide
    have hc : routeKey c = [] := by decide
    simp only [List.filter_cons, List.filter_nil, ha, hb, hc]
    by_cases h : k = []
    · subst h; rfl
    · rw [beq_false_of_ne (Ne.symm h)]
      by_cases h' : k = [false, false, false, false, true, false, true, false]
      · subst h'; rfl
      · rw [beq_false_of_ne (Ne.symm h')]; rfl
  · intro e he
    simp only [List.mem_cons, List.not_mem_nil, or_false] at he
    rcases he with rfl | rfl | rfl
    · exact ⟨⟨8, by decide, by decide⟩, by decide⟩
    · exact ⟨⟨8, by decide, by decide⟩, by decide⟩
    · exact ⟨⟨0, by decide, by decide⟩, by decide⟩

/-- T1: a route at depth 32; T3: none; T2: the longest at depth 16. -/
theorem witness_LookupFindsLongestKey :
    lpm.trie.routeAt (key 0x0A000105 32) = some ⟨0x0A000105, 0xFFFFFFFF, 0x0AFF0202, 2⟩ ∧
    (∀ m, 32 < m → m ≤ 32 → lpm.trie.routeAt (key 0x0A000105 m) = none) ∧
    lpm.trie.routeAt (key 0x0A000207 16) = some ⟨0x0A000000, 0xFFFF0000, 0x0AFF0102, 1⟩ ∧
    (∀ m, m ≤ 32 → 16 < m → lpm.trie.routeAt (key 0x0A000207 m) = none) ∧
    ∀ n, n ≤ 32 → lpm.trie.routeAt (key 0x0B000000 n) = none :=
  ⟨by decide +kernel, fun m h h' => absurd h (by omega), by decide +kernel, by decide +kernel, by decide +kernel⟩

theorem lpm_inv : lpm.Inv := by
  constructor
  case params => constructor <;> decide
  all_goals decide +kernel

theorem witness_LookupFindsLongestMask :
    lpm.Inv ∧
    (trieLookup 0x0A000207 lpm).best = some ⟨0x0A000000, 0xFFFF0000, 0x0AFF0102, 1⟩ ∧
    (trieLookup 0x0B000000 lpm).best = none ∧
    (∃ k, lpm.trie.routeAt k = some ⟨0x0A000000, 0xFF000000, 0x0AFF0002, 0⟩) ∧
    (0x0A000207 : Addr) &&& 0xFF000000 = 0x0A000000 &&& 0xFF000000 :=
  ⟨lpm_inv, by decide +kernel, by decide +kernel, ⟨key 0x0A000000 8, by decide +kernel⟩, by decide⟩

theorem witness_LookupWalkStops :
    lpm.trie.hasNode [] = true ∧ (trieLookup 0x0A000105 lpm).depth = 32 ∧ (trieLookup 0xFFFFFFFF lpm).depth = 0 := by
  decide +kernel

/-- T1, T3. -/
theorem witness_RtLookupAnswers :
    lpm.phase = .run ∧
    lpm.trie.routeAt (key 0x0A000105 32) = some ⟨0x0A000105, 0xFFFFFFFF, 0x0AFF0202, 2⟩ ∧
    ∀ n, n ≤ 32 → lpm.trie.routeAt (key 0x0B000000 n) = none :=
  ⟨by decide +kernel, by decide +kernel, by decide +kernel⟩

/-- T13: the node store may be full. -/
theorem witness_DefaultRouteIsLastResort :
    let s := State.resetWith { params with nodeCap := 1 }
    let d := rtInsert ⟨0x0A000000, 0xFF000000, 2, 1⟩ (rtInsert ⟨0, 0, 1, 1⟩ start)
    s.phase = .config ∧ s.trie.hasNode [] = true ∧ (1 : BitVec 8).toNat < s.params.nIf ∧
    s.nodeCnt.toNat = s.params.nodeCap ∧ d.trie.routeAt [] = some ⟨0, 0, 1, 1⟩ ∧
    (∀ n, n ≤ 32 → 1 ≤ n → d.trie.routeAt (key 0x0B000000 n) = none) ∧
    (d.trie.routeAt (key 0x0A000001 8)).isSome = true := by decide +kernel

/-! ### Witnesses: neighbours, configuration, status -/

theorem witness_NbInsertAppends :
    start.phase = .config ∧ (∀ e ∈ start.nbr, e.ip ≠ 0x0AFF0002) ∧ start.nbrCnt.toNat ≠ start.params.nbrCap := by decide

/-- NB4 (duplicate in a full table) and NB2 (a new address in a full table). -/
theorem witness_NbInsertLoadFailures :
    let s := loaded
    s.phase = .config ∧ (∃ e ∈ s.nbr, e.ip = 0xC0A80102) ∧ (∀ e ∈ s.nbr, e.ip ≠ 0x0AFF0003) ∧
    s.nbrCnt.toNat = s.params.nbrCap := by decide +kernel

/-- NB5, NB6. -/
theorem witness_NbResolveAnswers :
    running.phase = .run ∧
    running.nbr = [⟨0xC0A80002, 0xAABBCC000002⟩] ++ ⟨0xC0A80102, 0xAABBCC000102⟩ :: [] ∧
    (∀ x ∈ ([⟨0xC0A80002, 0xAABBCC000002⟩] : List NeighborEntry), x.ip ≠ 0xC0A80102) ∧
    ∀ e ∈ running.nbr, e.ip ≠ 0xC0A801FE := by decide +kernel

theorem witness_ResolveIsExactMatch :
    (running.nbr.map NeighborEntry.ip).Nodup ∧
    running.nbr = [⟨0xC0A80002, 0xAABBCC000002⟩] ++ ⟨0xC0A80102, 0xAABBCC000102⟩ :: [] ∧
    (∀ x ∈ ([⟨0xC0A80002, 0xAABBCC000002⟩] : List NeighborEntry), x.ip ≠ 0xC0A80102) ∧
    (∀ e ∈ running.nbr, e.ip ≠ 0xC0A801FE) ∧ running.nbr.reverse.Perm running.nbr := by decide +kernel

/-- The last interface. -/
theorem witness_IfSetWritesEntry :
    start.phase = .config ∧ start.ift.length = start.params.nIf ∧ (1 : BitVec 8).toNat + 1 = start.params.nIf := by decide

/-- The first that does not exist. -/
theorem witness_IfSetLoadFailure : start.phase = .config ∧ start.params.nIf = (2 : BitVec 8).toNat := by decide

theorem witness_CfgSealSealsOrFails :
    loaded.phase = .config ∧ (∀ e ∈ loaded.ift, e.valid = true) ∧ start.phase = .config ∧
    ∃ e ∈ start.ift, e.valid = false := by decide +kernel

/-! ### Witnesses: checksums and the frame buffer -/

/-- A sum of 0 and the least sum above 0. -/
theorem witness_DeferredFoldingAgrees : wideSum [0, 0] = 0 ∧ 0 < wideSum [0, 1] := by decide

/-- A field at the end of the range. -/
theorem witness_ChecksumRoundTrip :
    10 % 2 = 0 ∧ 10 + 2 ≤ (List.replicate 12 (7 : Byte)).length := by decide

/-- CK14: the corner; CK6's range: only zeros. -/
theorem witness_ValidateZeroCorner :
    10 % 2 = 0 ∧ 10 + 2 ≤ ([0xff, 0xff, 0, 0, 0, 0, 0, 0, 0, 0, 0xff, 0xff] : List Byte).length ∧
    cksum (zeroField [0xff, 0xff, 0, 0, 0, 0, 0, 0, 0, 0, 0xff, 0xff] 10) = 0 ∧
    cksum (zeroField [0, 0, 1, 2] 2) = 0xFFFF := by decide

/-- The empty payload and the longest one. -/
theorem witness_CsComputeAnswers :
    running.phase ≠ .failed ∧ start.phase ≠ .failed ∧ ([] : List Byte).length ≤ start.params.frameMax ∧
    (List.replicate 64 (1 : Byte)).length = start.params.frameMax ∧ (List.replicate 64 (1 : Byte)).length < 2 ^ 16 := by
  decide

/-- The field at the end of the payload, the payload as long as may be. -/
theorem witness_CsValidateAnswers :
    start.phase ≠ .failed ∧ (List.replicate 64 (1 : Byte)).length = start.params.frameMax ∧
    (List.replicate 64 (1 : Byte)).length < 2 ^ 16 ∧ (62 : BitVec 16).toNat % 2 = 0 ∧
    (62 : BitVec 16).toNat + 2 = (List.replicate 64 (1 : Byte)).length := by decide

/-- Both bytes of a frame of two. -/
theorem witness_MemReadIsBigEndian :
    let s := { start with fb := [(0, 0x12), (1, 0x34)], flen := 2 }
    0 + 2 ≤ s.flen.toNat ∧ ∀ i, i < 2 → s.fb.read (0 + i) = some (if i = 0 then 0x12 else 0x34) := by decide

theorem witness_MemReadAfterMemWrite :
    2 ∈ [1, 2, 4, 6] ∧ 0 + 2 ≤ { start with flen := 2 }.flen.toNat ∧
    ∃ t, memWrite { start with flen := 2 } 0 2 (0xABCD : BitVec 16) = .ok t := ⟨by decide, by decide, _, rfl⟩

/-! ### Witnesses: the pipeline -/

/-- A frame that fits runs on interface 0 of `running`. -/
theorem runs {f : List Byte} (h : f.length ≤ 64) : running.PktRuns 0 f :=
  ⟨by decide +kernel, by omega, by have e : running.params.frameMax = 64 := by decide +kernel
                                   omega, by decide +kernel⟩

/-- The receiving interface's entry. -/
def own : IfEntry := ⟨true, 0xC0A80001, 0xDEADBEEF0000⟩

theorem own_entry : running.HasInterface 0 own := ⟨by decide +kernel, by decide⟩

theorem p1_ipv4 : running.PktIsIpv4 0 p1 own :=
  ⟨runs (by decide), by decide, ⟨by decide, by decide, by decide⟩, own_entry⟩

theorem p10_ipv4 : running.PktIsIpv4 0 p10 own :=
  ⟨runs (by decide), by decide, ⟨by decide, by decide, by decide⟩, own_entry⟩

/-- P13 (13 bytes), P21 (14 bytes), P14 (33 bytes), P15 (IHL 4), P16 (one byte short of the header), P17 (TOTLEN below
24), P18 (one byte short of the datagram). -/
theorem witness_MalformedFrameRefused :
    running.PktRuns 0 (p1.take 13) ∧ (p1.take 13).length < 14 ∧
    running.PktRuns 0 (p1.take 14) ∧ etherTypeOf (p1.take 14) = 0x0800 ∧ ¬roomForHeader (p1.take 14) ∧
    running.PktRuns 0 (p1.take 33) ∧ etherTypeOf (p1.take 33) = 0x0800 ∧ ¬roomForHeader (p1.take 33) ∧
    running.PktRuns 0 (echo 0x44 0x21 0x40 0xf9 0x87) ∧ ¬roomForHeader (echo 0x44 0x21 0x40 0xf9 0x87) ∧
    running.PktRuns 0 ((echo 0x46 0x21 0x40 0xf9 0x87).take 37) ∧
    ¬roomForHeader ((echo 0x46 0x21 0x40 0xf9 0x87).take 37) ∧
    running.PktIsIpv4 0 (echo 0x45 0x17 0x40 0xf9 0x87) own ∧ ipDstOf (echo 0x45 0x17 0x40 0xf9 0x87) = own.ip ∧
    ¬roomForIcmp (echo 0x45 0x17 0x40 0xf9 0x87) ∧
    running.PktIsIpv4 0 (p10.take 46) own ∧ ipDstOf (p10.take 46) = own.ip ∧ ¬roomForIcmp (p10.take 46) := by
  refine ⟨runs (by decide), by decide, runs (by decide), by decide, ?_, runs (by decide), by decide, ?_,
    runs (by decide), ?_, runs (by decide), ?_,
    ⟨runs (by decide), by decide, ⟨by decide, by decide, by decide⟩, own_entry⟩, by decide, ?_,
    ⟨runs (by decide), by decide, ⟨by decide, by decide, by decide⟩, own_entry⟩, by decide, ?_⟩
  · unfold roomForHeader; decide
  · unfold roomForHeader; decide
  · unfold roomForHeader; decide
  · unfold roomForHeader; decide
  · unfold roomForIcmp; decide
  · unfold roomForIcmp; decide

/-- P20: 14 bytes. -/
theorem witness_NonIpv4Dropped :
    let f : List Byte := [0xff, 0xff, 0xff, 0xff, 0xff, 0xff, 0xaa, 0xbb, 0xcc, 0, 0, 2, 8, 6]
    running.PktRuns 0 f ∧ 14 ≤ f.length ∧ etherTypeOf f ≠ 0x0800 := ⟨runs (by decide), by decide, by decide⟩

/-- P10 and P11 (TTL 0). -/
theorem witness_SelfDestinedReplied :
    running.PktIsIpv4 0 p10 own ∧ ipDstOf p10 = own.ip ∧ roomForIcmp p10 ∧
    running.PktIsIpv4 0 (echo 0x45 0x21 0 0x38 0x88) own ∧ ttlOf (echo 0x45 0x21 0 0x38 0x88) = 0 :=
  ⟨p10_ipv4, by decide, ⟨by decide, by decide⟩,
    ⟨runs (by decide), by decide, ⟨by decide, by decide, by decide⟩, own_entry⟩, by decide⟩

/-- P4. -/
theorem witness_BadChecksumDropped :
    let f := forward 0x40 0xf9 0x7b 0xc0 0xa8 1 2
    running.PktIsIpv4 0 f own ∧ ipDstOf f ≠ own.ip ∧ ¬headerValid f :=
  ⟨⟨runs (by decide), by decide, ⟨by decide, by decide, by decide⟩, own_entry⟩, by decide,
    by unfold headerValid; decide +kernel⟩

/-- P5. -/
theorem witness_NoRouteDropped :
    let f := forward 0x40 0xa8 0x14 9 9 9 9
    running.PktIsIpv4 0 f own ∧ ipDstOf f ≠ own.ip ∧ headerValid f ∧
    ∀ n, n ≤ 32 → running.trie.routeAt (key (ipDstOf f) n) = none :=
  ⟨⟨runs (by decide), by decide, ⟨by decide, by decide, by decide⟩, own_entry⟩, by decide,
    by unfold headerValid; decide +kernel, by decide +kernel⟩

/-- P3. -/
theorem witness_TtlZeroDropped :
    let f := forward 0 0x38 0x7c 0xc0 0xa8 1 2
    running.PktIsIpv4 0 f own ∧ ipDstOf f ≠ own.ip ∧ headerValid f ∧
    (trieLookup (ipDstOf f) running).best = some ⟨0xC0A80100, 0xFFFFFF00, 0xC0A80102, 1⟩ ∧ ttlOf f = 0 :=
  ⟨⟨runs (by decide), by decide, ⟨by decide, by decide, by decide⟩, own_entry⟩, by decide,
    by unfold headerValid; decide +kernel, by decide +kernel, by decide⟩

/-- P6. -/
theorem witness_NeighborMissDropped :
    let f := forward 0x40 0xaa 0x16 8 8 8 8
    running.PktIsIpv4 0 f own ∧ ipDstOf f ≠ own.ip ∧ headerValid f ∧
    (trieLookup (ipDstOf f) running).best = some ⟨0x08080800, 0xFFFFFF00, 0xC0A801FE, 1⟩ ∧ 1 ≤ ttlOf f ∧
    ∀ e ∈ running.nbr, e.ip ≠ 0xC0A801FE :=
  ⟨⟨runs (by decide), by decide, ⟨by decide, by decide, by decide⟩, own_entry⟩, by decide,
    by unfold headerValid; decide +kernel, by decide +kernel, by decide, by decide +kernel⟩

/-- P2: TTL 1. -/
theorem witness_RoutedFrameTransmitted :
    let f := forward 1 0x37 0x7c 0xc0 0xa8 1 2
    running.PktIsIpv4 0 f own ∧ ipDstOf f ≠ own.ip ∧ headerValid f ∧
    (trieLookup (ipDstOf f) running).best = some ⟨0xC0A80100, 0xFFFFFF00, 0xC0A80102, 1⟩ ∧ ttlOf f = 1 ∧
    nbrResolve running.nbr 0xC0A80102 = some 0xAABBCC000102 ∧
    running.HasInterface 1 ⟨true, 0xC0A80101, 0xDEADBEEF0001⟩ :=
  ⟨⟨runs (by decide), by decide, ⟨by decide, by decide, by decide⟩, own_entry⟩, by decide,
    by unfold headerValid; decide +kernel, by decide +kernel, by decide, by decide +kernel, ⟨by decide +kernel, by decide⟩⟩

/-- P6: a drop that has changed three bytes; P1: a transmission; P10: a reply. -/
theorem witness_PipelineWritesOnlyItsFields :
    running.PktRuns 0 (forward 0x40 0xaa 0x16 8 8 8 8) ∧
    (∃ t, exec (.pktProcess 0 (forward 0x40 0xaa 0x16 8 8 8 8)) running = .next t ∧
      (t.fb.read 22 == some 0x3f && t.rspPayload == []) = true) ∧
    running.PktRuns 0 p1 ∧
    (∃ t, exec (.pktProcess 0 p1) running = .next t ∧
      ((Response.ofWord t.rsp).flg == 1 && (Response.ofWord t.rsp).a == 0 && t.fb.read 11 == some 1) = true) ∧
    running.PktRuns 0 p10 ∧
    ∃ t, exec (.pktProcess 0 p10) running = .next t ∧
      ((Response.ofWord t.rsp).flg == 1 && (Response.ofWord t.rsp).a == 1 && t.fb.read 37 == some 3) = true :=
  ⟨runs (by decide), ends_spec (by decide +kernel), runs (by decide), ends_spec (by decide +kernel), runs (by decide),
    ends_spec (by decide +kernel)⟩

/-- P2 (TTL 1 to 0) and P11 (TTL 0 to 255). -/
theorem witness_EmittedTtl :
    running.PktRuns 0 (forward 1 0x37 0x7c 0xc0 0xa8 1 2) ∧
    (∃ t, exec (.pktProcess 0 (forward 1 0x37 0x7c 0xc0 0xa8 1 2)) running = .next t ∧
      ((Response.ofWord t.rsp).flg == 1 && t.rspPayload[22]? == some 0) = true) ∧
    running.PktRuns 0 (echo 0x45 0x21 0 0x38 0x88) ∧
    ∃ t, exec (.pktProcess 0 (echo 0x45 0x21 0 0x38 0x88)) running = .next t ∧
      ((Response.ofWord t.rsp).flg == 1 && t.rspPayload[22]? == some 255) = true :=
  ⟨runs (by decide), ends_spec (by decide +kernel), runs (by decide), ends_spec (by decide +kernel)⟩

/-- P11: a reply to a frame whose header checksum is wrong. -/
theorem witness_EmittedHeaderIsValid :
    running.PktRuns 0 (echo 0x45 0x21 0 0x38 0x88) ∧ ¬headerValid (echo 0x45 0x21 0 0x38 0x88) ∧
    ∃ t, exec (.pktProcess 0 (echo 0x45 0x21 0 0x38 0x88)) running = .next t ∧
      ((Response.ofWord t.rsp).flg == 1) = true :=
  ⟨runs (by decide), by unfold headerValid; decide +kernel, ends_spec (by decide +kernel)⟩

end

end Sys2Proof.Tests
end

section
/-! SUPPORT. Noninterference (rules R16, R36, R37): states that agree on everything but what is hidden are taken by every
command to states that agree again, with the same response or the same fault. Inside a payload-bearing command the
agreement covers the frame too, which the payload load makes the same. -/

namespace Sys2Proof.Machine

open Sys2Proof

/-! ### The relations -/

/-- Agreement after a command: the response is the same. -/
structure State.AnswersLike (s t : State) : Prop extends s.AgreesWith t where
  rsp : s.rsp = t.rsp
  rspPayload : s.rspPayload = t.rspPayload

/-- Agreement inside a payload-bearing command: the frame `FB[0..FLEN)` is the same. The bytes beyond it stay hidden. -/
structure State.FrameAgrees (s t : State) : Prop extends s.AgreesWith t where
  flen : s.flen = t.flen
  bytes : ∀ o < s.flen.toNat, s.fb.read o = t.fb.read o

/-- Two chains of accesses end alike: in states that `R` relates, or in the same fault. -/
inductive Alike (R : State → State → Prop) : Except Fault State → Except Fault State → Prop where
  | ok {s t : State} (h : R s t) : Alike R (.ok s) (.ok t)
  | error (f : Fault) : Alike R (.error f) (.error f)

/-- Two commands end alike: with the same response and in agreement, or in the same fault. -/
inductive EndAlike : Host.Outcome State Fault Refusal → Host.Outcome State Fault Refusal → Prop where
  | next {s t : State} (h : s.AnswersLike t) : EndAlike (.next s) (.next t)
  | fault (f : Fault) : EndAlike (.fault f) (.fault f)

section
variable {R R' : State → State → Prop}

theorem Alike.bind {x y : Except Fault State} {f g : State → Except Fault State} (h : Alike R x y)
    (hf : ∀ s t, R s t → Alike R' (f s) (g t)) : Alike R' (x >>= f) (y >>= g) := by
  cases h with
  | ok h => exact hf _ _ h
  | error e => exact .error e

/-- A value that is read alike on both sides is the same for the rest of the two chains. -/
theorem Alike.bind_eq {α : Type} {x y : Except Fault α} {f g : α → Except Fault State} (h : x = y)
    (hf : ∀ a, Alike R (f a) (g a)) : Alike R (x >>= f) (y >>= g) := by
  subst h
  cases x with
  | ok a => exact hf a
  | error e => exact .error e

/-- A branch on a condition that is the same on both sides. -/
theorem Alike.ite {c : Prop} [Decidable c] {x x' y y' : Except Fault State} (h : c → Alike R x y)
    (h' : ¬c → Alike R x' y') : Alike R (if c then x else x') (if c then y else y') := by
  split
  · exact h ‹_›
  · exact h' ‹_›

theorem Alike.ofAccess {x y : Except Fault State} (h : Alike State.AnswersLike x y) :
    EndAlike (ofAccess x) (ofAccess y) := by
  cases h with
  | ok h => exact .next h
  | error e => exact .fault e

/-- The two ways to end alike, as equations. -/
theorem EndAlike.cases {x y : Host.Outcome State Fault Refusal} (h : EndAlike x y) :
    (∃ s t, x = .next s ∧ y = .next t ∧ s.AnswersLike t) ∨ ∃ f, x = .fault f ∧ y = .fault f := by
  cases h with
  | next h => exact .inl ⟨_, _, rfl, rfl, h⟩
  | fault f => exact .inr ⟨f, rfl, rfl⟩
end

/-! ### The interface table -/

theorem IfEntry.agrees_refl (e : IfEntry) : e.agrees e := ⟨rfl, fun _ => rfl⟩

/-- Tables that agree say of the same entries that they are valid. -/
theorem map_valid_of_agrees {l m : List IfEntry} (h : List.Forall₂ IfEntry.agrees l m) :
    l.map IfEntry.valid = m.map IfEntry.valid := by
  induction h with
  | nil => rfl
  | cons h _ ih => rw [List.map_cons, List.map_cons, h.1, ih]

theorem all_valid_of_agrees {l m : List IfEntry} (h : List.Forall₂ IfEntry.agrees l m) :
    l.all IfEntry.valid = m.all IfEntry.valid := by
  simpa using congrArg (fun v => v.all id) (map_valid_of_agrees h)

theorem countP_valid_of_agrees {l m : List IfEntry} (h : List.Forall₂ IfEntry.agrees l m) :
    l.countP IfEntry.valid = m.countP IfEntry.valid := by
  simpa using congrArg (fun v => v.countP id) (map_valid_of_agrees h)

theorem set_agrees {l m : List IfEntry} (h : List.Forall₂ IfEntry.agrees l m) (i : Nat) (e : IfEntry) :
    List.Forall₂ IfEntry.agrees (l.set i e) (m.set i e) := by
  induction h generalizing i with
  | nil => exact .nil
  | cons h h' ih =>
    cases i with
    | zero => exact .cons (IfEntry.agrees_refl e) h'
    | succ i => exact .cons h (ih i)

/-- At one index both tables have no entry, or entries that agree. -/
theorem getElem?_agrees {l m : List IfEntry} (h : List.Forall₂ IfEntry.agrees l m) (i : Nat) :
    (l[i]? = none ∧ m[i]? = none) ∨ ∃ x y, l[i]? = some x ∧ m[i]? = some y ∧ x.agrees y := by
  induction h generalizing i with
  | nil => exact .inl ⟨rfl, rfl⟩
  | cons h _ ih =>
    cases i with
    | zero => exact .inr ⟨_, _, rfl, rfl, h⟩
    | succ i => simpa using ih i

section
variable {s t : State}

/-- A read of an interface entry gives the same entry or the same fault: an entry that is not valid is not read. -/
theorem State.AgreesWith.ifEntry_eq (h : s.AgreesWith t) (i : BitVec 8) : ifEntry s i = ifEntry t i := by
  unfold ifEntry
  obtain ⟨hs, ht⟩ | ⟨x, y, hs, ht, hv, he⟩ := getElem?_agrees h.ift i.toNat
  · rw [hs, ht]
  · rw [hs, ht]
    cases hx : x.valid with
    | true => rw [he hx]
    | false => simp [hx, ← hv]

/-! ### Register writes keep the agreement -/

/-- What writes only hidden fields on both sides keeps the agreement, whatever it writes. -/
theorem State.AgreesWith.of_onlyProcesses {s' t' : State} (h : s.AgreesWith t) (hs : s.OnlyProcesses s')
    (ht : t.OnlyProcesses t') : s'.AgreesWith t' := by
  obtain ⟨a₁, a₂, a₃, a₄, a₅, a₆, a₇, -, -, a₁₀⟩ := onlyProcesses_iff.1 hs
  obtain ⟨b₁, b₂, b₃, b₄, b₅, b₆, b₇, -, -, b₁₀⟩ := onlyProcesses_iff.1 ht
  constructor
  case params => rw [a₁, b₁, h.params]
  case phase => rw [a₂, b₂, h.phase]
  case trie => rw [a₃, b₃, h.trie]
  case nodeCnt => rw [a₄, b₄, h.nodeCnt]
  case nbr => rw [a₅, b₅, h.nbr]
  case nbrCnt => rw [a₆, b₆, h.nbrCnt]
  case ift => rw [a₇, b₇]; exact h.ift
  case host => rw [a₁₀, b₁₀, h.host]

theorem State.AgreesWith.acceptCommand (h : s.AgreesWith t) (c : Command) (later : List HostEvent) :
    (acceptCommand c later s).AgreesWith (acceptCommand c later t) := { h with host := rfl }

theorem State.AgreesWith.withPhase (h : s.AgreesWith t) (p : Phase) : (s.withPhase p).AgreesWith (t.withPhase p) :=
  { h with phase := rfl }

theorem State.AgreesWith.withTrie (h : s.AgreesWith t) (u : Trie) (n : BitVec 32) :
    (s.withTrie u n).AgreesWith (t.withTrie u n) := { h with trie := rfl, nodeCnt := rfl }

theorem State.AgreesWith.withNbr (h : s.AgreesWith t) (l : List NeighborEntry) (n : BitVec 32) :
    (s.withNbr l n).AgreesWith (t.withNbr l n) := { h with nbr := rfl, nbrCnt := rfl }

theorem State.AgreesWith.withIft (h : s.AgreesWith t) {l m : List IfEntry} (hl : List.Forall₂ IfEntry.agrees l m) :
    (s.withIft l).AgreesWith (t.withIft m) := { h with ift := hl }

theorem State.AgreesWith.withWalk (h : s.AgreesWith t) (k : Key) (d : Nat) (b : Option RouteEntry) (k' : Key)
    (d' : Nat) (b' : Option RouteEntry) : (s.withWalk k d b).AgreesWith (t.withWalk k' d' b') :=
  h.of_onlyProcesses rfl rfl

theorem State.AgreesWith.respond (h : s.AgreesWith t) (r : Response) (p : List Byte) :
    (s.respond r p).AnswersLike (t.respond r p) :=
  ⟨h.of_onlyProcesses (respond_onlyProcesses ..) (respond_onlyProcesses ..), rfl, rfl⟩

theorem State.AgreesWith.loadFail (h : s.AgreesWith t) (cause : LoadCause) :
    (loadFail cause s).AnswersLike (loadFail cause t) := ⟨(h.respond _ _).toAgreesWith.withPhase .failed, rfl, rfl⟩

theorem State.AgreesWith.runReset (h : s.AgreesWith t) (later : List HostEvent) :
    (runReset later s).AgreesWith (runReset later t) := by
  unfold Machine.runReset
  rw [h.params]
  exact ⟨rfl, rfl, rfl, rfl, rfl, rfl, (List.forall₂_same).2 fun e _ => e.agrees_refl, rfl⟩

/-! ### The commands without payload -/

theorem State.AgreesWith.ifSet (h : s.AgreesWith t) (ifid : BitVec 8) (ip : Addr) (mac : LinkAddr) :
    (ifSet ifid ip mac s).AnswersLike (ifSet ifid ip mac t) := by
  unfold Machine.ifSet
  rw [h.params]
  split
  · exact (h.withIft (set_agrees h.ift _ _)).respond _ _
  · exact h.loadFail _

theorem State.AgreesWith.cfgSeal (h : s.AgreesWith t) : (cfgSeal s).AnswersLike (cfgSeal t) := by
  unfold Machine.cfgSeal
  rw [all_valid_of_agrees h.ift]
  split
  · exact (h.withPhase .run).respond _ _
  · exact h.loadFail _

theorem State.AgreesWith.stRead (h : s.AgreesWith t) : (stRead s).AnswersLike (stRead t) := by
  unfold Machine.stRead statusResponse ifvCnt
  rw [countP_valid_of_agrees h.ift, h.phase, h.nodeCnt, h.nbrCnt]
  exact h.respond _ _

theorem State.AgreesWith.nbInsert (h : s.AgreesWith t) (e : NeighborEntry) :
    (nbInsert e s).AnswersLike (nbInsert e t) := by
  unfold Machine.nbInsert
  rw [h.nbr, h.nbrCnt, h.params]
  split
  · exact h.loadFail _
  · split
    · exact h.loadFail _
    · exact (h.withNbr _ _).respond _ _

theorem State.AgreesWith.nbResolve (h : s.AgreesWith t) (ip : Addr) :
    (Machine.nbResolve ip s).AnswersLike (Machine.nbResolve ip t) := by
  unfold Machine.nbResolve
  rw [h.nbr]
  exact h.respond _ _

theorem State.AgreesWith.trieLookup (h : s.AgreesWith t) (a : Addr) :
    (trieLookup a s).AgreesWith (trieLookup a t) ∧ (trieLookup a s).best = (trieLookup a t).best :=
  ⟨h.of_onlyProcesses (trieLookup_onlyProcesses a s) (trieLookup_onlyProcesses a t), trieLookup_best_congr h.trie a⟩

theorem State.AgreesWith.rtLookup (h : s.AgreesWith t) (ip : Addr) : (rtLookup ip s).AnswersLike (rtLookup ip t) := by
  obtain ⟨hl, hb⟩ := h.trieLookup ip
  unfold Machine.rtLookup
  dsimp only
  rw [hb]
  exact hl.respond _ _

/-- The insertion walk reads `CUR`, which RT.INSERT has set, and no other hidden field. -/
theorem State.AgreesWith.insertWalk (bs : List Bool) {s t : State} (h : s.AgreesWith t) (hc : s.cur = t.cur) :
    (insertWalk bs s).AgreesWith (insertWalk bs t) ∧ (insertWalk bs s).cur = (insertWalk bs t).cur := by
  induction bs generalizing s t with
  | nil => exact ⟨h, hc⟩
  | cons b bs ih =>
    have hstep : (insertStep b s).AgreesWith (insertStep b t) := by
      unfold insertStep
      rw [hc, h.trie, h.nodeCnt]
      dsimp only
      split
      · exact h.withWalk ..
      · exact (h.withTrie _ _).withWalk ..
    exact ih hstep (congrArg (· ++ [b]) hc)

theorem State.AgreesWith.rtInsert (h : s.AgreesWith t) (e : RouteEntry) :
    (rtInsert e s).AnswersLike (rtInsert e t) := by
  obtain ⟨hw, hc⟩ := (h.withWalk [] 0 none [] 0 none).insertWalk (key e.pfx (clo32 e.mask)) rfl
  unfold Machine.rtInsert
  rw [h.params, h.nodeCnt, h.trie]
  split
  · split
    · split
      · unfold storeRoute
        rw [hc, hw.trie, hw.nodeCnt]
        exact (hw.withTrie _ _).respond _ _
      · exact h.loadFail _
    · exact h.loadFail _
  · exact h.loadFail _

/-! ### The frame -/

/-- After the payload load the frame is the payload, whatever the buffer held (rule R67). -/
theorem State.AgreesWith.loadPayload (h : s.AgreesWith t) (p : List Byte) :
    (loadPayload p s).FrameAgrees (loadPayload p t) := by
  refine ⟨h.of_onlyProcesses (loadPayload_onlyProcesses s p) (loadPayload_onlyProcesses t p), rfl, fun o ho => ?_⟩
  have hlt : o < p.length := by
    simp only [Machine.loadPayload, State.withFlen_flen, BitVec.toNat_ofNat] at ho
    exact Nat.lt_of_lt_of_le ho (Nat.mod_le _ _)
  simp [Machine.loadPayload, Memory.read_writeBytes, hlt]

/-- What writes only hidden fields, and none of the frame, keeps the agreement. -/
theorem State.FrameAgrees.of_onlyProcesses {s' t' : State} (h : s.FrameAgrees t) (hs : s.OnlyProcesses s')
    (ht : t.OnlyProcesses t') (hfs : s'.fb = s.fb ∧ s'.flen = s.flen) (hft : t'.fb = t.fb ∧ t'.flen = t.flen) :
    s'.FrameAgrees t' := by
  refine ⟨h.toAgreesWith.of_onlyProcesses hs ht, ?_, ?_⟩
  · rw [hfs.2, hft.2, h.flen]
  · rw [hfs.1, hfs.2, hft.1]
    exact h.bytes

theorem State.FrameAgrees.withStage (h : s.FrameAgrees t) (g : Stage) : (s.withStage g).FrameAgrees (t.withStage g) :=
  h.of_onlyProcesses rfl rfl ⟨rfl, rfl⟩ ⟨rfl, rfl⟩

theorem State.FrameAgrees.withSum (h : s.FrameAgrees t) (bs : List Byte) : (withSum bs s).FrameAgrees (withSum bs t) :=
  h.of_onlyProcesses rfl rfl ⟨rfl, rfl⟩ ⟨rfl, rfl⟩

theorem State.FrameAgrees.trieLookup (h : s.FrameAgrees t) (a : Addr) :
    (trieLookup a s).FrameAgrees (trieLookup a t) :=
  h.of_onlyProcesses (trieLookup_onlyProcesses a s) (trieLookup_onlyProcesses a t) (trieLookup_fb a s)
    (trieLookup_fb a t)

theorem State.FrameAgrees.fbByte_eq (h : s.FrameAgrees t) (o : Nat) : fbByte s o = fbByte t o := by
  unfold fbByte
  rw [← h.flen]
  split
  · rw [h.bytes o ‹_›]
  · rfl

theorem State.FrameAgrees.fbRange_eq (h : s.FrameAgrees t) (o n : Nat) : fbRange s o n = fbRange t o n := by
  induction n generalizing o with
  | zero => rfl
  | succ n ih => rw [fbRange, fbRange, h.fbByte_eq, ih]

theorem State.FrameAgrees.memRead_eq (h : s.FrameAgrees t) (o n : Nat) : memRead s o n = memRead t o n := by
  rw [memRead, memRead, h.fbRange_eq]

theorem State.FrameAgrees.memWrite (h : s.FrameAgrees t) (o n : Nat) (v : BitVec (8 * n)) :
    Alike State.FrameAgrees (memWrite s o n v) (memWrite t o n v) := by
  unfold Machine.memWrite
  rw [← h.flen]
  refine .ite (fun _ => .ok ⟨h.toAgreesWith.of_onlyProcesses rfl rfl, h.flen, fun a ha => ?_⟩) fun _ => .error _
  simp only [State.withFb_fb, Memory.read_writeBytes]
  rw [h.bytes a ha]

theorem State.FrameAgrees.rewriteChecksum (h : s.FrameAgrees t) (f o n : Nat) :
    Alike State.FrameAgrees (rewriteChecksum f o n s) (rewriteChecksum f o n t) :=
  (h.memWrite f 2 0).bind fun _ _ h₁ =>
    .bind_eq (h₁.fbRange_eq o n) fun bs => (h₁.withSum bs).memWrite f 2 (cksum bs)

theorem State.FrameAgrees.swapFields (h : s.FrameAgrees t) (o p n : Nat) :
    Alike State.FrameAgrees (swapFields o p n s) (swapFields o p n t) :=
  .bind_eq (h.memRead_eq o n) fun x => .bind_eq (h.memRead_eq p n) fun y =>
    (h.memWrite o n y).bind fun _ _ h₁ => h₁.memWrite p n x

theorem State.FrameAgrees.decrementTtl (h : s.FrameAgrees t) :
    Alike State.FrameAgrees (decrementTtl s) (decrementTtl t) :=
  .bind_eq (h.memRead_eq offTtl 1) fun ttl => h.memWrite offTtl 1 (ttl - 1)

theorem State.FrameAgrees.echoRewrite (h : s.FrameAgrees t) (hl totlen : Nat) :
    Alike State.FrameAgrees (echoRewrite hl totlen s) (echoRewrite hl totlen t) :=
  (h.swapFields ..).bind fun _ _ h₁ =>
  (h₁.swapFields ..).bind fun _ _ h₂ =>
  h₂.decrementTtl.bind fun _ _ h₃ =>
  (h₃.rewriteChecksum ..).bind fun _ _ h₄ =>
  (h₄.memWrite ..).bind fun _ _ h₅ =>
  (h₅.memWrite ..).bind fun _ _ h₆ => h₆.rewriteChecksum ..

/-! ### How a run of the pipeline ends -/

theorem State.AnswersLike.withStage (h : s.AnswersLike t) (g : Stage) : (s.withStage g).AnswersLike (t.withStage g) :=
  ⟨h.toAgreesWith.of_onlyProcesses rfl rfl, h.rsp, h.rspPayload⟩

theorem State.FrameAgrees.frameRefused (h : s.FrameAgrees t) :
    Alike State.AnswersLike (.ok (frameRefused s)) (.ok (frameRefused t)) :=
  .ok ((h.toAgreesWith.respond _ _).withStage .idle)

theorem State.FrameAgrees.dropped (h : s.FrameAgrees t) (reason : DropReason) :
    Alike State.AnswersLike (.ok (dropped reason s)) (.ok (dropped reason t)) :=
  .ok ((h.toAgreesWith.respond _ _).withStage .idle)

theorem State.FrameAgrees.emitted (h : s.FrameAgrees t) (o : PipeOutcome) (ifid : BitVec 8) :
    Alike State.AnswersLike (emitted o ifid s) (emitted o ifid t) := by
  unfold Machine.emitted
  rw [h.flen]
  exact .bind_eq (h.fbRange_eq _ _) fun _ => .ok ((h.toAgreesWith.respond _ _).withStage .idle)

/-! ### The stages, the last one first -/

theorem State.FrameAgrees.s7Forward (h : s.FrameAgrees t) (r : RouteEntry) (m : LinkAddr) :
    Alike State.AnswersLike (s7Forward r m s) (s7Forward r m t) :=
  ((h.withStage _).memWrite ..).bind fun _ _ h₁ =>
  .bind_eq (h₁.toAgreesWith.ifEntry_eq _) fun _ =>
  (h₁.memWrite ..).bind fun _ _ h₂ => h₂.emitted ..

theorem State.FrameAgrees.s6MutateResolve (h : s.FrameAgrees t) (hl : Nat) (r : RouteEntry) :
    Alike State.AnswersLike (s6MutateResolve hl r s) (s6MutateResolve hl r t) :=
  (h.withStage _).decrementTtl.bind fun _ _ h₁ =>
  (h₁.rewriteChecksum ..).bind fun _ _ h₂ => by
    rw [h₂.nbr]
    split
    · exact h₂.dropped _
    · exact h₂.s7Forward _ _

theorem State.FrameAgrees.s5TtlCheck (h : s.FrameAgrees t) (hl : Nat) (r : RouteEntry) :
    Alike State.AnswersLike (s5TtlCheck hl r s) (s5TtlCheck hl r t) :=
  have h := h.withStage .s5TtlCheck
  .bind_eq (h.memRead_eq ..) fun _ => .ite (fun _ => h.dropped _) fun _ => h.s6MutateResolve ..

theorem State.FrameAgrees.s4RouteLookup (h : s.FrameAgrees t) (hl : Nat) (dst : Addr) :
    Alike State.AnswersLike (s4RouteLookup hl dst s) (s4RouteLookup hl dst t) := by
  have h := h.withStage .s4RouteLookup
  obtain ⟨-, hb⟩ := h.toAgreesWith.trieLookup dst
  unfold Machine.s4RouteLookup
  dsimp only
  rw [hb]
  split
  · exact (h.trieLookup dst).dropped _
  · exact (h.trieLookup dst).s5TtlCheck _ _

theorem State.FrameAgrees.s3CsumValidate (h : s.FrameAgrees t) (hl : Nat) (dst : Addr) :
    Alike State.AnswersLike (s3CsumValidate hl dst s) (s3CsumValidate hl dst t) :=
  have h := h.withStage .s3CsumValidate
  .bind_eq (h.memRead_eq ..) fun _ => .bind_eq (h.fbRange_eq ..) fun _ =>
    .ite (fun _ => (h.withSum _).s4RouteLookup ..) fun _ => (h.withSum _).dropped _

theorem State.FrameAgrees.s2eEchoReply (h : s.FrameAgrees t) (rx : BitVec 8) (hl : Nat) :
    Alike State.AnswersLike (s2eEchoReply rx hl s) (s2eEchoReply rx hl t) := by
  have h := h.withStage .s2eEchoReply
  refine .bind_eq (h.memRead_eq ..) fun _ => ?_
  rw [h.flen]
  exact .ite (fun _ => h.frameRefused) fun _ => .ite (fun _ => h.frameRefused) fun _ =>
    (h.echoRewrite ..).bind fun _ _ h₁ => h₁.emitted ..

theorem State.FrameAgrees.s2SelfCheck (h : s.FrameAgrees t) (rx : BitVec 8) (hl : Nat) :
    Alike State.AnswersLike (s2SelfCheck rx hl s) (s2SelfCheck rx hl t) :=
  have h := h.withStage .s2SelfCheck
  .bind_eq (h.memRead_eq ..) fun _ => .bind_eq (h.toAgreesWith.ifEntry_eq _) fun _ =>
    .ite (fun _ => h.s2eEchoReply ..) fun _ => h.s3CsumValidate ..

theorem State.FrameAgrees.s1Classify (h : s.FrameAgrees t) (rx : BitVec 8) :
    Alike State.AnswersLike (s1Classify rx s) (s1Classify rx t) := by
  have h := h.withStage .s1Classify
  unfold Machine.s1Classify
  dsimp only
  rw [h.flen]
  exact .ite (fun _ => h.frameRefused) fun _ => .bind_eq (h.memRead_eq ..) fun _ =>
    .ite (fun _ => h.dropped _) fun _ => .ite (fun _ => h.frameRefused) fun _ =>
    .bind_eq (h.memRead_eq ..) fun _ => .ite (fun _ => h.frameRefused) fun _ =>
    .ite (fun _ => h.frameRefused) fun _ => h.s2SelfCheck ..

/-! ### The payload-bearing commands -/

theorem State.AgreesWith.csCompute (h : s.AgreesWith t) (p : List Byte) :
    Alike State.AnswersLike (csCompute p s) (csCompute p t) :=
  have h := h.loadPayload p
  .bind_eq (h.fbRange_eq ..) fun bs => .ok ((h.withSum bs).toAgreesWith.respond _ _)

theorem State.AgreesWith.csValidate (h : s.AgreesWith t) (coff claimed : BitVec 16) (p : List Byte) :
    Alike State.AnswersLike (csValidate coff claimed p s) (csValidate coff claimed p t) :=
  have h := h.loadPayload p
  .bind_eq (h.fbRange_eq ..) fun _ => .ok ((h.withSum _).toAgreesWith.respond _ _)

theorem State.AgreesWith.pktProcess (h : s.AgreesWith t) (ifid : BitVec 8) (p : List Byte) :
    Alike State.AnswersLike (pktProcess ifid p s) (pktProcess ifid p t) := (h.loadPayload p).s1Classify ifid

/-! ### A step, and a run -/

/-- The checks of rule R90 see the phase and the parameters, which are not hidden. -/
theorem State.AgreesWith.checked (h : s.AgreesWith t) (op : Opcode) (ok : Bool)
    {rule : State → Host.Outcome State Fault Refusal} (hr : EndAlike (rule s) (rule t)) :
    EndAlike (checked op ok s rule) (checked op ok t rule) := by
  unfold Machine.checked
  rw [h.phase]
  split
  · split
    · exact hr
    · exact .next (h.respond _ _)
  · exact .next (h.respond _ _)

theorem State.AgreesWith.exec (h : s.AgreesWith t) (i : Instr) : EndAlike (exec i s) (exec i t) := by
  cases i with
  | ifSet ifid ip mac =>
    rw [exec_ifSet, exec_ifSet]
    exact h.checked _ _ (.next (h.ifSet ifid ip mac))
  | rtInsert pfx mask nextHop ifid =>
    rw [exec_rtInsert, exec_rtInsert]
    exact h.checked _ _ (.next (h.rtInsert _))
  | nbInsert ip mac =>
    rw [exec_nbInsert, exec_nbInsert]
    exact h.checked _ _ (.next (h.nbInsert _))
  | cfgSeal =>
    rw [exec_cfgSeal, exec_cfgSeal]
    exact h.checked _ _ (.next h.cfgSeal)
  | stRead =>
    rw [exec_stRead, exec_stRead]
    exact h.checked _ _ (.next h.stRead)
  | rtLookup ip =>
    rw [exec_rtLookup, exec_rtLookup]
    exact h.checked _ _ (.next (h.rtLookup ip))
  | nbResolve ip =>
    rw [exec_nbResolve, exec_nbResolve]
    exact h.checked _ _ (.next (h.nbResolve ip))
  | csCompute p =>
    rw [exec_csCompute, exec_csCompute, h.params]
    exact h.checked _ _ (h.csCompute p).ofAccess
  | csValidate coff claimed p =>
    rw [exec_csValidate, exec_csValidate, h.params]
    exact h.checked _ _ (h.csValidate coff claimed p).ofAccess
  | pktProcess ifid p =>
    rw [exec_pktProcess, exec_pktProcess, h.params]
    exact h.checked _ _ (h.pktProcess ifid p).ofAccess

theorem State.AgreesWith.refuseReserved (h : s.AgreesWith t) (op : Opcode) :
    (refuseReserved op s).AnswersLike (refuseReserved op t) := by
  unfold Machine.refuseReserved
  rw [h.phase]
  split <;> exact h.respond _ _

theorem State.AgreesWith.runCommand (h : s.AgreesWith t) (c : Command) (later : List HostEvent) :
    EndAlike (runCommand c later s) (runCommand c later t) := by
  have h := h.acceptCommand c later
  unfold Machine.runCommand
  split
  · exact .fault _
  · exact .next (h.respond _ _)
  · exact .next (h.refuseReserved _)
  · exact h.exec _

/-- One more step of a trace, by what the host does next. -/
theorem trace_succ_waiting (n : Nat) (h : s.host = []) : trace (n + 1) s = trace n s := by
  rw [trace, step, runEvent, h]

theorem trace_succ_reset (n : Nat) {later : List HostEvent} (h : s.host = .reset :: later) :
    trace (n + 1) s = trace n (runReset later s) := by
  rw [trace, step_of_reset h, h]

theorem trace_succ_command (n : Nat) {u : State} {c : Command} {later : List HostEvent}
    (h : s.host = .command c :: later) (hr : runCommand c later s = .next u) :
    trace (n + 1) s = (u.rsp, u.rspPayload) :: trace n u := by
  rw [trace, step_of_command h, hr, h]

theorem trace_succ_fault (n : Nat) {f : Fault} {c : Command} {later : List HostEvent}
    (h : s.host = .command c :: later) (hr : runCommand c later s = .fault f) : trace (n + 1) s = [] := by
  rw [trace, step_of_command h, hr]

/-- The agreement alone carries the run: it keeps the responses the same at every step, and the two states agree
again. -/
theorem State.AgreesWith.trace_eq (n : Nat) {s t : State} (h : s.AgreesWith t) : trace n s = trace n t := by
  induction n generalizing s t with
  | zero => rfl
  | succ n ih =>
    match hs : s.host with
    | [] => rw [trace_succ_waiting n hs, trace_succ_waiting n (h.host ▸ hs), ih h]
    | .reset :: later =>
      rw [trace_succ_reset n hs, trace_succ_reset n (h.host ▸ hs), ih (h.runReset later)]
    | .command c :: later =>
      have ht : t.host = .command c :: later := h.host ▸ hs
      obtain ⟨u, v, hu, hv, ha⟩ | ⟨f, hu, hv⟩ := (h.runCommand c later).cases
      · rw [trace_succ_command n hs hu, trace_succ_command n ht hv, ha.rsp, ha.rspPayload, ih ha.toAgreesWith]
      · rw [trace_succ_fault n hs hu, trace_succ_fault n ht hv]
end

/-- Settles O20: the agreement is a bisimulation for the responses. The invariant is not needed, since two states in
agreement also fault alike. -/
theorem hiddenStateNeverShows : Obligations.HiddenStateNeverShows :=
  fun _ _ _ h n => h.trace_eq n

end Sys2Proof.Machine
end

section
/-! SUPPORT. The statements of `spec/10_state.md`: what a step writes of the phase and the parameters, the state after
reset, the node store as a set of keys, and the response word. -/

namespace Sys2Proof.Machine

open Sys2Proof

/-! ### The response word (rule R22) -/

/-- The first field of a command word is the status and the flags of a response word. -/
theorem st_append_flg (w : PortWord) : (Response.ofWord w).st ++ (Response.ofWord w).flg = opField w :=
  BitVec.extractLsb'_append_extractLsb'_eq_extractLsb' (by decide)

/-- The word is put together from its fields, as a command word is. -/
theorem Response.word_ofWord (w : PortWord) : (Response.ofWord w).word = w := by
  rw [Response.word_eq, st_append_flg]
  exact portWord_fields w

/-- The status a load failure answers (rules R87, R91). -/
theorem st_loadFail (cause : LoadCause) (s : State) : (Response.ofWord (loadFail cause s).rsp).st = 5 := by
  have hr : (loadFail cause s).rsp = (Response.failure .errLoad (cause.code.setWidth 32)).word := rfl
  rw [hr, Response.ofWord_word]
  rfl

/-! ### The rules of the configuration commands: success or a load failure, each with its guards -/

section
variable (s : State)

theorem ifSet_cases (ifid : BitVec 8) (ip : Addr) (mac : LinkAddr) :
    (ifidLegal s.params ifid = true ∧ ifSet ifid ip mac s =
      succeed (s.withIft (s.ift.set ifid.toNat { valid := true, ip := ip, linkAddress := mac }))) ∨
    (¬ifidLegal s.params ifid = true ∧ ifSet ifid ip mac s = loadFail .badIfid s) := by
  unfold ifSet
  split
  · exact .inl ⟨‹_›, rfl⟩
  · exact .inr ⟨‹_›, rfl⟩

theorem cfgSeal_cases :
    (s.ift.all IfEntry.valid = true ∧ cfgSeal s = succeed (s.withPhase .run)) ∨
    (¬s.ift.all IfEntry.valid = true ∧ cfgSeal s = loadFail .ifMissing s) := by
  unfold cfgSeal
  split
  · exact .inl ⟨‹_›, rfl⟩
  · exact .inr ⟨‹_›, rfl⟩

theorem nbInsert_cases (e : NeighborEntry) :
    (¬s.nbr.any (fun x => x.ip == e.ip) = true ∧ s.nbrCnt.toNat ≠ s.params.nbrCap ∧
      nbInsert e s = succeed (s.withNbr (s.nbr ++ [e]) (s.nbrCnt + 1))) ∨
    (s.nbr.any (fun x => x.ip == e.ip) = true ∧ nbInsert e s = loadFail .nbrDup s) ∨
    (¬s.nbr.any (fun x => x.ip == e.ip) = true ∧ s.nbrCnt.toNat = s.params.nbrCap ∧
      nbInsert e s = loadFail .nbrFull s) := by
  unfold nbInsert
  split
  · exact .inr (.inl ⟨‹_›, rfl⟩)
  · split
    · exact .inr (.inr ⟨‹_›, ‹_›, rfl⟩)
    · exact .inl ⟨‹_›, ‹_›, rfl⟩

theorem rtInsert_cases (e : RouteEntry) :
    (maskLegal e.mask = true ∧ ifidLegal s.params e.egress = true ∧
      s.nodeCnt.toNat + s.trie.missing e.pfx (clo32 e.mask) ≤ s.params.nodeCap ∧
      rtInsert e s = storeRoute e (insertWalk (key e.pfx (clo32 e.mask)) (s.withWalk [] 0 none))) ∨
    (¬maskLegal e.mask = true ∧ rtInsert e s = loadFail .badMask s) ∨
    (maskLegal e.mask = true ∧ ¬ifidLegal s.params e.egress = true ∧ rtInsert e s = loadFail .badIfid s) ∨
    (maskLegal e.mask = true ∧ ifidLegal s.params e.egress = true ∧
      s.params.nodeCap < s.nodeCnt.toNat + s.trie.missing e.pfx (clo32 e.mask) ∧
      rtInsert e s = loadFail .trieFull s) := by
  unfold rtInsert
  split
  · split
    · split
      · exact .inl ⟨‹_›, ‹_›, ‹_›, rfl⟩
      · exact .inr (.inr (.inr ⟨‹_›, ‹_›, Nat.lt_of_not_le ‹_›, rfl⟩))
    · exact .inr (.inr (.inl ⟨‹_›, ‹_›, rfl⟩))
  · exact .inr (.inl ⟨‹_›, rfl⟩)
end

/-! ### What RT.INSERT leaves unchanged, in any state -/

/-- A turn of the insertion loop writes the trie, its count and the walker's place; no node need be there. -/
theorem insertStep_frame (b : Bool) (s : State) :
    { insertStep b s with trie := s.trie, nodeCnt := s.nodeCnt, cur := s.cur, depth := s.depth } = s := by
  unfold insertStep
  dsimp only
  split <;> rfl

theorem insertWalk_frame (bs : List Bool) (s : State) :
    { insertWalk bs s with trie := s.trie, nodeCnt := s.nodeCnt, cur := s.cur, depth := s.depth } = s := by
  induction bs generalizing s with
  | nil => rfl
  | cons b bs ih =>
    have hstep := insertStep_frame b s
    exact (congrArg
      (fun u : State => { u with trie := s.trie, nodeCnt := s.nodeCnt, cur := s.cur, depth := s.depth })
      (ih (insertStep b s))).trans hstep

@[simp] theorem insertWalk_phase (bs : List Bool) (s : State) : (insertWalk bs s).phase = s.phase :=
  (congrArg State.phase (insertWalk_frame bs s) :)

@[simp] theorem insertWalk_params (bs : List Bool) (s : State) : (insertWalk bs s).params = s.params :=
  (congrArg State.params (insertWalk_frame bs s) :)

/-! ### What a command writes of the phase and the parameters (rules R20, R23) -/

/-- Neither the parameters nor the phase differ. -/
def State.SamePhase (s t : State) : Prop := t.params = s.params ∧ t.phase = s.phase

theorem State.OnlyProcesses.samePhase {s t : State} (h : s.OnlyProcesses t) : s.SamePhase t := by
  obtain ⟨hparams, hphase, -⟩ := onlyProcesses_iff.1 h
  exact ⟨hparams, hphase⟩

theorem refuse_samePhase (code : Status) (s : State) : s.SamePhase (refuse code s) := ⟨rfl, rfl⟩

theorem refuseReserved_samePhase (op : Opcode) (s : State) : s.SamePhase (refuseReserved op s) := by
  rcases refuseReserved_cases op s with h | h
  · exact h ▸ refuse_samePhase .errOperand s
  · exact h ▸ refuse_samePhase .errPhase s

theorem storeRoute_samePhase (e : RouteEntry) (bs : List Bool) (s : State) :
    s.SamePhase (storeRoute e (insertWalk bs (s.withWalk [] 0 none))) :=
  ⟨insertWalk_params bs _, insertWalk_phase bs _⟩

/-- An executed command keeps the phase, or it ran in CONFIG and is a CFG.SEAL that succeeded or a load failure. -/
theorem exec_phase_cases {i : Instr} {s t : State} (h : exec i s = .next t) :
    s.SamePhase t ∨
    (s.phase = .config ∧ i = .cfgSeal ∧ t = succeed (s.withPhase .run)) ∨
    (s.phase = .config ∧ ∃ cause, t = loadFail cause s) := by
  obtain ⟨-, rfl⟩ | ⟨-, rfl⟩ | ⟨hp, hrule⟩ := exec_cases h
  · exact .inl (refuse_samePhase ..)
  · exact .inl (refuse_samePhase ..)
  · rcases hrule with ⟨ifid, ip, mac, rfl, rfl⟩ | ⟨e, rfl, rfl⟩ | ⟨e, rfl, rfl⟩ | ⟨rfl, rfl⟩ | ⟨rfl, rfl⟩ | ⟨ip, rfl, rfl⟩ |
      ⟨ip, rfl, rfl⟩ | ⟨p, rfl, -, hr⟩ | ⟨coff, claimed, p, rfl, -, -, hr⟩ | ⟨ifid, p, rfl, -, -, hr⟩
    · obtain ⟨-, ht⟩ | ⟨-, ht⟩ := ifSet_cases s ifid ip mac
      · exact .inl (ht ▸ ⟨rfl, rfl⟩)
      · exact .inr (.inr ⟨eq_of_beq hp, _, ht⟩)
    · obtain ⟨-, -, -, ht⟩ | ⟨-, ht⟩ | ⟨-, -, ht⟩ | ⟨-, -, -, ht⟩ := rtInsert_cases s e
      · exact .inl (ht ▸ storeRoute_samePhase ..)
      all_goals exact .inr (.inr ⟨eq_of_beq hp, _, ht⟩)
    · obtain ⟨-, -, ht⟩ | ⟨-, ht⟩ | ⟨-, -, ht⟩ := nbInsert_cases s e
      · exact .inl (ht ▸ ⟨rfl, rfl⟩)
      all_goals exact .inr (.inr ⟨eq_of_beq hp, _, ht⟩)
    · obtain ⟨-, ht⟩ | ⟨-, ht⟩ := cfgSeal_cases s
      · exact .inr (.inl ⟨eq_of_beq hp, rfl, ht⟩)
      · exact .inr (.inr ⟨eq_of_beq hp, _, ht⟩)
    · exact .inl (respond_onlyProcesses ..).samePhase
    · exact .inl ((trieLookup_onlyProcesses ..).trans (respond_onlyProcesses ..)).samePhase
    · exact .inl (respond_onlyProcesses ..).samePhase
    · exact .inl (csCompute_frame hr).1.samePhase
    · exact .inl (csValidate_frame hr).1.samePhase
    · exact .inl (pktProcess_frame hr).1.samePhase

/-- A step keeps the phase, or it is a reset, a CFG.SEAL that succeeded or a load failure; the last two in CONFIG. -/
theorem step_phase_cases {s t : State} (h : step s = .next t) :
    s.SamePhase t ∨
    (∃ later, s.host = .reset :: later ∧ t = runReset later s) ∨
    ∃ c later, s.host = .command c :: later ∧ s.phase = .config ∧
      ((decode c = .ok .cfgSeal ∧ t = succeed ((acceptCommand c later s).withPhase .run)) ∨
      ∃ cause, t = loadFail cause (acceptCommand c later s)) := by
  obtain ⟨-, rfl⟩ | hreset | ⟨c, later, hh, -, ⟨-, rfl⟩ | ⟨op, -, rfl⟩ | ⟨i, hd, he⟩⟩ := step_cases h
  · exact .inl ⟨rfl, rfl⟩
  · exact .inr (.inl hreset)
  · exact .inl ⟨rfl, rfl⟩
  · exact .inl (refuseReserved_samePhase op (acceptCommand c later s))
  · obtain hs | ⟨hp, rfl, ht⟩ | ⟨hp, ht⟩ := exec_phase_cases he
    · exact .inl hs
    · exact .inr (.inr ⟨c, later, hh, hp, .inl ⟨hd, ht⟩⟩)
    · exact .inr (.inr ⟨c, later, hh, hp, .inr ht⟩)

/-- A command that decodes has its instruction's opcode. -/
theorem opField_of_decode {c : Command} {i : Instr} (h : decode c = .ok i) : opField c.word = i.opcode.code := by
  obtain ⟨-, op, ho, -, rfl⟩ := decode_eq_ok.1 h
  rw [opcode_assemble, ho]

/-- Settles O12, by the cases of a step. -/
theorem phaseChangesOnlyByRule : Obligations.PhaseChangesOnlyByRule := by
  intro s t h
  obtain ⟨-, hphase⟩ | ⟨later, hh, rfl⟩ | ⟨c, later, hh, hp, ⟨hd, rfl⟩ | ⟨cause, rfl⟩⟩ := step_phase_cases h
  · exact .inl hphase
  · exact .inr (.inl ⟨later, hh, rfl⟩)
  · exact .inr (.inr (.inl ⟨hp, rfl, succeed_answered _, c, later, hh, opField_of_decode hd⟩))
  · exact .inr (.inr (.inr ⟨hp, rfl, st_loadFail ..⟩))

/-- Settles O16: the phase changes by the three rules only, and none of them writes the parameters. -/
theorem parametersNeverChange : Obligations.ParametersNeverChange := by
  intro s t h
  obtain ⟨hparams, -⟩ | ⟨later, -, rfl⟩ | ⟨c, later, -, -, ⟨-, rfl⟩ | ⟨cause, rfl⟩⟩ := step_phase_cases h
  · exact hparams
  · rfl
  · rfl
  · rfl

/-- Settles O5. -/
theorem responseWordHoldsItsFields : Obligations.ResponseWordHoldsItsFields :=
  ⟨Response.ofWord_word, Response.word_ofWord⟩

/-! ### The node store (rules R24, R27) -/

/-- Settles O21: each part is a law of the node store, by induction on the trie. -/
theorem keysListTheNodes : Obligations.KeysListTheNodes :=
  fun t => ⟨t.keys_nodup, t.mem_keys, fun _ _ => Trie.hasNode_of_prefix, fun _ _ => Trie.hasNode_of_routeAt⟩

/-! ### The state after reset (rule R37) -/

/-- The trie of the root alone has the one node. -/
theorem hasNode_root (k : Key) : (Trie.node none .absent .absent).hasNode k = true ↔ k = [] := by
  cases k with
  | nil => simp [Trie.hasNode]
  | cons b k => cases b <;> simp [Trie.hasNode]

/-- The root alone owns no route. -/
theorem routeAt_root (k : Key) : (Trie.node none .absent .absent).routeAt k = none := by
  cases k with
  | nil => rfl
  | cons b k => cases b <;> simp [Trie.routeAt]

/-- No interface has been set after a reset. -/
theorem not_valid_of_mem_resetWith_ift {p : Params} {e : IfEntry} (h : e ∈ (State.resetWith p).ift) :
    e.valid = false := by
  rw [List.eq_of_mem_replicate h]
  rfl

theorem length_resetWith_ift (p : Params) : (State.resetWith p).ift.length = p.nIf := List.length_replicate

/-- Settles O17. -/
theorem resetGivesTheSpecsValues : Obligations.ResetGivesTheSpecsValues := by
  intro s later hh
  exact ⟨runReset later s, step_of_reset hh, rfl, hasNode_root, routeAt_root, rfl, rfl, rfl,
    length_resetWith_ift s.params, fun _ => not_valid_of_mem_resetWith_ift, rfl, rfl, rfl, rfl⟩

/-- The parameters of the machine at hand are in their range: each is an offset from its lower bound. -/
theorem config_params_legal : Config.params.Legal where
  nIf_pos := Nat.le_add_left 1 _
  nIf_le := Config.nIfLessOne.isLt
  nodeCap_pos := Nat.le_add_left 1 _
  nodeCap_lt := Nat.succ_lt_succ Config.nodeCapLessOne.isLt
  nbrCap_lt := Config.nbrCap.isLt
  frameMax_ge := Nat.le_add_left 34 _
  frameMax_le := Nat.add_le_add_right (Nat.le_of_lt_succ Config.frameMaxLess34.isLt) 34

/-- Reset meets the invariant for every legal choice of the parameters (rules R37, R38). -/
theorem resetWith_inv {p : Params} (h : p.Legal) : (State.resetWith p).Inv where
  params := h
  root := rfl
  nodeCnt := rfl
  nodeCap := h.nodeCap_pos
  depth := by simp [State.resetWith, Trie.keys]
  routes k _ := congrArg (routeFits p k) (routeAt_root k)
  nbrDistinct := List.nodup_nil
  nbrCnt := rfl
  nbrCap := Nat.zero_le _
  flen := Nat.zero_le _
  sealed h := nomatch h
  ift := length_resetWith_ift p
  fbWf := reset_fb_wf p
  fbSize _ hx := nomatch hx
  fbLoaded o ho := absurd ho (Nat.not_lt_zero o)
  stage := rfl

/-- Settles O18. -/
theorem resetMeetsInvariant : Obligations.ResetMeetsInvariant := resetWith_inv config_params_legal

end Sys2Proof.Machine
end

section
/-! SUPPORT. The statements of `spec/20_memory.md`: a read and a write of the frame as big-endian numbers (rules R51 to
R53), on a state of which no more is known than the bytes accessed. -/

namespace Sys2Proof.Machine

open Sys2Proof

/-! ### Reads (rule R52) -/

/-- The number of `n` bytes as the sum of its bytes, each at its own power of 256. -/
theorem beValue_map_range (n : Nat) (b : Nat → Byte) :
    beValue ((List.range n).map b) = ((List.range n).map (fun i => (b i).toNat * 2 ^ (8 * (n - 1 - i)))).sum := by
  induction n generalizing b with
  | zero => rfl
  | succ n ih =>
    have hpow : ∀ i, n - 1 - i = n - (i + 1) := fun i => by rw [Nat.sub_sub, Nat.add_comm]
    simp [List.range_succ_eq_map, beValue, Function.comp_def, ih, hpow]

/-- A range inside the frame whose bytes have been written reads as those bytes. -/
theorem fbRange_of_bytes {s : State} {o n : Nat} {b : Nat → Byte} (ho : o + n ≤ s.flen.toNat)
    (hb : ∀ i, i < n → s.fb.read (o + i) = some (b i)) : fbRange s o n = .ok ((List.range n).map b) := by
  induction n generalizing o b with
  | zero => rfl
  | succ n ih =>
    have hfirst : fbByte s o = .ok (b 0) := by
      have hread : s.fb.read o = some (b 0) := hb 0 (by omega)
      rw [fbByte, if_pos (by omega), hread]
    have hrest : fbRange s (o + 1) n = .ok ((List.range n).map (b ∘ Nat.succ)) := by
      refine ih (by omega) fun i hi => ?_
      rw [Nat.add_right_comm, Nat.add_assoc]
      exact hb (i + 1) (by omega)
    rw [fbRange, hfirst, hrest, List.range_succ_eq_map, List.map_cons, List.map_map]
    rfl

theorem memRead_of_fbRange {s : State} {o n : Nat} {bs : List Byte} (h : fbRange s o n = .ok bs) :
    memRead s o n = .ok (BitVec.ofNat (8 * n) (beValue bs)) := by
  rw [memRead, h]
  rfl

/-- Settles O46: the bytes of the range are read in order, and their number fits the width. -/
theorem memReadIsBigEndian : Obligations.MemReadIsBigEndian := by
  intro s o n b ho hb
  have hfits : beValue ((List.range n).map b) < 2 ^ (8 * n) := by
    simpa using beValue_lt ((List.range n).map b)
  refine ⟨_, memRead_of_fbRange (fbRange_of_bytes ho hb), ?_⟩
  rw [BitVec.toNat_ofNat, Nat.mod_eq_of_lt hfits, beValue_map_range]

/-! ### Writes (rule R53) -/

/-- Byte `i` of a big-endian number of `n` bytes. -/
def beByte (n v i : Nat) : Byte := BitVec.ofNat 8 (v >>> (8 * (n - 1 - i)))

theorem beBytes_eq_map (n v : Nat) : beBytes n v = (List.range n).map (beByte n v) := rfl

/-- The mask of rule R53 is what the width of a byte keeps. -/
theorem beByte_eq_masked (n v i : Nat) : beByte n v i = BitVec.ofNat 8 (v >>> (8 * (n - 1 - i)) &&& 0xFF) := by
  refine BitVec.eq_of_toNat_eq ?_
  rw [Nat.and_two_pow_sub_one_eq_mod _ 8]
  simp [beByte]

/-- The bytes of a number written at `o` are read back at `o`, the most significant first. -/
theorem read_writeBytes_beBytes (m : Memory) (o v : Nat) {n i : Nat} (hi : i < n) :
    (m.writeBytes o (beBytes n v)).read (o + i) = some (beByte n v i) := by
  rw [Memory.read_writeBytes, length_beBytes, if_pos (by omega), Nat.add_sub_cancel_left, beBytes_eq_map]
  simp [hi]

/-- A write of a number leaves every byte outside its range. -/
theorem read_writeBytes_beBytes_outside (m : Memory) (v : Nat) {o n a : Nat} (h : a < o ∨ o + n ≤ a) :
    (m.writeBytes o (beBytes n v)).read a = m.read a := by
  rw [Memory.read_writeBytes, length_beBytes, if_neg (by omega)]

/-- Any first bytes of a number just written read as the number's bytes. -/
theorem fbRange_after_write {s : State} {o n k v : Nat} (hk : k ≤ n) (ho : o + n ≤ s.flen.toNat) :
    fbRange (s.withFb (s.fb.writeBytes o (beBytes n v))) o k = .ok ((List.range k).map (beByte n v)) :=
  fbRange_of_bytes (Nat.le_trans (Nat.add_le_add_left hk o) ho) fun _ hi =>
    read_writeBytes_beBytes s.fb o v (Nat.lt_of_lt_of_le hi hk)

/-- The number written is the number read back, for every width. -/
theorem memRead_after_write {s : State} {o n : Nat} (v : BitVec (8 * n)) (ho : o + n ≤ s.flen.toNat) :
    memRead (s.withFb (s.fb.writeBytes o (beBytes n v.toNat))) o n = .ok v := by
  rw [memRead_of_fbRange (fbRange_after_write (Nat.le_refl n) ho), ← beBytes_eq_map, beValue_beBytes,
    Nat.mod_eq_of_lt v.isLt, BitVec.ofNat_toNat, BitVec.setWidth_eq]

/-- The first of the two bytes of a 16-bit number holds its upper half. -/
theorem ofNat_beValue_first_of_two (v : BitVec 16) :
    BitVec.ofNat (8 * 1) (beValue [beByte 2 v.toNat 0]) = v.extractLsb' 8 8 := by
  refine BitVec.eq_of_toNat_eq ?_
  simp [beValue, beByte, BitVec.extractLsb'_toNat]

/-- Settles O47: what a write lists is known byte by byte, so both reads are reads of known bytes. The width plays no
part. -/
theorem memReadAfterMemWrite : Obligations.MemReadAfterMemWrite := by
  refine ⟨fun s o n v _ ho => ⟨_, if_pos ho, fun i hi => ?_, fun a ha => ?_, memRead_after_write v ho⟩,
    fun s t o v h => ?_⟩
  · rw [read_writeBytes_beBytes s.fb o v.toNat hi, beByte_eq_masked]
  · exact read_writeBytes_beBytes_outside s.fb v.toNat ha
  · obtain ⟨ho, rfl⟩ := memWrite_eq_ok h
    rw [memRead_of_fbRange (fbRange_after_write (by omega : 1 ≤ 2) ho)]
    exact congrArg Except.ok (ofNat_beValue_first_of_two v)

end Sys2Proof.Machine
end

section
/-! SUPPORT. The invariant of `spec/10_state.md` rule R38, kept by every command's rule and so by every step. -/

namespace Sys2Proof.Machine

open Sys2Proof

/-! ### How a command ends, and the configuration commands -/

section
variable {s t : State}

/-- The port and the host are no part of the invariant. -/
theorem State.Inv.acceptCommand (h : s.Inv) (c : Command) (later : List HostEvent) :
    (acceptCommand c later s).Inv := { h with }

/-- What the payload-bearing commands work on is in the invariant through the frame buffer and the stage alone. -/
theorem State.Inv.of_onlyProcesses (h : s.Inv) (ho : s.OnlyProcesses t) (hf : t.FrameOk) (hs : t.stage = .idle) :
    t.Inv :=
  { (congrArg State.Inv ho).mpr h with
    flen := hf.flen, fbWf := hf.fbWf, fbSize := hf.fbSize, fbLoaded := hf.fbLoaded, stage := hs }

theorem State.Inv.respond (h : s.Inv) (r : Response) (p : List Byte) : (s.respond r p).Inv := { h with }

theorem State.Inv.refuse (h : s.Inv) (code : Status) : (refuse code s).Inv := h.respond ..

theorem State.Inv.refuseReserved (h : s.Inv) (op : Opcode) : (refuseReserved op s).Inv := by
  obtain he | he := refuseReserved_cases op s
  · exact he ▸ h.refuse _
  · exact he ▸ h.refuse _

theorem State.Inv.succeed (h : s.Inv) : (succeed s).Inv := h.respond ..

theorem State.Inv.withWalk (h : s.Inv) (k : Key) (d : Nat) (b : Option RouteEntry) : (s.withWalk k d b).Inv :=
  { h with }

/-- A load failure leaves the tables as they are, and outside RUN nothing is said of the interfaces. -/
theorem State.Inv.loadFail (h : s.Inv) (cause : LoadCause) : (loadFail cause s).Inv :=
  { h with sealed := fun hrun => nomatch hrun }

/-- IF.SET is a command of CONFIG: it may write any entry, and the number of entries stays. -/
theorem State.Inv.ifSet (h : s.Inv) (hc : s.phase = .config) (ifid : BitVec 8) (ip : Addr) (mac : LinkAddr) :
    (ifSet ifid ip mac s).Inv := by
  obtain ⟨-, he⟩ | ⟨-, he⟩ := ifSet_cases s ifid ip mac
  · rw [he]
    refine State.Inv.succeed { h with sealed := fun hrun => ?_, ift := List.length_set.trans h.ift }
    exact absurd (hc.symm.trans hrun) (by decide)
  · exact he ▸ h.loadFail _

/-- CFG.SEAL enters RUN after the check that every interface has been set. -/
theorem State.Inv.cfgSeal (h : s.Inv) : (cfgSeal s).Inv := by
  obtain ⟨hall, he⟩ | ⟨-, he⟩ := cfgSeal_cases s
  · rw [he]
    exact State.Inv.succeed { h with sealed := fun _ => hall }
  · exact he ▸ h.loadFail _

/-- NB.INSERT appends an address that is not in the table, while there is room. -/
theorem State.Inv.nbInsert (h : s.Inv) (e : NeighborEntry) : (nbInsert e s).Inv := by
  obtain ⟨hnew, hroom, he⟩ | ⟨-, he⟩ | ⟨-, -, he⟩ := nbInsert_cases s e
  · have hcnt : (s.nbrCnt + 1).toNat = s.nbrCnt.toNat + 1 := by
      have hlt := h.params.nbrCap_lt
      have hcap := h.nbrCap
      rw [BitVec.toNat_add]
      simp
      omega
    have hdistinct : ((s.nbr ++ [e]).map NeighborEntry.ip).Nodup := by
      rw [List.map_append, List.map_singleton, ← List.concat_eq_append]
      refine h.nbrDistinct.concat fun hmem => hnew ?_
      obtain ⟨x, hx, hip⟩ := List.mem_map.1 hmem
      exact List.any_eq_true.2 ⟨x, hx, beq_iff_eq.2 hip⟩
    rw [he]
    refine State.Inv.succeed { h with nbrDistinct := hdistinct, nbrCnt := ?_, nbrCap := ?_ }
    · rw [State.withNbr_nbrCnt, State.withNbr_nbr, hcnt, h.nbrCnt, List.length_append, List.length_singleton]
    · rw [State.withNbr_nbrCnt, State.withNbr_params, hcnt]
      exact Nat.lt_of_le_of_ne h.nbrCap hroom
  · exact he ▸ h.loadFail _
  · exact he ▸ h.loadFail _

/-- A key without a node owns no route, so clause (d) holds of every key. -/
theorem State.Inv.routeFits_routeAt (h : s.Inv) (k : Key) : routeFits s.params k (s.trie.routeAt k) = true := by
  cases hr : s.trie.routeAt k with
  | none => rfl
  | some r => exact hr ▸ h.routes k ((s.trie.mem_keys k).2 (Trie.hasNode_of_routeAt hr))

theorem State.Inv.length_le_of_hasNode (h : s.Inv) {k : Key} (hk : s.trie.hasNode k = true) : k.length ≤ maxDepth :=
  h.depth k ((s.trie.mem_keys k).2 hk)

/-- An entry that passed the checks of RT.INSERT fits at its own key. -/
theorem routeFits_routeKey {p : Params} {e : RouteEntry} (hm : maskLegal e.mask = true)
    (hi : ifidLegal p e.egress = true) : routeFits p (routeKey e) (some e) = true := by
  simpa [routeFits, routeKey, ifidLegal, hm] using hi

/-- The walk and the store of RT.INSERT, behind its three checks: the nodes added are beginnings of a key of at most 32
bits, there was room for all of them, and the one route that changes fits. -/
theorem State.Inv.storeRoute {e : RouteEntry} (h : s.Inv) (hm : maskLegal e.mask = true)
    (hi : ifidLegal s.params e.egress = true)
    (hroom : s.nodeCnt.toNat + s.trie.missing e.pfx (clo32 e.mask) ≤ s.params.nodeCap) :
    (storeRoute e (insertWalk (routeKey e) (s.withWalk [] 0 none))).Inv := by
  have hmissing : s.trie.missing e.pfx (clo32 e.mask) = missingFrom s.trie [] (routeKey e) := missing_eq ..
  obtain ⟨hnode, hroute, hkeys, hcnt, hcur, -, hframe⟩ := insertWalk_spec (routeKey e) (s.withWalk [] 0 none) h.root
  have hwalk := (congrArg State.Inv hframe).mpr (h.withWalk [] 0 none)
  have hparams : (insertWalk (routeKey e) (s.withWalk [] 0 none)).params = s.params := insertWalk_params ..
  generalize insertWalk (routeKey e) (s.withWalk [] 0 none) = w at *
  simp only [State.withWalk_trie, State.withWalk_cur, List.nil_append] at hnode hroute hkeys hcur
  simp only [State.withWalk_trie, State.withWalk_cur, State.withWalk_nodeCnt] at hcnt
  have hend : w.trie.hasNode w.cur = true := (hnode w.cur).2 (.inr (hcur ▸ List.prefix_rfl))
  have hcount : w.nodeCnt.toNat = s.nodeCnt.toNat + missingFrom s.trie [] (routeKey e) := by
    have hlt := h.params.nodeCap_lt
    rw [hcnt, BitVec.toNat_add, BitVec.toNat_ofNat]
    omega
  exact { hwalk with
    root := by
      show (w.trie.setRoute w.cur e).hasNode [] = true
      rw [Trie.hasNode_setRoute]
      exact (hnode []).2 (.inl h.root)
    nodeCnt := by
      show w.nodeCnt.toNat = (w.trie.setRoute w.cur e).keys.length
      rw [Trie.keys_setRoute, hcount, hkeys, h.nodeCnt]
    nodeCap := by
      show w.nodeCnt.toNat ≤ w.params.nodeCap
      rw [hcount, hparams, ← hmissing]
      exact hroom
    depth := fun k hk => by
      change k ∈ (w.trie.setRoute w.cur e).keys at hk
      rw [Trie.keys_setRoute, Trie.mem_keys, hnode] at hk
      rcases hk with hold | hnew
      · exact h.length_le_of_hasNode hold
      · have hlen := hnew.length_le
        rw [routeKey, length_key] at hlen
        exact hlen.trans (clo32_le e.mask)
    routes := fun k _ => by
      show routeFits w.params k ((w.trie.setRoute w.cur e).routeAt k) = true
      rw [Trie.routeAt_setRoute hend, hroute, hparams, hcur]
      split
      · next hk => exact hk ▸ routeFits_routeKey hm hi
      · exact h.routeFits_routeAt k }

theorem State.Inv.rtInsert (h : s.Inv) (e : RouteEntry) : (rtInsert e s).Inv := by
  obtain ⟨hm, hi, hroom, he⟩ | ⟨-, he⟩ | ⟨-, -, he⟩ | ⟨-, -, -, he⟩ := rtInsert_cases s e
  · exact he ▸ h.storeRoute hm hi hroom
  all_goals exact he ▸ h.loadFail _

/-! ### The lookup and the payload-bearing commands -/

/-- RT.LOOKUP writes the walker's registers and the response, so neither the frame nor the stage. -/
theorem State.Inv.rtLookup (h : s.Inv) (ip : Addr) : (rtLookup ip s).Inv := by
  have hstage : (trieLookup ip s).stage = s.stage := by
    obtain ⟨-, -, -, hframe⟩ := trieLookup_spec ip s
    exact (congrArg State.stage hframe :)
  have hlookup : (trieLookup ip s).Inv :=
    h.of_onlyProcesses (trieLookup_onlyProcesses ip s) (h.frameOk.lookup ip) (hstage.trans h.stage)
  exact hlookup.respond ..

/-- A payload that passed step 3 of rule R90 fits the buffer, and its length fits `FLEN`. -/
theorem State.Inv.length_of_lenLegal (h : s.Inv) {p : List Byte} (hp : lenLegal s.params p = true) :
    p.length ≤ s.params.frameMax ∧ p.length < 2 ^ 16 := by
  have hmax := h.params.frameMax_le
  have hle : p.length ≤ s.params.frameMax := of_decide_eq_true hp
  omega

theorem State.Inv.csCompute (h : s.Inv) {p : List Byte} (hp : lenLegal s.params p = true)
    (hr : csCompute p s = .ok t) : t.Inv := by
  obtain ⟨hmax, hlen⟩ := h.length_of_lenLegal hp
  obtain ⟨honly, hstage⟩ := csCompute_frame hr
  exact h.of_onlyProcesses honly (h.frameOk.csCompute hmax hlen hr) (hstage.trans h.stage)

theorem State.Inv.csValidate (h : s.Inv) {coff claimed : BitVec 16} {p : List Byte} (hp : lenLegal s.params p = true)
    (hr : csValidate coff claimed p s = .ok t) : t.Inv := by
  obtain ⟨hmax, hlen⟩ := h.length_of_lenLegal hp
  obtain ⟨honly, hstage⟩ := csValidate_frame hr
  exact h.of_onlyProcesses honly (h.frameOk.csValidate hmax hlen hr) (hstage.trans h.stage)

theorem State.Inv.pktProcess (h : s.Inv) {rx : BitVec 8} {p : List Byte} (hp : lenLegal s.params p = true)
    (hr : pktProcess rx p s = .ok t) : t.Inv := by
  obtain ⟨hmax, hlen⟩ := h.length_of_lenLegal hp
  obtain ⟨honly, hstage⟩ := pktProcess_frame hr
  exact h.of_onlyProcesses honly (h.frameOk.pktProcess hmax hlen hr) hstage

/-! ### The inductive step -/

theorem State.Inv.exec {i : Instr} (h : s.Inv) (he : exec i s = .next t) : t.Inv := by
  obtain ⟨-, rfl⟩ | ⟨-, rfl⟩ | ⟨hp, hrule⟩ := exec_cases he
  · exact h.refuse _
  · exact h.refuse _
  · rcases hrule with ⟨ifid, ip, mac, rfl, rfl⟩ | ⟨e, rfl, rfl⟩ | ⟨e, rfl, rfl⟩ | ⟨rfl, rfl⟩ | ⟨rfl, rfl⟩ | ⟨ip, rfl, rfl⟩ |
      ⟨ip, rfl, rfl⟩ | ⟨p, rfl, hlen, hr⟩ | ⟨coff, claimed, p, rfl, hlen, -, hr⟩ | ⟨ifid, p, rfl, hlen, -, hr⟩
    · exact h.ifSet (eq_of_beq hp) ifid ip mac
    · exact h.rtInsert e
    · exact h.nbInsert e
    · exact h.cfgSeal
    · exact h.respond ..
    · exact h.rtLookup ip
    · exact h.respond ..
    · exact h.csCompute hlen hr
    · exact h.csValidate hlen hr
    · exact h.pktProcess hlen hr

/-- A reset gives the state of rule R37, of which the host is no part. -/
theorem State.Inv.runReset (h : s.Inv) (later : List HostEvent) : (runReset later s).Inv :=
  { resetWith_inv h.params with }
end

/-- Settles O19, by the cases of a step. -/
theorem stepKeepsInvariant : Obligations.StepKeepsInvariant := by
  intro s t h hstep
  obtain ⟨-, rfl⟩ | ⟨later, -, rfl⟩ | ⟨c, later, -, -, ⟨-, rfl⟩ | ⟨op, -, rfl⟩ | ⟨i, -, he⟩⟩ := step_cases hstep
  · exact h
  · exact h.runReset later
  · exact (h.acceptCommand c later).refuse _
  · exact (h.acceptCommand c later).refuseReserved op
  · exact (h.acceptCommand c later).exec he

end Sys2Proof.Machine
end

section
/-! SUPPORT. The statements of `spec/30_encoding.md` on words and refusals: the decoder and the encoder undo each other
(rules R80 to R85), and what the checks of rule R90 refuse. -/

namespace Sys2Proof.Machine

open Sys2Proof

/-! ### What the encoder writes, the decoder reads (rules R80 to R85) -/

/-- The fields every encoded word holds, for every command. -/
theorem encodedFields (i : Instr) : Laws.EncodedFields.Statement i := by
  cases i with
  | ifSet ifid ip mac => exact Laws.EncodedFields.ifSet ifid ip mac
  | rtInsert pfx mask nextHop ifid => exact Laws.EncodedFields.rtInsert pfx mask nextHop ifid
  | nbInsert ip mac => exact Laws.EncodedFields.nbInsert ip mac
  | cfgSeal => exact Laws.EncodedFields.cfgSeal
  | stRead => exact Laws.EncodedFields.stRead
  | rtLookup ip => exact Laws.EncodedFields.rtLookup ip
  | nbResolve ip => exact Laws.EncodedFields.nbResolve ip
  | csCompute payload => exact Laws.EncodedFields.csCompute payload
  | csValidate coff claimed payload => exact Laws.EncodedFields.csValidate coff claimed payload
  | pktProcess ifid payload => exact Laws.EncodedFields.pktProcess ifid payload

/-- A payload that fits `LEN` is counted by it without wrapping. -/
theorem toNat_len {i : Instr} (h : i.WellFormed) : i.len.toNat = i.payload.length := by
  rw [Instr.len, BitVec.toNat_ofNat, Nat.mod_eq_of_lt (of_decide_eq_true h)]

/-- The operands are read back from the fields they were written to (rule R83). -/
theorem assemble_encode (i : Instr) : assemble i.opcode (encode i) = i := by
  cases i with
  | ifSet ifid ip mac => simp [assemble, encode, encodeWord, Instr.opcode]
  | rtInsert pfx mask nextHop ifid => simp [assemble, encode, encodeWord, Instr.opcode]
  | nbInsert ip mac => simp [assemble, encode, encodeWord, Instr.opcode]
  | cfgSeal => rfl
  | stRead => rfl
  | rtLookup ip => simp [assemble, encode, encodeWord, Instr.opcode]
  | nbResolve ip => simp [assemble, encode, encodeWord, Instr.opcode]
  | csCompute payload => rfl
  | csValidate coff claimed payload => simp [assemble, encode, encodeWord, Instr.opcode, Instr.payload]
  | pktProcess ifid payload => simp [assemble, encode, encodeWord, Instr.opcode, Instr.payload]

/-- Settles O3: the encoded word passes the decoder's three checks, and its operands are read back. -/
theorem decodeOfEncode : Obligations.DecodeOfEncode := by
  intro i hw
  obtain ⟨hop, hlen, hmbz⟩ := encodedFields i
  have hpayload : (encode i).payload.length = (lenField (encode i).word).toNat := by
    rw [show lenField (encode i).word = i.len from hlen, toNat_len hw]
    rfl
  exact decode_eq_ok.2 ⟨hpayload, i.opcode, hop, hmbz, (assemble_encode i).symm⟩

/-! ### What the decoder reads, the encoder writes back -/

/-- A word misses every bit of a mask iff each field misses the mask's field. -/
theorem and_portWord_eq_zero (w : PortWord) (op ifid : BitVec 8) (len : BitVec 16) (a b c : BitVec 32) :
    w &&& portWord op ifid len a b c = 0 ↔
      opField w &&& op = 0 ∧ ifidField w &&& ifid = 0 ∧ lenField w &&& len = 0 ∧ aField w &&& a = 0 ∧
      bField w &&& b = 0 ∧ cField w &&& c = 0 := by
  conv_lhs => rw [← portWord_fields w, portWord_and, portWord_eq_zero]

/-- A word is put together from what its fields are known to be. -/
theorem portWord_eq_of_fields {w : PortWord} {op ifid : BitVec 8} {len : BitVec 16} {a b c : BitVec 32}
    (hop : opField w = op) (hifid : ifidField w = ifid) (hlen : lenField w = len) (ha : aField w = a)
    (hb : bField w = b) (hc : cField w = c) : portWord op ifid len a b c = w := by
  rw [← hop, ← hifid, ← hlen, ← ha, ← hb, ← hc, portWord_fields]

theorem eq_zero_of_and_ones8 {x : BitVec 8} (h : x &&& 0xFF = 0) : x = 0 := (and_ones x 0 0).1 ▸ h
theorem eq_zero_of_and_ones16 {x : BitVec 16} (h : x &&& 0xFFFF = 0) : x = 0 := (and_ones 0 x 0).2.1 ▸ h
theorem eq_zero_of_and_ones32 {x : BitVec 32} (h : x &&& 0xFFFFFFFF = 0) : x = 0 := (and_ones 0 0 x).2.2 ▸ h

/-- The field `LEN` of a pair that can be presented is what the encoder computes from the payload (rule R80). -/
theorem lenField_eq_ofNat {c : Command} (h : c.payload.length = (lenField c.word).toNat) :
    lenField c.word = BitVec.ofNat 16 c.payload.length := by
  rw [h, BitVec.ofNat_toNat, BitVec.setWidth_eq]

/-- The word of an accepted pair is the word of its operands: the fields a command does not use are reserved. -/
theorem encodeWord_assemble {op : Opcode} {c : Command} (hl : c.payload.length = (lenField c.word).toNat)
    (ho : opField c.word = op.code) (hm : c.word &&& op.mbz = 0) : encodeWord (assemble op c) = c.word := by
  have hpayload := lenField_eq_ofNat hl
  cases op with
  | ifSet =>
    rw [mbz_ifSet, and_portWord_eq_zero] at hm
    obtain ⟨-, -, hlen, -, hb, -⟩ := hm
    exact portWord_eq_of_fields ho rfl (eq_zero_of_and_ones16 hlen) rfl (macHigh_macOfFields hb).symm
      (macLow_macOfFields _ _).symm
  | rtInsert =>
    rw [mbz_rtInsert, and_portWord_eq_zero] at hm
    obtain ⟨-, -, hlen, -, -, -⟩ := hm
    exact portWord_eq_of_fields ho rfl (eq_zero_of_and_ones16 hlen) rfl rfl rfl
  | nbInsert =>
    rw [mbz_nbInsert, and_portWord_eq_zero] at hm
    obtain ⟨-, hifid, hlen, -, hb, -⟩ := hm
    exact portWord_eq_of_fields ho (eq_zero_of_and_ones8 hifid) (eq_zero_of_and_ones16 hlen) rfl
      (macHigh_macOfFields hb).symm (macLow_macOfFields _ _).symm
  | cfgSeal =>
    rw [mbz_cfgSeal, and_portWord_eq_zero] at hm
    obtain ⟨-, hifid, hlen, ha, hb, hc⟩ := hm
    exact portWord_eq_of_fields ho (eq_zero_of_and_ones8 hifid) (eq_zero_of_and_ones16 hlen)
      (eq_zero_of_and_ones32 ha) (eq_zero_of_and_ones32 hb) (eq_zero_of_and_ones32 hc)
  | stRead =>
    rw [mbz_stRead, and_portWord_eq_zero] at hm
    obtain ⟨-, hifid, hlen, ha, hb, hc⟩ := hm
    exact portWord_eq_of_fields ho (eq_zero_of_and_ones8 hifid) (eq_zero_of_and_ones16 hlen)
      (eq_zero_of_and_ones32 ha) (eq_zero_of_and_ones32 hb) (eq_zero_of_and_ones32 hc)
  | rtLookup =>
    rw [mbz_rtLookup, and_portWord_eq_zero] at hm
    obtain ⟨-, hifid, hlen, -, hb, hc⟩ := hm
    exact portWord_eq_of_fields ho (eq_zero_of_and_ones8 hifid) (eq_zero_of_and_ones16 hlen) rfl
      (eq_zero_of_and_ones32 hb) (eq_zero_of_and_ones32 hc)
  | nbResolve =>
    rw [mbz_nbResolve, and_portWord_eq_zero] at hm
    obtain ⟨-, hifid, hlen, -, hb, hc⟩ := hm
    exact portWord_eq_of_fields ho (eq_zero_of_and_ones8 hifid) (eq_zero_of_and_ones16 hlen) rfl
      (eq_zero_of_and_ones32 hb) (eq_zero_of_and_ones32 hc)
  | csCompute =>
    rw [mbz_csCompute, and_portWord_eq_zero] at hm
    obtain ⟨-, hifid, -, ha, hb, hc⟩ := hm
    exact portWord_eq_of_fields ho (eq_zero_of_and_ones8 hifid) hpayload (eq_zero_of_and_ones32 ha)
      (eq_zero_of_and_ones32 hb) (eq_zero_of_and_ones32 hc)
  | csValidate =>
    rw [mbz_csValidate, and_portWord_eq_zero] at hm
    obtain ⟨-, hifid, -, ha, hb, hc⟩ := hm
    exact portWord_eq_of_fields ho (eq_zero_of_and_ones8 hifid) hpayload (inLowHalf_lowHalf ha).symm
      (inLowHalf_lowHalf hb).symm (eq_zero_of_and_ones32 hc)
  | pktProcess =>
    rw [mbz_pktProcess, and_portWord_eq_zero] at hm
    obtain ⟨-, -, -, ha, hb, hc⟩ := hm
    exact portWord_eq_of_fields ho rfl hpayload (eq_zero_of_and_ones32 ha) (eq_zero_of_and_ones32 hb)
      (eq_zero_of_and_ones32 hc)

/-- An instruction takes the whole payload, or its format has none (rules R81, R83). -/
theorem payload_assemble (op : Opcode) (c : Command) :
    (assemble op c).payload = c.payload ∨ (assemble op c).payload = [] := by
  cases op with
  | csCompute | csValidate | pktProcess => exact .inl rfl
  | ifSet | rtInsert | nbInsert | cfgSeal | stRead | rtLookup | nbResolve => exact .inr rfl

/-- Settles O4: the words agree field by field, so the `LEN` of a format without payload is 0 and nothing is lost. -/
theorem encodeOfDecode : Obligations.EncodeOfDecode := by
  intro c i hd
  obtain ⟨hl, op, ho, hm, rfl⟩ := decode_eq_ok.1 hd
  have hword : encodeWord (assemble op c) = c.word := encodeWord_assemble hl ho hm
  have hpayload : (assemble op c).payload = c.payload := by
    obtain he | he := payload_assemble op c
    · exact he
    · obtain ⟨-, hlen, -⟩ := encodedFields (assemble op c)
      have hzero : (lenField c.word).toNat = 0 := by rw [← hword, hlen, Instr.len, he]; rfl
      rw [he, List.eq_nil_of_length_eq_zero (hl.trans hzero)]
  refine ⟨by rw [encode, hword, hpayload], decide_eq_true ?_⟩
  rw [hpayload, hl]
  exact (lenField c.word).isLt

/-! ### The worked words of the spec -/

/-- Settles O1: the payload-bearing words depend on the payload through its length alone. -/
theorem specExampleEncodings : Obligations.SpecExampleEncodings := by
  refine ⟨by decide, by decide, by decide, fun p hp => ?_, fun p hp => ?_⟩
  · have hlen : (Instr.pktProcess 0 p).len = 42 := congrArg (BitVec.ofNat 16) hp
    rw [encode, encodeWord, hlen, Instr.opcode]
    exact congrArg (Command.mk · p) (by decide)
  · have hlen : (Instr.csValidate 10 0xB861 p).len = 20 := congrArg (BitVec.ofNat 16) hp
    rw [encode, encodeWord, hlen, Instr.opcode]
    exact congrArg (Command.mk · p) (by decide)

/-- Settles O2: ten closed words, each decoded by evaluation. -/
theorem specWordsDecode : Obligations.SpecWordsDecode := by
  refine ⟨?_, ?_, ?_, ?_, ?_, ?_, ?_, ?_, ?_, ?_⟩ <;> decide

/-! ### The port, outcome by outcome of the decoder (rule R90) -/

section
variable {s : State} {c : Command} {later : List HostEvent}

theorem step_of_illegalOpcode {op : BitVec 8} (hh : s.host = .command c :: later)
    (hd : decode c = .error (.illegalOpcode op)) : step s = .next (refuse .errOpcode (acceptCommand c later s)) := by
  rw [step_of_command hh, runCommand, hd]

theorem step_of_reservedBits {op : Opcode} (hh : s.host = .command c :: later)
    (hd : decode c = .error (.reservedBits op)) : step s = .next (refuseReserved op (acceptCommand c later s)) := by
  rw [step_of_command hh, runCommand, hd]

theorem step_of_decode {i : Instr} (hh : s.host = .command c :: later) (hd : decode c = .ok i) :
    step s = exec i (acceptCommand c later s) := by
  rw [step_of_command hh, runCommand, hd]
end

/-- Settles O6: what the port accepts is the state the statement writes out. -/
theorem stepRunsDecodedCommand : Obligations.StepRunsDecodedCommand :=
  fun _ _ _ _ hh hd => step_of_decode hh hd

/-! ### Refusals (rules R85, R86, R90) -/

/-- A value of `OP` outside the opcode table is no opcode's code. -/
theorem ne_code_of_not_mem {x : BitVec 8}
    (h : x ∉ ([0x01, 0x02, 0x03, 0x04, 0x05, 0x10, 0x11, 0x20, 0x21, 0x30] : List (BitVec 8))) (op : Opcode) :
    x ≠ op.code := by
  rintro rfl
  exact h (by cases op <;> decide)

/-- Settles O8: such a pair is stopped at the decoder, before the phase and the operands are looked at. -/
theorem illegalOpcodeRefused : Obligations.IllegalOpcodeRefused := by
  refine ⟨fun s c later ⟨hh, hl⟩ hop => ?_, by decide +kernel, by decide⟩
  exact ⟨_, step_of_illegalOpcode hh (decode_illegalOpcode hl (ne_code_of_not_mem hop)),
    refuse_answered .errOpcode _, refuse_onlyResponds .errOpcode _⟩

/-- Settles O9, by whether the phase permits the command. -/
theorem reservedBitRefused : Obligations.ReservedBitRefused := by
  intro s c later op ⟨hh, hl⟩ hop hm
  have hstep := step_of_reservedBits hh (decode_reservedBits hl hop hm)
  have hphase : (acceptCommand c later s).phase = s.phase := rfl
  rw [refuseReserved, hphase] at hstep
  split at hstep
  · next hp => exact ⟨_, hstep, (if_pos hp).mpr (refuse_answered .errOperand _), refuse_onlyResponds .errOperand _⟩
  · next hp => exact ⟨_, hstep, (if_neg hp).mpr (refuse_answered .errPhase _), refuse_onlyResponds .errPhase _⟩

/-- A command whose phase is right and whose operands are not is refused with ERR_OPERAND (rule R90 step 3). -/
theorem checked_refuses_operand {op : Opcode} {ok : Bool} {s : State}
    {rule : State → Host.Outcome State Fault Refusal} (hp : permitted op s.phase = true) (ho : ok = false) :
    ∃ t, checked op ok s rule = .next t ∧ t.Answered 3 0 ∧ s.OnlyResponds t :=
  ⟨_, checked_of_operand hp ho, refuse_answered .errOperand s, refuse_onlyResponds .errOperand s⟩

theorem lenLegal_eq_false {p : Params} {payload : List Byte} (h : p.frameMax < payload.length) :
    lenLegal p payload = false := decide_eq_false (Nat.not_le_of_lt h)

theorem ifidLegal_eq_false {p : Params} {ifid : BitVec 8} (h : p.nIf ≤ ifid.toNat) : ifidLegal p ifid = false :=
  decide_eq_false (Nat.not_lt_of_le h)

/-- An odd `coff` is one whose lowest bit is set; past the end, the field does not fit the payload. -/
theorem coffLegal_eq_false {coff : BitVec 16} {payload : List Byte}
    (h : coff.toNat % 2 = 1 ∨ payload.length < coff.toNat + 2) : coffLegal coff payload = false := by
  obtain hodd | hlong := h
  · have hbit : coff.getLsbD 0 = true := by rw [BitVec.getLsbD, Nat.testBit_zero, hodd]; rfl
    simp [coffLegal, hbit]
  · simp [coffLegal, hlong]

/-- The checksum commands run in CONFIG and in RUN (rule R84). -/
theorem permitted_checksum {p : Phase} (h : p ≠ .failed) :
    permitted .csCompute p = true ∧ permitted .csValidate p = true := by
  cases p with
  | config | run => decide
  | failed => exact absurd rfl h

/-- Settles O11: each check that fails makes the command's operands illegal. -/
theorem badOperandRefused : Obligations.BadOperandRefused := by
  refine ⟨fun s p hp hlen => ?_, fun s coff claimed p hp hbad => ?_, fun s rx p hp hbad => ?_⟩
  · rw [exec_csCompute]
    exact checked_refuses_operand (permitted_checksum hp).1 (lenLegal_eq_false hlen)
  · rw [exec_csValidate]
    refine checked_refuses_operand (permitted_checksum hp).2 (Bool.and_eq_false_iff.2 ?_)
    exact hbad.imp lenLegal_eq_false coffLegal_eq_false
  · rw [exec_pktProcess]
    refine checked_refuses_operand (by rw [hp]; rfl) (Bool.and_eq_false_iff.2 ?_)
    exact hbad.imp lenLegal_eq_false ifidLegal_eq_false

end Sys2Proof.Machine
end

section
/-! SUPPORT. The code tables of `spec/30_encoding.md` (rules R87 to R89, R91): every command that the port accepts in a
state of the invariant runs to its end, and its response is one the tables allow. -/

namespace Sys2Proof.Machine

open Sys2Proof

/-! ### The code tables -/

/-- The commands that can fail a load, by the value of `OP`, each with the causes it raises (rule R89). -/
def loadFailureTable : List (BitVec 8 × BitVec 32) :=
  [(0x02, 1), (0x01, 2), (0x02, 2), (0x02, 3), (0x03, 4), (0x03, 5), (0x04, 6)]

/-- The response `r` with payload `p` to a command whose `OP` is `op` is one of the code tables (rules R31, R87 to R89,
R91). -/
structure FollowsTables (op : BitVec 8) (r : Response) (p : List Byte) : Prop where
  status : r.st.toNat ≤ 5
  flags : r.flg.toNat ≤ 2
  frame : r.st = 4 → op = 0x30
  load : r.st = 5 → (op, r.a) ∈ loadFailureTable
  outcome : op = 0x30 → r.st = 0 → r.a.toNat ≤ 6 ∧ (r.flg = 1 ↔ r.a.toNat ≤ 1)
  cause : r.st ≠ 0 → r.st ≠ 5 → r.a = 0
  bare : r.st ≠ 0 → r.flg = 0 ∧ r.ifid = 0 ∧ r.len = 0 ∧ r.b = 0 ∧ r.c = 0 ∧ p = []

/-- A command with the code `op` ends in a state whose response is one of the code tables. -/
def EndsByTables (op : BitVec 8) (o : Host.Outcome State Fault Refusal) : Prop :=
  ∃ t, o = .next t ∧ FollowsTables op (Response.ofWord t.rsp) t.rspPayload

/-- A refusal that does not depend on the command: the status alone (rule R91). -/
theorem followsTables_refusal (op : BitVec 8) {st : Status} (h : st ∈ [Status.errOpcode, .errPhase, .errOperand]) :
    FollowsTables op (Response.failure st 0) [] := by
  have hst : st.code.toNat ≤ 5 ∧ st.code ≠ 4 ∧ st.code ≠ 5 ∧ st.code ≠ 0 := by
    revert h; cases st <;> decide
  obtain ⟨hle, h4, h5, h0⟩ := hst
  exact ⟨hle, Nat.zero_le 2, fun h => absurd h h4, fun h => absurd h h5, fun _ h => absurd h h0, fun _ _ => rfl,
    fun _ => ⟨rfl, rfl, rfl, rfl, rfl, rfl⟩⟩

/-- A load failure whose cause the table lists for the command (rule R89). -/
theorem followsTables_loadFailure {op : BitVec 8} {cause : LoadCause}
    (h : (op, cause.code.setWidth 32) ∈ loadFailureTable) :
    FollowsTables op (Response.failure .errLoad (cause.code.setWidth 32)) [] where
  status := Nat.le_refl 5
  flags := Nat.zero_le 2
  frame h4 := absurd (show (5 : BitVec 4) = 4 from h4) (by decide)
  load _ := h
  outcome _ h0 := absurd (show (5 : BitVec 4) = 0 from h0) (by decide)
  cause _ h5 := absurd rfl h5
  bare _ := ⟨rfl, rfl, rfl, rfl, rfl, rfl⟩

/-- An OK response to a command other than PKT.PROCESS: only its flags are restricted (rule R31). -/
theorem followsTables_ok {op : BitVec 8} {r : Response} (p : List Byte) (hop : op ≠ 0x30) (hst : r.st = 0)
    (hflg : r.flg.toNat ≤ 2) : FollowsTables op r p where
  status := hst ▸ by decide
  flags := hflg
  frame h := absurd (hst.symm.trans h) (by decide)
  load h := absurd (hst.symm.trans h) (by decide)
  outcome h _ := absurd h hop
  cause h _ := absurd hst h
  bare h := absurd hst h

theorem hitFlag_le (b : Bool) : (hitFlag b).toNat ≤ 2 := by cases b <;> decide

theorem replacedFlag_le (b : Bool) : (replacedFlag b).toNat ≤ 2 := by cases b <;> decide

/-- ERR_FRAME answers PKT.PROCESS (rules R87, R164). -/
theorem followsTables_frameRefused : FollowsTables 0x30 (Response.failure .errFrame 0) [] :=
  ⟨by decide, by decide, fun _ => rfl, fun h => absurd h (by decide), fun _ h => absurd h (by decide), fun _ _ => rfl,
    fun _ => ⟨rfl, rfl, rfl, rfl, rfl, rfl⟩⟩

/-- A drop has a code from 2 to 6 and no flag (rule R88). -/
theorem followsTables_dropped (reason : DropReason) : FollowsTables 0x30 (dropResponse reason) [] := by
  cases reason <;> exact
    ⟨by decide, by decide, fun _ => rfl, fun h => absurd h (by decide), fun _ _ => by decide,
      fun h => absurd rfl h, fun h => absurd rfl h⟩

/-- A frame goes out with HIT and a code of 0 or 1 (rules R31, R88). -/
theorem followsTables_emitted {o : PipeOutcome} (ho : o.code.toNat ≤ 1) (ifid : BitVec 8) (len : BitVec 16)
    (p : List Byte) : FollowsTables 0x30 (emitResponse o ifid len) p := by
  have ha : (emitResponse o ifid len).a.toNat ≤ 1 := by
    simp only [emitResponse, BitVec.toNat_setWidth]
    omega
  have hflg : (emitResponse o ifid len).flg = 1 := show hitFlag true = 1 by decide
  exact {
    status := Nat.zero_le 5
    flags := hflg ▸ by decide
    frame := fun _ => rfl
    load := fun h => absurd (show (0 : BitVec 4) = 5 from h) (by decide)
    outcome := fun _ _ => ⟨ha.trans (by decide), fun _ => ha, fun _ => hflg⟩
    cause := fun h => absurd rfl h
    bare := fun h => absurd rfl h }

/-! ### How a command's ending meets the tables -/

section
variable {op : BitVec 8} {s t : State}

/-- The response that a command has just written is the one read back. -/
theorem endsByTables_respond {r : Response} {p : List Byte} (h : FollowsTables op r p) (hr : t.rsp = r.word)
    (hp : t.rspPayload = p) : EndsByTables op (.next t) :=
  ⟨t, rfl, by rwa [hr, hp, Response.ofWord_word]⟩

theorem endsByTables_refuse {st : Status} (h : st ∈ [Status.errOpcode, .errPhase, .errOperand]) :
    EndsByTables op (.next (refuse st s)) := endsByTables_respond (followsTables_refusal op h) rfl rfl

theorem endsByTables_loadFail {cause : LoadCause} (h : (op, cause.code.setWidth 32) ∈ loadFailureTable) :
    EndsByTables op (.next (loadFail cause s)) := endsByTables_respond (followsTables_loadFailure h) rfl rfl

theorem endsByTables_succeed (h : op ≠ 0x30) : EndsByTables op (.next (succeed s)) :=
  endsByTables_respond (followsTables_ok [] h rfl (by decide)) rfl rfl

theorem endsByTables_refuseReserved (o : Opcode) : EndsByTables op (.next (refuseReserved o s)) := by
  obtain h | h := refuseReserved_cases o s
  · exact h ▸ endsByTables_refuse (by decide)
  · exact h ▸ endsByTables_refuse (by decide)

/-- A command that the checks refuse is answered by the tables, so only the command's own rule is to be looked at. -/
theorem endsByTables_checked {o : Opcode} {ok : Bool} {rule : State → Host.Outcome State Fault Refusal}
    (h : permitted o s.phase = true → ok = true → EndsByTables op (rule s)) :
    EndsByTables op (checked o ok s rule) := by
  unfold checked
  split
  · next hp =>
    split
    · next ho => exact h hp ho
    · exact endsByTables_refuse (by decide)
  · exact endsByTables_refuse (by decide)
end

/-! ### PKT.PROCESS runs to its end (rules R163 to R172) -/

/-- A run of the pipeline ends with a response of the tables, not in a fault. -/
def PktEnds (x : Except Fault State) : Prop := EndsByTables 0x30 (ofAccess x)

section
variable {s : State} {f : List Byte}

theorem pktEnds_frameRefused : PktEnds (.ok (frameRefused s)) :=
  endsByTables_respond followsTables_frameRefused rfl rfl

theorem pktEnds_dropped (reason : DropReason) : PktEnds (.ok (dropped reason s)) :=
  endsByTables_respond (followsTables_dropped reason) rfl rfl

theorem pktEnds_emitted {o : PipeOutcome} (ho : o.code.toNat ≤ 1) (ifid : BitVec 8) (len : BitVec 16) :
    PktEnds (.ok ((s.respond (emitResponse o ifid len) f).withStage .idle)) :=
  endsByTables_respond (followsTables_emitted ho ifid len f) rfl rfl

/-- Every route that a lookup can find leads to an interface that has been set, so that its entry can be read. -/
def State.EgressSet (s : State) : Prop :=
  ∀ a r, (trieLookup a s).best = some r → ∃ e, s.HasInterface r.egress e

theorem State.EgressSet.of_onlyProcesses {t : State} (h : s.EgressSet) (ho : s.OnlyProcesses t) : t.EgressSet := by
  obtain ⟨-, -, htrie, -, -, -, hift, -⟩ := onlyProcesses_iff.1 ho
  intro a r hr
  rw [trieLookup_best_congr htrie] at hr
  obtain ⟨e, he, hv⟩ := h a r hr
  exact ⟨e, hift ▸ he, hv⟩

theorem s6MutateResolve_ends (h : s.FrameIs f) (hh : roomForHeader f) {r : RouteEntry} {out : IfEntry}
    (hout : s.HasInterface r.egress out) : PktEnds (s6MutateResolve (hlOf f) r s) := by
  obtain ⟨u, -, -, hmiss, hhit⟩ := s6MutateResolve_eq h hh r
  cases hm : nbrResolve s.nbr r.nextHop with
  | none => exact hmiss hm ▸ pktEnds_dropped _
  | some m =>
    obtain ⟨v, -, -, hv⟩ := hhit m out hm hout
    exact hv ▸ pktEnds_emitted (by decide) _ _

theorem s4RouteLookup_ends (h : s.FrameIs f) (hh : roomForHeader f) (he : s.EgressSet) (dst : Addr) :
    PktEnds (s4RouteLookup (hlOf f) dst s) := by
  obtain ⟨u, hu, ho, hnone, hzero, hrun⟩ := s4RouteLookup_eq h hh.1 (hlOf f) dst
  cases hr : (trieLookup dst s).best with
  | none => exact hnone hr ▸ pktEnds_dropped _
  | some r =>
    obtain httl | httl := Nat.eq_zero_or_pos (ttlOf f)
    · exact hzero r hr httl ▸ pktEnds_dropped _
    · obtain ⟨out, hout⟩ := he dst r hr
      obtain ⟨-, -, -, -, -, -, hift, -⟩ := onlyProcesses_iff.1 ho
      have hout' : (u.withStage .s5TtlCheck).HasInterface r.egress out := by
        rwa [State.HasInterface, State.withStage_ift, hift]
      exact hrun r hr httl ▸ s6MutateResolve_ends (hu.1.congr rfl rfl) hh hout'

theorem s3CsumValidate_ends (h : s.FrameIs f) (hh : roomForHeader f) (he : s.EgressSet) (dst : Addr) :
    PktEnds (s3CsumValidate (hlOf f) dst s) := by
  obtain ⟨u, hu, ho, hvalid, hbad⟩ := s3CsumValidate_eq h hh dst
  by_cases hv : headerValid f
  · exact hvalid hv ▸ s4RouteLookup_ends hu.1 hh (he.of_onlyProcesses ho) dst
  · exact hbad hv ▸ pktEnds_dropped _

theorem s2eEchoReply_ends (h : s.FrameIs f) (hh : roomForHeader f) (rx : BitVec 8) :
    PktEnds (s2eEchoReply rx (hlOf f) s) := by
  obtain ⟨hrefused, hreplied⟩ := s2eEchoReply_eq h hh rx
  by_cases hi : roomForIcmp f
  · obtain ⟨u, -, -, hu⟩ := hreplied hi
    exact hu ▸ pktEnds_emitted (by decide) _ _
  · exact hrefused hi ▸ pktEnds_frameRefused

theorem s2SelfCheck_ends (h : s.FrameIs f) (hh : roomForHeader f) (he : s.EgressSet) {rx : BitVec 8} {own : IfEntry}
    (hown : s.HasInterface rx own) : PktEnds (s2SelfCheck rx (hlOf f) s) := by
  rw [s2SelfCheck_eq h hh.1 hown]
  split
  · exact s2eEchoReply_ends (h.congr rfl rfl) hh rx
  · exact s3CsumValidate_ends (h.congr rfl rfl) hh (he.of_onlyProcesses (withStage_onlyProcesses s _)) _

theorem s1Classify_ends (h : s.FrameIs f) (he : s.EgressSet) {rx : BitVec 8} {own : IfEntry}
    (hown : s.HasInterface rx own) : PktEnds (s1Classify rx s) := by
  rw [s1Classify_eq h rx]
  split
  · exact pktEnds_frameRefused
  · split
    · exact pktEnds_dropped _
    · split
      · exact pktEnds_frameRefused
      · next hroom =>
        have hh : roomForHeader f := by unfold roomForHeader; omega
        exact s2SelfCheck_ends (h.congr rfl rfl) hh (he.of_onlyProcesses (withStage_onlyProcesses s _)) hown

/-- In RUN every interface below `N_IF` has been set (rule R38 (h)). -/
theorem State.Inv.hasInterface (h : s.Inv) (hrun : s.phase = .run) {i : BitVec 8} (hi : i.toNat < s.params.nIf) :
    ∃ e, s.HasInterface i e := by
  have hlt : i.toNat < s.ift.length := h.ift ▸ hi
  exact ⟨_, List.getElem?_eq_getElem hlt, List.all_eq_true.1 (h.sealed hrun) _ (List.getElem_mem hlt)⟩

/-- Routes are stored with an existing egress interface (rule R38 (d)), and in RUN it has been set. -/
theorem State.Inv.egressSet (h : s.Inv) (hrun : s.phase = .run) : s.EgressSet := by
  intro a r hr
  obtain ⟨hnone, -⟩ | ⟨n, r', -, hbest, hroute, -⟩ := trieLookup_cases a s
  · exact absurd (hnone.symm.trans hr) (by simp)
  · obtain rfl : r' = r := Option.some.inj (hbest.symm.trans hr)
    have hfits := h.routeFits_routeAt (key a n)
    simp only [hroute, routeFits, Bool.and_eq_true, decide_eq_true_eq] at hfits
    exact h.hasInterface hrun hfits.1.2

theorem pktProcess_ends (h : s.Inv) (hrun : s.phase = .run) {rx : BitVec 8} {p : List Byte}
    (hlen : lenLegal s.params p = true) (hifid : ifidLegal s.params rx = true) : PktEnds (pktProcess rx p s) := by
  obtain ⟨-, hp⟩ := h.length_of_lenLegal hlen
  obtain ⟨own, hown⟩ := h.hasInterface hrun (of_decide_eq_true hifid)
  exact s1Classify_ends (loadPayload_holds hp).1
    ((h.egressSet hrun).of_onlyProcesses (loadPayload_onlyProcesses s p)) hown
end

/-! ### Every command, and the step -/

theorem ifSet_ends (ifid : BitVec 8) (ip : Addr) (mac : LinkAddr) (s : State) :
    EndsByTables 0x01 (.next (ifSet ifid ip mac s)) := by
  obtain ⟨-, h⟩ | ⟨-, h⟩ := ifSet_cases s ifid ip mac
  · exact h ▸ endsByTables_succeed (by decide)
  · exact h ▸ endsByTables_loadFail (by decide)

theorem rtInsert_ends (e : RouteEntry) (s : State) : EndsByTables 0x02 (.next (rtInsert e s)) := by
  obtain ⟨-, -, -, h⟩ | ⟨-, h⟩ | ⟨-, -, h⟩ | ⟨-, -, -, h⟩ := rtInsert_cases s e
  · exact h ▸ endsByTables_respond (followsTables_ok [] (by decide) rfl (replacedFlag_le _)) rfl rfl
  all_goals exact h ▸ endsByTables_loadFail (by decide)

theorem nbInsert_ends (e : NeighborEntry) (s : State) : EndsByTables 0x03 (.next (nbInsert e s)) := by
  obtain ⟨-, -, h⟩ | ⟨-, h⟩ | ⟨-, -, h⟩ := nbInsert_cases s e
  · exact h ▸ endsByTables_succeed (by decide)
  all_goals exact h ▸ endsByTables_loadFail (by decide)

theorem cfgSeal_ends (s : State) : EndsByTables 0x04 (.next (cfgSeal s)) := by
  obtain ⟨-, h⟩ | ⟨-, h⟩ := cfgSeal_cases s
  · exact h ▸ endsByTables_succeed (by decide)
  · exact h ▸ endsByTables_loadFail (by decide)

theorem stRead_ends (s : State) : EndsByTables 0x05 (.next (stRead s)) :=
  endsByTables_respond (followsTables_ok [] (by decide) rfl (by exact Nat.zero_le 2)) rfl rfl

theorem rtLookup_ends (ip : Addr) (s : State) : EndsByTables 0x10 (.next (rtLookup ip s)) := by
  have h : FollowsTables 0x10 (routeResponse (trieLookup ip s).best) [] := by
    cases (trieLookup ip s).best with
    | none => exact followsTables_ok [] (by decide) rfl (by decide)
    | some r => exact followsTables_ok [] (by decide) rfl (hitFlag_le true)
  exact endsByTables_respond h rfl rfl

theorem nbResolve_ends (ip : Addr) (s : State) : EndsByTables 0x11 (.next (nbResolve ip s)) := by
  have h : FollowsTables 0x11 (neighborResponse (nbrResolve s.nbr ip)) [] := by
    cases nbrResolve s.nbr ip with
    | none => exact followsTables_ok [] (by decide) rfl (by decide)
    | some m => exact followsTables_ok [] (by decide) rfl (hitFlag_le true)
  exact endsByTables_respond h rfl rfl

theorem csCompute_ends {p : List Byte} (hp : p.length < 2 ^ 16) (s : State) :
    EndsByTables 0x20 (ofAccess (csCompute p s)) := by
  rw [csCompute_eq s hp]
  exact endsByTables_respond (followsTables_ok [] (by decide) rfl (by exact Nat.zero_le 2)) rfl rfl

theorem csValidate_ends (coff claimed : BitVec 16) {p : List Byte} (hp : p.length < 2 ^ 16) (s : State) :
    EndsByTables 0x21 (ofAccess (csValidate coff claimed p s)) := by
  rw [csValidate_eq s coff claimed hp]
  exact endsByTables_respond (followsTables_ok [] (by decide) rfl (hitFlag_le _)) rfl rfl

/-- In a state of the invariant every command gets a response, and one of the tables: none faults (rule R224). -/
theorem exec_ends {s : State} (h : s.Inv) (i : Instr) : EndsByTables i.opcode.code (exec i s) := by
  cases i with
  | ifSet ifid ip mac =>
    rw [exec_ifSet]
    exact endsByTables_checked fun _ _ => ifSet_ends ifid ip mac s
  | rtInsert pfx mask nextHop ifid =>
    rw [exec_rtInsert]
    exact endsByTables_checked fun _ _ => rtInsert_ends _ s
  | nbInsert ip mac =>
    rw [exec_nbInsert]
    exact endsByTables_checked fun _ _ => nbInsert_ends _ s
  | cfgSeal =>
    rw [exec_cfgSeal]
    exact endsByTables_checked fun _ _ => cfgSeal_ends s
  | stRead =>
    rw [exec_stRead]
    exact endsByTables_checked fun _ _ => stRead_ends s
  | rtLookup ip =>
    rw [exec_rtLookup]
    exact endsByTables_checked fun _ _ => rtLookup_ends ip s
  | nbResolve ip =>
    rw [exec_nbResolve]
    exact endsByTables_checked fun _ _ => nbResolve_ends ip s
  | csCompute p =>
    rw [exec_csCompute]
    exact endsByTables_checked fun _ hlen => csCompute_ends (h.length_of_lenLegal hlen).2 s
  | csValidate coff claimed p =>
    rw [exec_csValidate]
    refine endsByTables_checked fun _ hok => ?_
    obtain ⟨hlen, -⟩ := Bool.and_eq_true_iff.1 hok
    exact csValidate_ends coff claimed (h.length_of_lenLegal hlen).2 s
  | pktProcess ifid p =>
    rw [exec_pktProcess]
    refine endsByTables_checked fun hp hok => ?_
    obtain ⟨hlen, hifid⟩ := Bool.and_eq_true_iff.1 hok
    exact pktProcess_ends h (eq_of_beq hp) hlen hifid

/-- A pair that can be presented has an illegal opcode, a reserved bit set, or decodes. -/
theorem decode_cases {c : Command} (hl : c.payload.length = (lenField c.word).toNat) :
    decode c = .error (.illegalOpcode (opField c.word)) ∨ (∃ op, decode c = .error (.reservedBits op)) ∨
      ∃ i, decode c = .ok i := by
  by_cases hop : ∃ op : Opcode, opField c.word = op.code
  · obtain ⟨op, hop⟩ := hop
    by_cases hm : c.word &&& op.mbz = 0
    · exact .inr (.inr ⟨_, decode_eq_ok.2 ⟨hl, op, hop, hm, rfl⟩⟩)
    · exact .inr (.inl ⟨op, decode_reservedBits hl hop hm⟩)
  · exact .inl (decode_illegalOpcode hl (not_exists.1 hop))

theorem step_ends {s : State} {c : Command} {later : List HostEvent} (h : s.Inv) (hc : s.Presents c later) :
    EndsByTables (opField c.word) (step s) := by
  obtain ⟨hh, hl⟩ := hc
  obtain hd | ⟨op, hd⟩ | ⟨i, hd⟩ := decode_cases hl
  · exact step_of_illegalOpcode hh hd ▸ endsByTables_refuse (by decide)
  · exact step_of_reservedBits hh hd ▸ endsByTables_refuseReserved op
  · rw [step_of_decode hh hd, opField_of_decode hd]
    exact exec_ends (h.acceptCommand c later) i

/-- Settles O14, by the outcomes of the decoder and the commands. -/
theorem responseFollowsTheCodeTables : Obligations.ResponseFollowsTheCodeTables := by
  intro s c later h hc
  obtain ⟨t, hstep, hstatus, hflags, hframe, hload, houtcome, hcause, hbare⟩ := step_ends h hc
  exact ⟨t, hstep, hstatus, hflags, hframe, hload, houtcome, hcause, hbare⟩

end Sys2Proof.Machine
end

section
/-! SUPPORT. The statements of `spec/41_routing_trie.md`: what RT.INSERT does when its checks pass and when one fails,
what a build makes of a sequence of entries, and which stored route the lookup walk finds. -/

namespace Sys2Proof.Machine

open Sys2Proof

/-! ### RT.INSERT behind its checks (rules R112, R114) -/

/-- The state RT.INSERT ends in when its checks pass: the walk from the root and the store. -/
def inserted (e : RouteEntry) (s : State) : State :=
  storeRoute e (insertWalk (routeKey e) (s.withWalk [] 0 none))

/-- Whether the checks of RT.INSERT on the entry itself pass: its mask and its interface (rules R113, R115). -/
def entryLegal (p : Params) (e : RouteEntry) : Prop := maskLegal e.mask = true ∧ ifidLegal p e.egress = true

theorem routeKey_ones (pfx nextHop : Addr) (ifid : BitVec 8) {n : Nat} (h : n ≤ 32) :
    routeKey { pfx := pfx, mask := ones n, nextHop := nextHop, egress := ifid } = key pfx n := by
  rw [routeKey, clo32_ones h]

/-- `REPLACED` is the only bit of the response of an insertion that may be set (rules R22, R31). -/
theorem replaced_word (b : Bool) :
    { Response.okay with flg := replacedFlag b }.word = if b then 0x02000000000000000000000000000000 else 0 := by
  cases b <;> decide

section
variable {e : RouteEntry} {s : State}

/-- The nodes after an insertion: the old ones and the beginnings of the entry's key. -/
theorem inserted_hasNode (h : s.trie.hasNode [] = true) (k : Key) :
    (inserted e s).trie.hasNode k = true ↔ s.trie.hasNode k = true ∨ k <+: routeKey e := by
  obtain ⟨hnode, -⟩ := insertWalk_spec (routeKey e) (s.withWalk [] 0 none) h
  exact (Trie.hasNode_setRoute ..).symm ▸ hnode k

/-- The walk ends at the entry's key, at the depth of its length. -/
theorem inserted_cur_depth (h : s.trie.hasNode [] = true) :
    (inserted e s).cur = routeKey e ∧ (inserted e s).depth = clo32 e.mask := by
  obtain ⟨-, -, -, -, hcur, hdepth, -⟩ := insertWalk_spec (routeKey e) (s.withWalk [] 0 none) h
  refine ⟨hcur, hdepth.trans ?_⟩
  rw [State.withWalk_depth, routeKey, length_key, Nat.zero_add]

/-- The route at the entry's key is the entry, every other route stays. -/
theorem inserted_routeAt (h : s.trie.hasNode [] = true) (k : Key) :
    (inserted e s).trie.routeAt k = if k = routeKey e then some e else s.trie.routeAt k := by
  obtain ⟨hnode, hroute, -, -, hcur, -⟩ := insertWalk_spec (routeKey e) (s.withWalk [] 0 none) h
  have hcur : (insertWalk (routeKey e) (s.withWalk [] 0 none)).cur = routeKey e := hcur
  have hend := (hnode (routeKey e)).2 (.inr List.prefix_rfl)
  rw [inserted, storeRoute, State.respond_trie, State.withTrie_trie, hcur, Trie.routeAt_setRoute hend, hroute,
    State.withWalk_trie]

theorem inserted_length_keys (h : s.trie.hasNode [] = true) :
    (inserted e s).trie.keys.length = s.trie.keys.length + s.trie.missing e.pfx (clo32 e.mask) := by
  obtain ⟨-, -, hkeys, -⟩ := insertWalk_spec (routeKey e) (s.withWalk [] 0 none) h
  rw [missing_eq]
  exact (Trie.keys_setRoute ..).symm ▸ hkeys

theorem inserted_nodeCnt (h : s.trie.hasNode [] = true) :
    (inserted e s).nodeCnt = s.nodeCnt + BitVec.ofNat 32 (s.trie.missing e.pfx (clo32 e.mask)) := by
  obtain ⟨-, -, -, hcnt, -⟩ := insertWalk_spec (routeKey e) (s.withWalk [] 0 none) h
  rw [missing_eq]
  exact hcnt

/-- The response says whether the entry replaced one (rule R114). -/
theorem inserted_rsp (h : s.trie.hasNode [] = true) :
    (inserted e s).rsp =
      if (s.trie.routeAt (routeKey e)).isSome then 0x02000000000000000000000000000000 else 0 := by
  obtain ⟨-, hroute, -, -, hcur, -⟩ := insertWalk_spec (routeKey e) (s.withWalk [] 0 none) h
  have hcur : (insertWalk (routeKey e) (s.withWalk [] 0 none)).cur = routeKey e := hcur
  rw [inserted, storeRoute, State.respond_rsp, replaced_word, hcur, hroute, State.withWalk_trie]

theorem inserted_frame (e : RouteEntry) (s : State) :
    { inserted e s with
      trie := s.trie, nodeCnt := s.nodeCnt, cur := s.cur, depth := s.depth, best := s.best
      rsp := s.rsp, rspPayload := s.rspPayload } = s :=
  congrArg
    (fun u : State => { u with
      cur := s.cur, depth := s.depth, best := s.best, rsp := s.rsp, rspPayload := s.rspPayload })
    (insertWalk_frame (routeKey e) (s.withWalk [] 0 none))

/-- In CONFIG an insertion runs its rule. -/
theorem exec_insertion (h : s.phase = .config) (e : RouteEntry) :
    exec (insertion e) s = .next (rtInsert e s) := by
  rw [insertion, exec_rtInsert]
  exact checked_of_legal (by rw [h]; rfl) rfl

theorem rtInsert_of_room (hl : entryLegal s.params e)
    (hroom : s.nodeCnt.toNat + s.trie.missing e.pfx (clo32 e.mask) ≤ s.params.nodeCap) :
    rtInsert e s = inserted e s := by
  obtain ⟨hm, hi⟩ := hl
  rw [rtInsert, if_pos hm, if_pos hi, if_pos hroom]
  rfl

theorem rtInsert_badMask (hm : maskLegal e.mask = false) : rtInsert e s = loadFail .badMask s := by
  rw [rtInsert, hm]
  rfl

theorem rtInsert_badIfid (hm : maskLegal e.mask = true) (hi : ifidLegal s.params e.egress = false) :
    rtInsert e s = loadFail .badIfid s := by
  rw [rtInsert, if_pos hm, hi]
  rfl

theorem rtInsert_trieFull (hl : entryLegal s.params e)
    (hfull : s.params.nodeCap < s.nodeCnt.toNat + s.trie.missing e.pfx (clo32 e.mask)) :
    rtInsert e s = loadFail .trieFull s := by
  obtain ⟨hm, hi⟩ := hl
  rw [rtInsert, if_pos hm, if_pos hi, if_neg (Nat.not_le_of_lt hfull)]

/-- An insertion in CONFIG whose checks pass. -/
theorem exec_insertion_of_room (h : s.phase = .config) (hl : entryLegal s.params e)
    (hroom : s.nodeCnt.toNat + s.trie.missing e.pfx (clo32 e.mask) ≤ s.params.nodeCap) :
    exec (insertion e) s = .next (inserted e s) := by
  rw [exec_insertion h, rtInsert_of_room hl hroom]

/-- An insertion in CONFIG one of whose checks fails. -/
theorem exec_insertion_of_loadFail (h : s.phase = .config) {cause : LoadCause}
    (hfail : rtInsert e s = loadFail cause s) : exec (insertion e) s = .next (loadFail cause s) := by
  rw [exec_insertion h, hfail]
end

/-- Settles O22, part by part from what an insertion does behind its checks. -/
theorem rtInsertStoresRoute : Obligations.RtInsertStoresRoute := by
  intro s pfx nextHop ifid n hp hroot hn hi hroom
  let e : RouteEntry := { pfx := pfx, mask := ones n, nextHop := nextHop, egress := ifid }
  have hkey : routeKey e = key pfx n := routeKey_ones pfx nextHop ifid hn
  have hclo : clo32 e.mask = n := clo32_ones hn
  have hrun : exec (insertion e) s = .next (inserted e s) :=
    exec_insertion_of_room hp ⟨maskLegal_ones hn, decide_eq_true hi⟩ (by rw [hclo]; exact hroom)
  obtain ⟨hcur, hdepth⟩ := inserted_cur_depth (e := e) hroot
  rw [← hkey]
  refine ⟨inserted e s, hrun, inserted_hasNode hroot, ?_, fun k hk => ?_, ?_, hcur, hdepth.trans hclo,
    inserted_rsp hroot, rfl, inserted_frame e s⟩
  · rw [inserted_routeAt hroot, if_pos rfl]
  · rw [inserted_routeAt hroot, if_neg hk]
  · rw [inserted_nodeCnt hroot, hclo]

/-- Settles O23: a mask that is legal is one of the 33, and any other stops at the first check. -/
theorem gappedMaskFailsTheLoad : Obligations.GappedMaskFailsTheLoad := by
  refine ⟨fun m => ?_, fun s pfx m nextHop ifid hp hm => ?_, by decide, by decide, by decide⟩
  · rw [← maskLegal_iff, maskLegal, beq_iff_eq]
  · have hm : maskLegal m = false := by
      rw [← Bool.not_eq_true, maskLegal_iff]
      rintro ⟨n, hn, hmn⟩
      exact hm n hn hmn
    exact ⟨_, exec_insertion_of_loadFail (e := ⟨pfx, m, nextHop, ifid⟩) hp (rtInsert_badMask hm),
      loadFail_loadFailed .badMask s, rfl⟩

/-- Settles O24, by the check that fails. -/
theorem rtInsertLoadFailures : Obligations.RtInsertLoadFailures := by
  intro s pfx nextHop ifid n hp hn
  have hm : maskLegal (ones n) = true := maskLegal_ones hn
  refine ⟨fun hi => ?_, fun hi hfull => ?_⟩
  · have hfail := rtInsert_badIfid (e := ⟨pfx, ones n, nextHop, ifid⟩) hm (ifidLegal_eq_false hi)
    exact ⟨_, exec_insertion_of_loadFail hp hfail, loadFail_loadFailed .badIfid s⟩
  · have hfail := rtInsert_trieFull (e := ⟨pfx, ones n, nextHop, ifid⟩) ⟨hm, decide_eq_true hi⟩
      (by rw [clo32_ones hn]; exact hfull)
    exact ⟨_, exec_insertion_of_loadFail hp hfail, loadFail_loadFailed .trieFull s⟩

/-! ### A build: insertions one after the other, from reset (rule R116) -/

/-- The last command of a sequence runs where the others end. -/
theorem execAll_concat_eq_next {is : List Instr} {i : Instr} {s t : State} :
    execAll (is ++ [i]) s = .next t ↔ ∃ u, execAll is s = .next u ∧ exec i u = .next t := by
  induction is generalizing s with
  | nil =>
    simp only [List.nil_append, execAll, Host.Outcome.next.injEq, exists_eq_left']
    cases exec i s with
    | next u => exact Iff.rfl
    | fault f => exact Iff.rfl
    | refused r => exact Iff.rfl
  | cons j is ih =>
    rw [List.cons_append, execAll, execAll]
    cases exec j s with
    | next u => exact ih
    | fault f => simp
    | refused r => simp

theorem lastFor_concat (es : List RouteEntry) (e : RouteEntry) (k : Key) :
    lastFor (es ++ [e]) k = if k = routeKey e then some e else lastFor es k := by
  rw [lastFor, List.reverse_concat, List.find?_cons]
  by_cases hk : k = routeKey e
  · rw [if_pos hk, hk, beq_self_eq_true]
  · rw [if_neg hk, beq_false_of_ne (Ne.symm hk), lastFor]

/-- The last entry of a key depends on the key's own entries alone. -/
theorem lastFor_eq_getLast? (es : List RouteEntry) (k : Key) :
    lastFor es k = (es.filter (fun e => routeKey e == k)).getLast? := by
  rw [lastFor, ← List.head?_filter, List.filter_reverse, List.head?_reverse]

/-- The key lies on the way to the key of one of the entries; the root always does. -/
def onWay (es : List RouteEntry) (k : Key) : Prop := k = [] ∨ ∃ e ∈ es, k <+: routeKey e

theorem onWay_concat {es : List RouteEntry} {e : RouteEntry} {k : Key} :
    onWay (es ++ [e]) k ↔ onWay es k ∨ k <+: routeKey e := by
  simp only [onWay, List.mem_append, List.mem_singleton, or_and_right, exists_or, exists_eq_left, or_assoc]

/-- The order of the entries does not matter for the ways. -/
theorem onWay_perm {es es' : List RouteEntry} (h : es'.Perm es) (k : Key) : onWay es' k ↔ onWay es k := by
  simp only [onWay, h.mem_iff]

/-- The keys on the way to any entry, with room for 32 for each one and the root. -/
def wayKeys (es : List RouteEntry) : List Key :=
  [] :: es.flatMap (fun e => (List.range 32).map (fun n => key e.pfx (n + 1)))

theorem length_wayKeys (es : List RouteEntry) : (wayKeys es).length = 32 * es.length + 1 := by
  simp [wayKeys, Nat.mul_comm]

theorem mem_wayKeys {es : List RouteEntry} {k : Key} (h : onWay es k) : k ∈ wayKeys es := by
  obtain rfl | ⟨e, he, hk⟩ := h
  · exact List.mem_cons_self
  · obtain ⟨m, hm, rfl⟩ := prefix_key_iff.1 hk
    cases m with
    | zero => exact List.mem_cons_self
    | succ n =>
      have hn : n < 32 := hm.trans (clo32_le e.mask)
      exact List.mem_cons_of_mem _ (List.mem_flatMap.2 ⟨e, he, List.mem_map.2 ⟨n, List.mem_range.2 hn, rfl⟩⟩)

/-- What the insertions of `es` from reset, none of which failed, have made. -/
structure Built (p : Params) (es : List RouteEntry) (s : State) : Prop where
  inv : s.Inv
  params : s.params = p
  phase : s.phase = .config
  legal : ∀ e ∈ es, entryLegal p e
  nodes : ∀ k, s.trie.hasNode k = true ↔ onWay es k
  routes : ∀ k, s.trie.routeAt k = lastFor es k

theorem built_nil {p : Params} (h : p.Legal) : Built p [] (State.resetWith p) where
  inv := resetWith_inv h
  params := rfl
  phase := rfl
  legal _ he := nomatch he
  nodes k := (hasNode_root k).trans (by simp [onWay])
  routes := routeAt_root

section
variable {p : Params} {es es' : List RouteEntry} {e : RouteEntry} {s t u : State}

theorem Built.concat (h : Built p es s) (hl : entryLegal p e)
    (hroom : s.nodeCnt.toNat + s.trie.missing e.pfx (clo32 e.mask) ≤ p.nodeCap) :
    Built p (es ++ [e]) (inserted e s) := by
  obtain ⟨hinv, rfl, hphase, hlegal, hnodes, hroutes⟩ := h
  obtain ⟨hm, hi⟩ := hl
  obtain ⟨hparams', hphase'⟩ := storeRoute_samePhase e (routeKey e) s
  refine ⟨hinv.storeRoute hm hi hroom, hparams', hphase'.trans hphase, ?_, fun k => ?_, fun k => ?_⟩
  · intro x hx
    obtain hx | hx := List.mem_append.1 hx
    · exact hlegal x hx
    · exact List.mem_singleton.1 hx ▸ ⟨hm, hi⟩
  · rw [inserted_hasNode hinv.root, hnodes, onWay_concat]
  · rw [inserted_routeAt hinv.root, hroutes, lastFor_concat]

/-- No command but a reset leads back to CONFIG. -/
theorem phase_config_of_exec {i : Instr} (h : exec i s = .next t) (ht : t.phase = .config) : s.phase = .config := by
  obtain ⟨-, hphase⟩ | ⟨hphase, -⟩ | ⟨hphase, -⟩ := exec_phase_cases h
  · exact hphase.symm.trans ht
  · exact hphase
  · exact hphase

/-- An insertion that leaves the phase in CONFIG passed its checks. -/
theorem Built.of_exec (h : Built p es s) (he : exec (insertion e) s = .next t) (ht : t.phase = .config) :
    Built p (es ++ [e]) t := by
  rw [exec_insertion h.phase] at he
  injection he with he
  have hfail : ∀ cause, rtInsert e s ≠ loadFail cause s := by
    intro cause hc
    rw [← he, hc] at ht
    exact nomatch (show Phase.failed = .config from ht)
  obtain ⟨hm, hi, hroom, hr⟩ | ⟨-, hc⟩ | ⟨-, -, hc⟩ | ⟨-, -, -, hc⟩ := rtInsert_cases s e
  · rw [← he, hr]
    rw [h.params] at hi hroom
    exact h.concat ⟨hm, hi⟩ hroom
  all_goals exact absurd hc (hfail _)

/-- A sequence of insertions from reset that ends in CONFIG has built its entries. -/
theorem built_of_execAll (hp : p.Legal) (h : execAll (es.map insertion) (State.resetWith p) = .next t)
    (ht : t.phase = .config) : Built p es t := by
  induction es using List.reverseRecOn generalizing t with
  | nil =>
    injection h with h
    exact h ▸ built_nil hp
  | append_singleton es e ih =>
    rw [List.map_append, List.map_singleton, execAll_concat_eq_next] at h
    obtain ⟨u, hu, he⟩ := h
    exact (ih hu (phase_config_of_exec he ht)).of_exec he ht

/-- The trie of a build depends on the ways and the last entries alone. -/
theorem Built.trie_eq (h : Built p es s) (h' : Built p es' t) (hn : ∀ k, onWay es k ↔ onWay es' k)
    (hr : ∀ k, lastFor es k = lastFor es' k) : s.trie = t.trie := by
  refine Trie.ext_of_keys (fun k => Bool.eq_iff_iff.2 ?_) (fun k => ?_)
  · rw [h.nodes, h'.nodes, hn]
  · rw [h.routes, h'.routes, hr]

/-- An insertion has room when the ways to all entries, its own among them, lie in a list of `NODE_CAP` keys: each
node is one of its keys. -/
theorem Built.room (h : Built p es s) {keys : List Key} (hkeys : ∀ k, onWay (es ++ [e]) k → k ∈ keys) :
    s.nodeCnt.toNat + s.trie.missing e.pfx (clo32 e.mask) ≤ keys.length := by
  rw [h.inv.nodeCnt, ← inserted_length_keys h.inv.root]
  refine ((Trie.keys_nodup _).subperm fun k hk => hkeys k ?_).length_le
  rw [Trie.mem_keys, inserted_hasNode h.inv.root, h.nodes] at hk
  exact onWay_concat.2 hk

/-- Legal entries are built when the ways to them lie in a list of `NODE_CAP` keys. -/
theorem exists_built (hp : p.Legal) (hl : ∀ e ∈ es, entryLegal p e) {keys : List Key}
    (hkeys : ∀ k, onWay es k → k ∈ keys) (hcap : keys.length ≤ p.nodeCap) :
    ∃ t, execAll (es.map insertion) (State.resetWith p) = .next t ∧ Built p es t := by
  induction es using List.reverseRecOn with
  | nil => exact ⟨_, rfl, built_nil hp⟩
  | append_singleton es e ih =>
    obtain ⟨u, hu, hbuilt⟩ := ih (fun x hx => hl x (List.mem_append_left _ hx))
      (fun k hk => hkeys k (onWay_concat.2 (.inl hk)))
    have hlegal : entryLegal p e := hl e (List.mem_append_right _ List.mem_cons_self)
    have hroom := (hbuilt.room hkeys).trans hcap
    have hrun : exec (insertion e) u = .next (inserted e u) :=
      exec_insertion_of_room hbuilt.phase (hbuilt.params.symm ▸ hlegal) (hbuilt.params.symm ▸ hroom)
    refine ⟨inserted e u, ?_, hbuilt.concat hlegal hroom⟩
    rw [List.map_append, List.map_singleton, execAll_concat_eq_next]
    exact ⟨u, hu, hrun⟩

/-- Another order of the entries builds the same trie: the nodes of the one build are the room for the other. -/
theorem Built.reordered (h : Built p es t) (hperm : es'.Perm es)
    (hsame : ∀ k, es'.filter (fun e => routeKey e == k) = es.filter (fun e => routeKey e == k)) :
    ∃ t', execAll (es'.map insertion) (State.resetWith p) = .next t' ∧ t'.phase = .config ∧ t'.trie = t.trie := by
  have hp : p.Legal := h.params ▸ h.inv.params
  have hcap : t.trie.keys.length ≤ p.nodeCap := by
    rw [← h.inv.nodeCnt, ← h.params]
    exact h.inv.nodeCap
  have hkeys : ∀ k, onWay es' k → k ∈ t.trie.keys := fun k hk => by
    rwa [Trie.mem_keys, h.nodes, ← onWay_perm hperm]
  obtain ⟨t', hrun, hbuilt⟩ := exists_built hp (fun e he => h.legal e (hperm.mem_iff.1 he)) hkeys hcap
  refine ⟨t', hrun, hbuilt.phase, hbuilt.trie_eq h (onWay_perm hperm) fun k => ?_⟩
  rw [lastFor_eq_getLast?, lastFor_eq_getLast?, hsame]
end

/-- Settles O25: a build that did not fail has built its entries, and the keys on their ways bound the nodes. -/
theorem buildKeepsLastEntryPerKey : Obligations.BuildKeepsLastEntryPerKey := by
  refine fun p es hp => ⟨fun t hrun ht => ?_, fun hcap hlegal => ?_⟩
  · have hbuilt := built_of_execAll hp hrun ht
    exact ⟨hbuilt.nodes, hbuilt.routes, fun es' => hbuilt.reordered⟩
  · have hl : ∀ e ∈ es, entryLegal p e := fun e he =>
      ⟨(maskLegal_iff e.mask).2 (hlegal e he).1, decide_eq_true (hlegal e he).2⟩
    obtain ⟨t, hrun, hbuilt⟩ := exists_built hp hl (fun k => mem_wayKeys) ((length_wayKeys es).trans_le hcap)
    exact ⟨t, hrun, hbuilt.phase⟩

/-! ### The lookup walk (rules R117, R118, R119) -/

/-- Settles O26. -/
theorem lookupFindsLongestKey : Obligations.LookupFindsLongestKey := by
  intro s a
  obtain ⟨-, hfound, hnone, -⟩ := trieLookup_spec a s
  exact ⟨hfound, hnone⟩

/-- Settles O28. -/
theorem lookupWalkStops : Obligations.LookupWalkStops := by
  intro s a hroot
  obtain ⟨⟨j, hj, hcur, hdepth, hnode, hstop⟩, -, -, hframe⟩ := trieLookup_spec a s
  dsimp only
  rw [hcur, hdepth]
  exact ⟨hj, rfl, hnode hroot, hstop, hframe⟩

/-- Settles O29: the response is that of the route the walk finds. -/
theorem rtLookupAnswers : Obligations.RtLookupAnswers := by
  intro s ip hp
  have hrun : exec (.rtLookup ip) s = .next (rtLookup ip s) := by
    rw [exec_rtLookup]
    exact checked_of_legal (by rw [hp]; rfl) rfl
  have hrsp : (rtLookup ip s).rsp = (routeResponse (trieLookup ip s).best).word := rfl
  obtain ⟨-, hfound, hnone, hframe⟩ := trieLookup_spec ip s
  refine ⟨rtLookup ip s, hrun, fun n r hn hr hm => ?_, fun hr => ?_, rfl, ?_⟩
  · rw [hrsp, hfound n r hn hr hm]
    rfl
  · rw [hrsp, hnone hr]
    exact Response.okay_word
  · exact congrArg (fun u : State => { u with rsp := s.rsp, rspPayload := s.rspPayload }) hframe

/-- Two addresses have the same first `n` bits iff these bits agree one by one. -/
theorem key_eq_iff {a b : Addr} {n : Nat} : key a n = key b n ↔ ∀ d < n, keyBit a d = keyBit b d := by
  simp [key, List.map_inj_left]

theorem getLsbD_ones (n : Nat) {i : Nat} (h : i < 32) : (ones n).getLsbD i = decide (32 - n ≤ i) := by
  rw [ones, BitVec.getLsbD_shiftLeft, BitVec.getLsbD_allOnes]
  by_cases hn : 32 - n ≤ i
  · have hlow : i - (32 - n) < 32 := by omega
    simp [h, hn, hlow]
  · simp [hn, Nat.lt_of_not_le hn]

/-- An entry's mask selects the bits of its key (rules R11, R111). -/
theorem and_ones_eq_iff {a b : Addr} {n : Nat} : a &&& ones n = b &&& ones n ↔ key a n = key b n := by
  rw [key_eq_iff]
  constructor
  · intro hand d hd
    have hbit := congrArg (BitVec.getLsbD · (31 - d)) hand
    have hin : 32 - n ≤ 31 - d := by omega
    rw [keyBit, keyBit]
    simpa [getLsbD_ones n (show 31 - d < 32 by omega), hin] using hbit
  · intro hkey
    refine BitVec.eq_of_getLsbD_eq fun i hi => ?_
    rw [BitVec.getLsbD_and, BitVec.getLsbD_and, getLsbD_ones n hi]
    by_cases hin : 32 - n ≤ i
    · have hbit := hkey (31 - i) (by omega)
      rw [keyBit, keyBit, show 31 - (31 - i) = i by omega] at hbit
      rw [hbit]
    · rw [decide_eq_false hin, Bool.and_false, Bool.and_false]

section
variable {s : State} {k k' : Key} {e e' : RouteEntry}

/-- A stored entry stands at its own key, under a legal mask (rules R24, R38 (d)). -/
theorem State.Inv.stored (h : s.Inv) (hr : s.trie.routeAt k = some e) :
    e.mask = ones (clo32 e.mask) ∧ k = routeKey e := by
  have hfits := h.routeFits_routeAt k
  rw [hr] at hfits
  simp only [routeFits, Bool.and_eq_true, maskLegal, beq_iff_eq] at hfits
  obtain ⟨⟨hmask, -⟩, hkey⟩ := hfits
  exact ⟨hmask, hkey⟩

/-- A stored entry matches an address iff its key begins the address. -/
theorem State.Inv.match_iff (h : s.Inv) (hr : s.trie.routeAt k = some e) (a : Addr) :
    a &&& e.mask = e.pfx &&& e.mask ↔ key a (clo32 e.mask) = k := by
  obtain ⟨hmask, hkey⟩ := h.stored hr
  rw [hkey, routeKey, ← and_ones_eq_iff, ← hmask]

/-- The mask of an entry stored at one of the address's keys is as long as that key. -/
theorem State.Inv.clo32_of_stored_at_key (h : s.Inv) {a : Addr} {n : Nat} (hr : s.trie.routeAt (key a n) = some e) :
    clo32 e.mask = n := by
  obtain ⟨-, hkey⟩ := h.stored hr
  simpa [routeKey] using (congrArg List.length hkey).symm
end

/-- Settles O27: to match an entry under its mask is to have its key as a beginning, so the longest key is the longest
mask. -/
theorem lookupFindsLongestMask : Obligations.LookupFindsLongestMask := by
  intro s a h
  have hat : ∀ k e, s.trie.routeAt k = some e → a &&& e.mask = e.pfx &&& e.mask →
      s.trie.routeAt (key a (clo32 e.mask)) = some e := by
    intro k e hr hmatch
    rw [(h.match_iff hr a).1 hmatch, hr]
  refine ⟨fun r hbest => ?_, fun hbest k e hr hmatch => ?_, fun k k' e e' hr hr' hmatch hmatch' hlen => ?_⟩
  · obtain ⟨hnone, -⟩ | ⟨n, r', hn, hbest', hr, hlongest⟩ := trieLookup_cases a s
    · rw [hnone] at hbest
      exact nomatch hbest
    · obtain rfl : r' = r := Option.some.inj (hbest'.symm.trans hbest)
      have hclo := h.clo32_of_stored_at_key hr
      refine ⟨(h.match_iff hr a).2 (by rw [hclo]), ⟨_, hr⟩, fun k e hre hmatch => ?_⟩
      by_contra hlt
      have hnone := hlongest (clo32 e.mask) (by omega) (clo32_le e.mask)
      rw [hat k e hre hmatch] at hnone
      exact nomatch hnone
  · obtain ⟨-, hnone⟩ | ⟨n, r, -, hbest', -⟩ := trieLookup_cases a s
    · have hnone := hnone (clo32 e.mask) (clo32_le e.mask)
      rw [hat k e hr hmatch] at hnone
      exact nomatch hnone
    · rw [hbest] at hbest'
      exact nomatch hbest'
  · have he := hat k e hr hmatch
    rw [hlen, hat k' e' hr' hmatch'] at he
    exact (Option.some.inj he).symm

/-! ### The default route (rule R120) -/

/-- Mask 0 stores at the root, for which no node is missing. -/
theorem inserted_default {s : State} (hroot : s.trie.hasNode [] = true) {e : RouteEntry} (hm : e.mask = ones 0) :
    (inserted e s).nodeCnt = s.nodeCnt ∧ (∀ k, (inserted e s).trie.hasNode k = s.trie.hasNode k) ∧
      (inserted e s).trie.routeAt [] = some e := by
  have hclo : clo32 e.mask = 0 := by rw [hm, clo32_ones (Nat.zero_le _)]
  have hkey : routeKey e = [] := by rw [routeKey, hclo]; rfl
  refine ⟨?_, fun k => Bool.eq_iff_iff.2 ?_, ?_⟩
  · rw [inserted_nodeCnt hroot, hclo]
    exact BitVec.add_zero _
  · rw [inserted_hasNode hroot, hkey, List.prefix_nil]
    exact ⟨fun hk => hk.elim id (fun hk => hk ▸ hroot), .inl⟩
  · rw [inserted_routeAt hroot, if_pos hkey.symm]

/-- Settles O30: the root's key is the shortest of every address. -/
theorem defaultRouteIsLastResort : Obligations.DefaultRouteIsLastResort := by
  refine ⟨fun s pfx nextHop ifid hp hroot hi hroom => ?_, fun s a d hd => ⟨fun hnone => ?_, ?_⟩⟩
  · have hrun := exec_insertion_of_room (e := ⟨pfx, ones 0, nextHop, ifid⟩) hp
      ⟨maskLegal_ones (Nat.zero_le _), decide_eq_true hi⟩ (by rw [clo32_ones (Nat.zero_le _)]; exact hroom)
    exact ⟨_, hrun, inserted_default hroot rfl⟩
  · obtain ⟨-, hfound, -⟩ := trieLookup_spec a s
    exact hfound 0 d (Nat.zero_le _) hd hnone
  · rintro ⟨m, hm₁, hm, hsome⟩
    obtain ⟨-, hnone⟩ | ⟨n, r, hn, hbest, hr, hlongest⟩ := trieLookup_cases a s
    · rw [hnone m hm] at hsome
      exact nomatch hsome
    · refine ⟨n, r, Nat.one_le_iff_ne_zero.2 fun hzero => ?_, hn, hr, hbest⟩
      rw [hlongest m (by omega) hm] at hsome
      exact nomatch hsome

end Sys2Proof.Machine
end

section
/-! SUPPORT. The statements of `spec/42_checksum.md` on the arithmetic (rules R131, R132, R134, R137 to R139): each is
read off the end-around reduction of an integer sum. -/

namespace Sys2Proof.Machine

open Sys2Proof

/-! ### The end-around reduction -/

/-- In the range of a sum of two values, the second zero stands for its two multiples. -/
theorem endAround_eq_max {n : Nat} (h : n ≤ 2 * 0xFFFF) : endAround n = 0xFFFF ↔ n = 0xFFFF ∨ n = 2 * 0xFFFF := by
  unfold endAround
  split <;> omega

/-! ### The two zeros as numbers -/

theorem eq_zero_iff_toNat {x : Sum16} : x = 0 ↔ x.toNat = 0 := BitVec.toNat_inj.symm

theorem eq_max_iff_toNat {x : Sum16} : x = 0xFFFF ↔ x.toNat = 0xFFFF := BitVec.toNat_inj.symm

/-! ### The sum with end-around carry (rule R131) -/

theorem ocAdd16_comm (a b : Sum16) : ocAdd16 a b = ocAdd16 b a := by
  refine BitVec.eq_of_toNat_eq ?_
  rw [toNat_ocAdd16_endAround, toNat_ocAdd16_endAround, Nat.add_comm]

theorem ocAdd16_assoc (a b c : Sum16) : ocAdd16 (ocAdd16 a b) c = ocAdd16 a (ocAdd16 b c) := by
  refine BitVec.eq_of_toNat_eq ?_
  calc (ocAdd16 (ocAdd16 a b) c).toNat
      = endAround (a.toNat + b.toNat + c.toNat) := by simp only [toNat_ocAdd16_endAround, endAround_add]
    _ = endAround (b.toNat + c.toNat + a.toNat) := by rw [Nat.add_assoc, Nat.add_comm]
    _ = (ocAdd16 (ocAdd16 b c) a).toNat := by simp only [toNat_ocAdd16_endAround, endAround_add]
    _ = (ocAdd16 a (ocAdd16 b c)).toNat := by rw [ocAdd16_comm]

theorem ocAdd16_eq_zero {a b : Sum16} : ocAdd16 a b = 0 ↔ a = 0 ∧ b = 0 := by
  rw [eq_zero_iff_toNat, eq_zero_iff_toNat, eq_zero_iff_toNat, toNat_ocAdd16_endAround, endAround_eq_zero,
    Nat.add_eq_zero_iff]

theorem ocAdd16_zero (a : Sum16) : ocAdd16 a 0 = a := by
  refine BitVec.eq_of_toNat_eq ?_
  rw [toNat_ocAdd16_endAround]
  exact endAround_of_le (Nat.le_of_lt_succ a.isLt)

/-- 0xFFFF is a second zero, but for the sum with 0. -/
theorem ocAdd16_max (a : Sum16) : ocAdd16 a 0xFFFF = if a = 0 then 0xFFFF else a := by
  split
  · next ha => rw [ha, ocAdd16_comm, ocAdd16_zero]
  · next ha =>
    have hpos : a.toNat ≠ 0 := fun h => ha (eq_zero_iff_toNat.2 h)
    have hlt := a.isLt
    refine BitVec.eq_of_toNat_eq ?_
    rw [toNat_ocAdd16, eq_max_iff_toNat.1 rfl]
    omega

theorem ocAdd16_not (a : Sum16) : ocAdd16 a (~~~a) = 0xFFFF := by
  have hlt := a.isLt
  rw [eq_max_iff_toNat, toNat_ocAdd16, BitVec.toNat_not]
  omega

/-- Settles O39, law by law. -/
theorem onesComplementAddition : Obligations.OnesComplementAddition :=
  ⟨toNat_ocAdd16, ocAdd16_comm, ocAdd16_assoc, ocAdd16_zero, ocAdd16_max, fun _ _ => ocAdd16_eq_zero, ocAdd16_not,
    by decide, by decide, by decide⟩

/-! ### The checksum (rules R132, R137, R138) -/

theorem toNat_sumWords_zero (bs : List Byte) : (sumWords 0 bs).toNat = endAround (wideSum bs) := by
  rw [toNat_sumWords]
  exact congrArg endAround (Nat.zero_add _)

theorem cksum_eq_max {bs : List Byte} : cksum bs = 0xFFFF ↔ wideSum bs = 0 := by
  have hle := endAround_le (wideSum bs)
  rw [eq_max_iff_toNat, toNat_cksum, ← endAround_eq_zero]
  omega

theorem cksum_eq_zero {bs : List Byte} : cksum bs = 0 ↔ endAround (wideSum bs) = 0xFFFF := by
  have hle := endAround_le (wideSum bs)
  rw [eq_zero_iff_toNat, toNat_cksum]
  omega

/-- Settles O40: only zeros sum to 0. -/
theorem checksumOfZeros : Obligations.ChecksumOfZeros := fun _ => cksum_eq_max.trans wideSum_eq_zero

/-- Settles O41: the accumulator and the fold are the same end-around reduction. -/
theorem deferredFoldingAgrees : Obligations.DeferredFoldingAgrees := by
  intro bytes
  rw [foldWide_eq]
  refine ⟨toNat_sumWords_zero bytes, endAround_eq_zero.2, fun hpos => ⟨?_, endAround_le _, endAround_mod _⟩⟩
  exact Nat.one_le_iff_ne_zero.2 fun hzero => Nat.pos_iff_ne_zero.1 hpos (endAround_eq_zero.1 hzero)

/-- A 16-bit value written into a field at an even offset adds itself to the sum with the field as zero. -/
theorem endAround_wideSum_patch {bs : List Byte} {o : Nat} (he : o % 2 = 0) (h : o + 2 ≤ bs.length) (v : Sum16) :
    endAround (wideSum (patch bs o (beBytes 2 v.toNat))) =
      endAround (endAround (wideSum (zeroField bs o)) + v.toNat) := by
  obtain ⟨hi, lo, hbytes, hvalue⟩ := beBytes_two v
  rw [hbytes, wideSum_patch h he, hvalue, endAround_add]

/-- Settles O42: the sum of the other words and their complement is 0xFFFF. -/
theorem checksumRoundTrip : Obligations.ChecksumRoundTrip := by
  intro bytes coff he h
  have hle := endAround_le (wideSum (zeroField bytes coff))
  rw [cksum_eq_zero, endAround_wideSum_patch he h, toNat_cksum, Nat.add_sub_cancel' hle]
  rfl

/-! ### Validation (rules R134, R139) -/

theorem validate_eq_true {bs : List Byte} {o : Nat} {claimed : Sum16} :
    validate bs o claimed = true ↔ endAround (wideSum (zeroField bs o)) + claimed.toNat = 0xFFFF := by
  have hle := endAround_le (wideSum (zeroField bs o))
  rw [validate, beq_iff_eq, ← BitVec.toNat_inj, toNat_cksum]
  omega

/-- The test for 0xFFFF of the sum in place also accepts the sum 0xFFFF + 0xFFFF. -/
theorem sumInPlace_eq_max {bs : List Byte} {o : Nat} (he : o % 2 = 0) (h : o + 2 ≤ bs.length) (claimed : Sum16) :
    (sumWords 0 (patch bs o (beBytes 2 claimed.toNat)) == 0xFFFF) = true ↔
      endAround (wideSum (zeroField bs o)) + claimed.toNat = 0xFFFF ∨
      endAround (wideSum (zeroField bs o)) + claimed.toNat = 2 * 0xFFFF := by
  have hle := endAround_le (wideSum (zeroField bs o))
  have hlt := claimed.isLt
  rw [beq_iff_eq, eq_max_iff_toNat, toNat_sumWords_zero, endAround_wideSum_patch he h]
  exact endAround_eq_max (by omega)

/-- Settles O43: the one sum that only the test in place accepts is that of 0xFFFF and 0xFFFF. -/
theorem validateZeroCorner : Obligations.ValidateZeroCorner := by
  refine ⟨fun bytes coff claimed he h => ?_, fun bytes coff hmax => wideSum_eq_zero.1 (cksum_eq_max.1 hmax)⟩
  have hle := endAround_le (wideSum (zeroField bytes coff))
  have hlt := claimed.isLt
  rw [← Bool.not_eq_true, ne_eq, Bool.eq_iff_iff, validate_eq_true, sumInPlace_eq_max he h, cksum_eq_zero,
    eq_max_iff_toNat]
  omega

end Sys2Proof.Machine
end

section
/-! SUPPORT. The statements of `spec/42_checksum.md` on the two commands (rules R133, R135): once the checks of rule R90
have passed, the command's rule is what it does. -/

namespace Sys2Proof.Machine

open Sys2Proof

theorem permitted_csCompute {p : Phase} (h : p ≠ .failed) : permitted .csCompute p = true := by
  cases p with
  | config => rfl
  | run => rfl
  | failed => exact absurd rfl h

theorem permitted_csValidate {p : Phase} (h : p ≠ .failed) : permitted .csValidate p = true := permitted_csCompute h

theorem coffLegal_of_even {coff : BitVec 16} {p : List Byte} (he : coff.toNat % 2 = 0) (h : coff.toNat + 2 ≤ p.length) :
    coffLegal coff p = true := by
  have hbit : coff.getLsbD 0 = false := by
    rw [BitVec.getLsbD, Nat.testBit_zero, he]
    rfl
  rw [coffLegal, hbit, decide_eq_true h]
  rfl

/-- The HIT flag of a validation is whether the recomputed checksum is the claimed one. -/
theorem hitFlag_validate (bs : List Byte) (o : Nat) (claimed : Sum16) :
    hitFlag (validate bs o claimed) = if cksum (zeroField bs o) = claimed then 1#4 else 0#4 := by
  by_cases h : cksum (zeroField bs o) = claimed
  · rw [if_pos h, validate, beq_iff_eq.2 h]
    rfl
  · rw [if_neg h, validate, beq_eq_false_iff_ne.2 h]
    rfl

/-- Settles O44: the checks pass, and the rule answers. -/
theorem csComputeAnswers : Obligations.CsComputeAnswers := by
  intro s p hphase hroom hlen
  have hlegal : lenLegal s.params p = true := decide_eq_true hroom
  have hrun : exec (.csCompute p) s = ofAccess (csCompute p s) := by
    rw [exec_csCompute, checked_of_legal (permitted_csCompute hphase) hlegal]
  have hholds : s.HoldsFrame (loadPayload p s) p := loadPayload_holds hlen
  rw [csCompute_eq s hlen] at hrun
  exact ⟨_, hrun, answered_of_respond _ _ rfl, hholds.congr rfl rfl, rfl, rfl⟩

/-- Settles O45: the checks pass, and the rule answers; the field read as zero is the field patched to zero. -/
theorem csValidateAnswers : Obligations.CsValidateAnswers := by
  intro s coff claimed p hphase hroom hlen heven hcoff
  have hlegal : (lenLegal s.params p && coffLegal coff p) = true :=
    Bool.and_eq_true_iff.2 ⟨decide_eq_true hroom, coffLegal_of_even heven hcoff⟩
  have hrun : exec (.csValidate coff claimed p) s = ofAccess (csValidate coff claimed p s) := by
    rw [exec_csValidate, checked_of_legal (permitted_csValidate hphase) hlegal]
  have hholds : s.HoldsFrame (loadPayload p s) p := loadPayload_holds hlen
  rw [csValidate_eq s coff claimed hlen, hitFlag_validate, setWidth_eq_append, zeroField_eq_patch hcoff] at hrun
  exact ⟨_, hrun, rfl, rfl, hholds.congr rfl rfl, rfl, rfl⟩

end Sys2Proof.Machine
end

section
/-! SUPPORT. The statement of `spec/42_checksum.md` on emitted frames (rule R136): a header whose checksum has been
rewritten in full is valid, and every frame that a run emits has had its header's checksum rewritten last. -/

namespace Sys2Proof.Machine

open Sys2Proof

/-! ### Byte sequences -/

section
variable {f g : List Byte}

/-- The bytes just written are the bytes read back. -/
theorem field_bytes_patch_self {bs : List Byte} {o : Nat} (h : o + bs.length ≤ f.length) :
    ((patch f o bs).drop o).take bs.length = bs := by
  refine List.ext_getElem? fun i => ?_
  by_cases hi : i < bs.length
  · rw [getElem?_field_bytes hi, getElem?_patch h, if_pos (by omega), Nat.add_sub_cancel_left]
  · rw [List.getElem?_eq_none (by simp; omega), List.getElem?_eq_none (by omega)]

/-- A field written twice holds what was written last. -/
theorem patch_patch_self {xs ys : List Byte} {o : Nat} (h : o + xs.length ≤ f.length) (hl : ys.length = xs.length) :
    patch (patch f o xs) o ys = patch f o ys := by
  refine List.ext_getElem? fun i => ?_
  rw [getElem?_patch (by rw [length_patch h, hl]; exact h), getElem?_patch h, getElem?_patch (hl ▸ h), hl]
  split <;> rfl

/-- Writing inside a part of the frame is taking the part of the frame written. -/
theorem field_bytes_patch_inside {bs : List Byte} {p n o : Nat} (hn : p + n ≤ f.length) (ho : o + bs.length ≤ n) :
    ((patch f (p + o) bs).drop p).take n = patch ((f.drop p).take n) o bs := by
  have hlen := length_field_bytes hn
  have hpatch : p + o + bs.length ≤ f.length := by omega
  refine List.ext_getElem? fun i => ?_
  rw [getElem?_patch (by omega)]
  by_cases hi : i < n
  · rw [getElem?_field_bytes hi, getElem?_field_bytes hi, getElem?_patch hpatch, Nat.add_sub_add_left]
    exact if_congr (by omega) rfl rfl
  · have hlen' := length_field_bytes (hn.trans_eq (length_patch hpatch).symm)
    rw [if_neg (by omega), List.getElem?_eq_none (by omega), List.getElem?_eq_none (by omega)]

/-! ### The header depends on its bytes alone (rules R57, R168) -/

theorem ihlOf_congr (h : f[14]? = g[14]?) : ihlOf f = ihlOf g := by
  have hbyte : (f.drop 14).take 1 = (g.drop 14).take 1 := field_congr fun i h₁ h₂ => by
    obtain rfl : i = 14 := by omega
    exact h
  rw [ihlOf, field, hbyte, ← field, ← ihlOf]

theorem hlOf_congr (h : f[14]? = g[14]?) : hlOf f = hlOf g := congrArg (4 * ·) (ihlOf_congr h)

theorem roomForHeader.congr (hf : roomForHeader f) (hl : g.length = f.length) (h : f[14]? = g[14]?) :
    roomForHeader g := by
  obtain ⟨h34, h5, hhl⟩ := hf
  exact ⟨hl ▸ h34, ihlOf_congr h ▸ h5, hl ▸ hlOf_congr h ▸ hhl⟩

theorem headerValid.congr (hf : headerValid f) (hh : roomForHeader f)
    (h : ∀ i, 14 ≤ i → i < 14 + hlOf f → f[i]? = g[i]?) : headerValid g := by
  obtain ⟨-, h5, -⟩ := hh
  have h20 : 20 ≤ hlOf f := by unfold hlOf; omega
  have hhl : hlOf f = hlOf g := hlOf_congr (h 14 (by omega) (by omega))
  have hheader : headerOf f = headerOf g := by
    rw [headerOf, headerOf, ← hhl]
    exact field_congr h
  have hcsum : ipCsumOf f = ipCsumOf g :=
    congrArg beValue (field_congr (o := 24) (n := 2) fun i h₁ h₂ => h i (by omega) (by omega))
  unfold headerValid at hf ⊢
  rwa [← hheader, ← hcsum]

/-! ### The rewritten header is valid (rules R136, R137) -/

theorem ihlOf_patch {bs : List Byte} {o : Nat} (h : o + bs.length ≤ f.length) (ho : 15 ≤ o) :
    ihlOf (patch f o bs) = ihlOf f := by
  rw [ihlOf, field_patch h (Or.inl ho), ← ihlOf]

/-- The field holds the checksum of the header with the field zeroed, so recomputing it finds it valid. -/
theorem headerValid_rechecksummed (hh : roomForHeader f) : headerValid (rechecksummed f 24 14 (hlOf f)) := by
  obtain ⟨h34, h5, hhl⟩ := hh
  have h20 : 20 ≤ hlOf f := by unfold hlOf; omega
  have hlen : (rechecksummed f 24 14 (hlOf f)).length = f.length := length_rechecksummed (by omega)
  have hhl' : hlOf (rechecksummed f 24 14 (hlOf f)) = hlOf f :=
    congrArg (4 * ·) (ihlOf_patch (by rw [length_beBytes]; omega) (by decide))
  have hzeroed : zeroField (headerOf (rechecksummed f 24 14 (hlOf f))) 10 =
      ((patch f 24 [0, 0]).drop 14).take (hlOf f) := by
    rw [headerOf, hhl', zeroField_eq_patch (by rw [length_field_bytes (by omega)]; omega),
      ← field_bytes_patch_inside (by omega) (by simp; omega), rechecksummed,
      patch_patch_self (by rw [length_beBytes]; omega) (by rw [length_beBytes]; rfl)]
  have hcsum : ipCsumOf (rechecksummed f 24 14 (hlOf f)) =
      (cksum (((patch f 24 [0, 0]).drop 14).take (hlOf f))).toNat := by
    have hbytes := field_bytes_patch_self (f := f) (o := 24)
      (bs := beBytes 2 (cksum (((patch f 24 [0, 0]).drop 14).take (hlOf f))).toNat) (by rw [length_beBytes]; omega)
    rw [length_beBytes] at hbytes
    rw [ipCsumOf, field, rechecksummed, hbytes, beValue_beBytes]
    exact Nat.mod_eq_of_lt (BitVec.isLt _)
  rw [headerValid, hzeroed, hcsum]

theorem roomForHeader_ttlDecremented (hh : roomForHeader f) : roomForHeader (ttlDecremented f) := by
  have h34 := hh.1
  refine hh.congr (length_ttlDecremented (by omega)) ?_
  rw [getElem?_ttlDecremented h34, if_neg (by decide)]

theorem headerValid_mutatedFrame (hh : roomForHeader f) : headerValid (mutatedFrame f) := by
  have h34 := hh.1
  have hhl : hlOf (ttlDecremented f) = hlOf f :=
    congrArg (4 * ·) (ihlOf_patch (by rw [List.length_singleton]; omega) (by decide))
  rw [mutatedFrame, ← hhl]
  exact headerValid_rechecksummed (roomForHeader_ttlDecremented hh)

theorem roomForHeader_mutatedFrame (hh : roomForHeader f) : roomForHeader (mutatedFrame f) := by
  have h34 := hh.1
  refine hh.congr (length_mutatedFrame h34) ?_
  rw [getElem?_mutatedFrame h34 (by decide) (by decide), if_neg (by decide)]

theorem roomForHeader_swappedFrame (hh : roomForHeader f) : roomForHeader (swappedFrame f) := by
  have h34 := hh.1
  exact hh.congr (length_swappedFrame h34) (getElem?_swappedFrame h34 (by decide) (by decide)).symm

theorem headerValid_forwardedFrame (hh : roomForHeader f) (m src : LinkAddr) : headerValid (forwardedFrame f m src) :=
  (headerValid_mutatedFrame hh).congr (roomForHeader_mutatedFrame hh) fun _ hi _ =>
    (getElem?_forwardedFrame hh.1 m src (by omega)).symm

theorem headerValid_repliedFrame (hh : roomForHeader f) (hi : roomForIcmp f) : headerValid (repliedFrame f) := by
  have hs := roomForHeader_swappedFrame hh
  have hhl : hlOf (mutatedFrame (swappedFrame f)) = hlOf f := by
    refine hlOf_congr ?_
    rw [getElem?_mutatedFrame hs.1 (by decide) (by decide), if_neg (by decide),
      getElem?_swappedFrame hh.1 (by decide) (by decide)]
  refine (headerValid_mutatedFrame hs).congr (roomForHeader_mutatedFrame hs) fun i _ hlt => ?_
  exact (getElem?_repliedFrame hh hi (Or.inl (hhl ▸ hlt))).symm
end

/-! ### What a run emits (rules R161, R166, R172) -/

/-- If the run that ended in `t` emitted a frame, then it forwarded or answered the frame `f`, as its code says. -/
def Emits (f : List Byte) (t : State) : Prop :=
  (Response.ofWord t.rsp).flg = 1 → roomForHeader f ∧
    ((Response.ofWord t.rsp).a = 0 ∧ 1 ≤ ttlOf f ∧ (∃ m src, t.rspPayload = forwardedFrame f m src) ∨
    (Response.ofWord t.rsp).a = 1 ∧ roomForIcmp f ∧ t.rspPayload = repliedFrame f)

section
variable {s t : State} {f : List Byte}

/-- A response without HIT emits nothing. -/
theorem emits_of_noHit {r : Response} (hr : t.rsp = r.word) (hflg : r.flg = 0) : Emits f t := by
  intro hhit
  rw [hr, Response.ofWord_word, hflg] at hhit
  exact absurd hhit (by decide)

theorem emits_refuse (code : Status) : Emits f (refuse code s) := emits_of_noHit (r := Response.failure code 0) rfl rfl

theorem emits_frameRefused : Emits f (frameRefused s) :=
  emits_of_noHit (r := Response.failure .errFrame 0) rfl rfl

theorem emits_dropped (reason : DropReason) : Emits f (dropped reason s) :=
  emits_of_noHit (r := dropResponse reason) rfl rfl

theorem emits_forwarded (hh : roomForHeader f) (ht : 1 ≤ ttlOf f) (m src : LinkAddr) (ifid : BitVec 8)
    (len : BitVec 16) :
    Emits f ((s.respond (emitResponse .transmitted ifid len) (forwardedFrame f m src)).withStage .idle) := by
  have ha : (Response.ofWord (emitResponse .transmitted ifid len).word).a = 0 := by
    rw [Response.ofWord_word]
    rfl
  exact fun _ => ⟨hh, .inl ⟨ha, ht, m, src, rfl⟩⟩

theorem emits_replied (hh : roomForHeader f) (hi : roomForIcmp f) (ifid : BitVec 8) (len : BitVec 16) :
    Emits f ((s.respond (emitResponse .replied ifid len) (repliedFrame f)).withStage .idle) := by
  have ha : (Response.ofWord (emitResponse .replied ifid len).word).a = 1 := by
    rw [Response.ofWord_word]
    rfl
  exact fun _ => ⟨hh, .inr ⟨ha, hi, rfl⟩⟩

/-! ### The stages, the last one first -/

theorem State.HasInterface.of_onlyProcesses {i : BitVec 8} {e : IfEntry} (h : t.HasInterface i e)
    (ho : s.OnlyProcesses t) : s.HasInterface i e := by
  obtain ⟨-, -, -, -, -, -, hift, -⟩ := onlyProcesses_iff.1 ho
  rwa [State.HasInterface, ← hift]

/-- A run that resolved its next hop and ended has read the entry of the egress interface. -/
theorem hasInterface_of_s6MutateResolve {hl : Nat} {r : RouteEntry} {m : LinkAddr}
    (hm : nbrResolve s.nbr r.nextHop = some m) (ht : s6MutateResolve hl r s = .ok t) :
    ∃ out, s.HasInterface r.egress out := by
  obtain ⟨u, hu, ht⟩ := bind_eq_ok.1 ht
  obtain ⟨v, hv, ht⟩ := bind_eq_ok.1 ht
  have hsv : s.OnlyProcesses v := ((withStage_onlyProcesses s .s6MutateResolve).trans
    (decrementTtl_onlyProcesses hu)).trans (rewriteChecksum_onlyProcesses hv)
  obtain ⟨-, -, -, -, hnbr, -⟩ := onlyProcesses_iff.1 hsv
  rw [hnbr, hm] at ht
  obtain ⟨w, hw, ht⟩ := bind_eq_ok.1 ht
  obtain ⟨out, hout, -⟩ := bind_eq_ok.1 ht
  have hsw : s.OnlyProcesses w := (hsv.trans (withStage_onlyProcesses v .s7Forward)).trans (memWrite_onlyProcesses hw)
  exact ⟨out, (ifEntry_eq_ok hout).of_onlyProcesses hsw⟩

theorem s6MutateResolve_emits (h : s.FrameIs f) (hh : roomForHeader f) (httl : 1 ≤ ttlOf f) {r : RouteEntry}
    (ht : s6MutateResolve (hlOf f) r s = .ok t) : Emits f t := by
  obtain ⟨u, -, -, hmiss, hhit⟩ := s6MutateResolve_eq h hh r
  cases hm : nbrResolve s.nbr r.nextHop with
  | none =>
    obtain rfl := Except.ok.inj ((hmiss hm).symm.trans ht)
    exact emits_dropped _
  | some m =>
    obtain ⟨out, hout⟩ := hasInterface_of_s6MutateResolve hm ht
    obtain ⟨v, -, -, hv⟩ := hhit m out hm hout
    obtain rfl := Except.ok.inj (hv.symm.trans ht)
    exact emits_forwarded hh httl m out.linkAddress _ _

theorem s4RouteLookup_emits (h : s.FrameIs f) (hh : roomForHeader f) {dst : Addr}
    (ht : s4RouteLookup (hlOf f) dst s = .ok t) : Emits f t := by
  obtain ⟨u, hu, -, hnone, hzero, hrun⟩ := s4RouteLookup_eq h hh.1 (hlOf f) dst
  cases hr : (trieLookup dst s).best with
  | none =>
    obtain rfl := Except.ok.inj ((hnone hr).symm.trans ht)
    exact emits_dropped _
  | some r =>
    obtain httl | httl := Nat.eq_zero_or_pos (ttlOf f)
    · obtain rfl := Except.ok.inj ((hzero r hr httl).symm.trans ht)
      exact emits_dropped _
    · exact s6MutateResolve_emits (hu.1.congr rfl rfl) hh httl ((hrun r hr httl).symm.trans ht)

theorem s3CsumValidate_emits (h : s.FrameIs f) (hh : roomForHeader f) {dst : Addr}
    (ht : s3CsumValidate (hlOf f) dst s = .ok t) : Emits f t := by
  obtain ⟨u, hu, -, hvalid, hbad⟩ := s3CsumValidate_eq h hh dst
  by_cases hv : headerValid f
  · exact s4RouteLookup_emits hu.1 hh ((hvalid hv).symm.trans ht)
  · obtain rfl := Except.ok.inj ((hbad hv).symm.trans ht)
    exact emits_dropped _

theorem s2eEchoReply_emits (h : s.FrameIs f) (hh : roomForHeader f) {rx : BitVec 8}
    (ht : s2eEchoReply rx (hlOf f) s = .ok t) : Emits f t := by
  obtain ⟨hrefused, hreplied⟩ := s2eEchoReply_eq h hh rx
  by_cases hi : roomForIcmp f
  · obtain ⟨u, -, -, hu⟩ := hreplied hi
    obtain rfl := Except.ok.inj (hu.symm.trans ht)
    exact emits_replied hh hi _ _
  · obtain rfl := Except.ok.inj ((hrefused hi).symm.trans ht)
    exact emits_frameRefused

theorem s2SelfCheck_emits (h : s.FrameIs f) (hh : roomForHeader f) {rx : BitVec 8}
    (ht : s2SelfCheck rx (hlOf f) s = .ok t) : Emits f t := by
  have hown : ∃ own, s.HasInterface rx own := by
    obtain ⟨_, _, ht⟩ := bind_eq_ok.1 ht
    obtain ⟨own, hown, -⟩ := bind_eq_ok.1 ht
    exact ⟨own, (ifEntry_eq_ok hown).of_onlyProcesses (withStage_onlyProcesses s _)⟩
  obtain ⟨own, hown⟩ := hown
  rw [s2SelfCheck_eq h hh.1 hown] at ht
  split at ht
  · exact s2eEchoReply_emits (h.congr rfl rfl) hh ht
  · exact s3CsumValidate_emits (h.congr rfl rfl) hh ht

theorem s1Classify_emits (h : s.FrameIs f) {rx : BitVec 8} (ht : s1Classify rx s = .ok t) : Emits f t := by
  rw [s1Classify_eq h rx] at ht
  split at ht
  · obtain rfl := Except.ok.inj ht
    exact emits_frameRefused
  · split at ht
    · obtain rfl := Except.ok.inj ht
      exact emits_dropped _
    · split at ht
      · obtain rfl := Except.ok.inj ht
        exact emits_frameRefused
      · next hroom =>
        have hh : roomForHeader f := by unfold roomForHeader; omega
        exact s2SelfCheck_emits (h.congr rfl rfl) hh ht

/-- A PKT.PROCESS emits the forwarded frame or the reply, or nothing. -/
theorem exec_pktProcess_emits {rx : BitVec 8} (hlen : f.length < 2 ^ 16) (ht : exec (.pktProcess rx f) s = .next t) :
    Emits f t := by
  rw [exec_pktProcess] at ht
  obtain ⟨-, rfl⟩ | ⟨-, -, rfl⟩ | ⟨-, -, hrule⟩ := checked_eq_next ht
  · exact emits_refuse _
  · exact emits_refuse _
  · exact s1Classify_emits (loadPayload_holds hlen).1 (ofAccess_eq_next.1 hrule)
end

/-- Settles O58: both frames that a run can emit are as long as the frame received, and their headers are valid. -/
theorem emittedHeaderIsValid : Obligations.EmittedHeaderIsValid := by
  intro s t rx f hruns ht hhit
  obtain ⟨hh, ⟨-, -, m, src, hpayload⟩ | ⟨-, hi, hpayload⟩⟩ := exec_pktProcess_emits hruns.len ht hhit
  · rw [hpayload]
    exact ⟨headerValid_forwardedFrame hh m src, length_forwardedFrame hh.1 m src⟩
  · rw [hpayload]
    exact ⟨headerValid_repliedFrame hh hi, length_repliedFrame hh hi⟩

end Sys2Proof.Machine
end

section
/-! SUPPORT. The statements of `spec/43_neighbor_table.md`: what the search of the table finds, what NB.RESOLVE answers
for it, and what NB.INSERT does when its checks pass and when one fails. -/

namespace Sys2Proof.Machine

open Sys2Proof

/-! ### The search of the table (rule R151) -/

section
variable {nbr nbr' : List NeighborEntry} {a : Addr}

/-- The entry found is the one with the address that has no other such entry before it. -/
theorem nbrResolve_eq_some_iff {m : LinkAddr} :
    nbrResolve nbr a = some m ↔
      ∃ e before after, nbr = before ++ e :: after ∧ (∀ x ∈ before, x.ip ≠ a) ∧ e.ip = a ∧ e.linkAddress = m := by
  simp only [nbrResolve, Option.map_eq_some_iff, List.find?_eq_some_iff_append, beq_iff_eq, Bool.not_eq_true',
    beq_eq_false_iff_ne]
  constructor
  · rintro ⟨e, ⟨hip, before, after, hsplit, hbefore⟩, hm⟩
    exact ⟨e, before, after, hsplit, hbefore, hip, hm⟩
  · rintro ⟨e, before, after, hsplit, hbefore, hip, hm⟩
    exact ⟨e, ⟨hip, before, after, hsplit, hbefore⟩, hm⟩

theorem nbrResolve_eq_none_iff : nbrResolve nbr a = none ↔ ∀ e ∈ nbr, e.ip ≠ a := by
  simp only [nbrResolve, Option.map_eq_none_iff, List.find?_eq_none, beq_iff_eq, ne_eq]

/-- With distinct addresses the place of the entry in the table plays no part: no entry before it has its address. -/
theorem nbrResolve_eq_some_iff_mem (h : (nbr.map NeighborEntry.ip).Nodup) {m : LinkAddr} :
    nbrResolve nbr a = some m ↔ ∃ e ∈ nbr, e.ip = a ∧ e.linkAddress = m := by
  rw [nbrResolve_eq_some_iff]
  constructor
  · rintro ⟨e, before, after, rfl, -, hip, hm⟩
    exact ⟨e, List.mem_append_cons_self, hip, hm⟩
  · rintro ⟨e, he, hip, hm⟩
    obtain ⟨before, after, rfl⟩ := List.append_of_mem he
    rw [List.map_append, List.map_cons] at h
    obtain ⟨-, -, hdisjoint⟩ := List.nodup_append.1 h
    have hbefore : ∀ x ∈ before, x.ip ≠ a := fun x hx =>
      hip ▸ hdisjoint x.ip (List.mem_map_of_mem hx) e.ip List.mem_cons_self
    exact ⟨e, before, after, rfl, hbefore, hip, hm⟩

/-- A permutation has the same members, so it resolves alike. -/
theorem nbrResolve_perm (h : (nbr.map NeighborEntry.ip).Nodup) (hp : nbr'.Perm nbr) :
    nbrResolve nbr' a = nbrResolve nbr a := by
  have h' : (nbr'.map NeighborEntry.ip).Nodup := (hp.map NeighborEntry.ip).nodup_iff.2 h
  refine Option.ext fun m => ?_
  simp only [nbrResolve_eq_some_iff_mem h, nbrResolve_eq_some_iff_mem h', hp.mem_iff]
end

/-- Settles O34, from what the search finds in any table and in one whose addresses are distinct. -/
theorem resolveIsExactMatch : Obligations.ResolveIsExactMatch := by
  intro nbr a
  refine ⟨fun before e after hsplit hbefore hip => ?_, nbrResolve_eq_none_iff.2, fun hdistinct => ⟨fun m => ?_, ?_⟩⟩
  · exact nbrResolve_eq_some_iff.2 ⟨e, before, after, hsplit, hbefore, hip, rfl⟩
  · exact nbrResolve_eq_some_iff_mem hdistinct
  · exact fun nbr' hperm => nbrResolve_perm hdistinct hperm

/-! ### NB.RESOLVE (rule R153) -/

/-- In RUN a resolution runs its rule. -/
theorem exec_nbResolve_of_run {s : State} (h : s.phase = .run) (ip : Addr) :
    exec (.nbResolve ip) s = .next (nbResolve ip s) := by
  rw [exec_nbResolve]
  exact checked_of_legal (by rw [h]; rfl) rfl

theorem nbResolve_rsp (ip : Addr) (s : State) :
    (nbResolve ip s).rsp = (neighborResponse (nbrResolve s.nbr ip)).word := rfl

theorem nbResolve_onlyResponds (ip : Addr) (s : State) : s.OnlyResponds (nbResolve ip s) := rfl

/-- The response of a hit: the link address is split over the low half of `B` and `C` (rules R82, R83). -/
theorem neighborResponse_some_word (m : LinkAddr) :
    (neighborResponse (some m)).word =
      0#4 ++ 1#4 ++ 0#8 ++ 0#16 ++ 0#32 ++ (0#16 ++ m.extractLsb' 32 16) ++ m.extractLsb' 0 32 := by
  rw [neighborResponse, setWidth_eq_append]
  rfl

theorem neighborResponse_none_word : (neighborResponse none).word = 0 := Response.okay_word

/-- Settles O33: the response is that of what the search finds. -/
theorem nbResolveAnswers : Obligations.NbResolveAnswers := by
  intro s ip hp
  refine ⟨nbResolve ip s, exec_nbResolve_of_run hp ip, fun before e after hsplit hbefore hip => ?_, fun hnone => ?_, rfl,
    nbResolve_onlyResponds ip s⟩
  · have hfound : nbrResolve s.nbr ip = some e.linkAddress :=
      nbrResolve_eq_some_iff.2 ⟨e, before, after, hsplit, hbefore, hip, rfl⟩
    rw [nbResolve_rsp, hfound, neighborResponse_some_word]
  · rw [nbResolve_rsp, nbrResolve_eq_none_iff.2 hnone, neighborResponse_none_word]

/-! ### NB.INSERT (rule R152) -/

section
variable {s : State} {ip : Addr} {mac : LinkAddr}

/-- In CONFIG an insertion into the neighbour table runs its rule. -/
theorem exec_nbInsert_of_config (h : s.phase = .config) (ip : Addr) (mac : LinkAddr) :
    exec (.nbInsert ip mac) s = .next (nbInsert { ip := ip, linkAddress := mac } s) := by
  rw [exec_nbInsert]
  exact checked_of_legal (by rw [h]; rfl) rfl

/-- The duplicate test of NB.INSERT. -/
theorem any_ip_iff {nbr : List NeighborEntry} : nbr.any (fun x => x.ip == ip) = true ↔ ∃ e ∈ nbr, e.ip = ip := by
  simp only [List.any_eq_true, beq_iff_eq]

/-- The duplicate test comes first, so the count plays no part. -/
theorem nbInsert_of_known (h : ∃ e ∈ s.nbr, e.ip = ip) :
    nbInsert { ip := ip, linkAddress := mac } s = loadFail .nbrDup s := by
  rw [nbInsert, if_pos (any_ip_iff.2 h)]

theorem nbInsert_of_new (h : ∀ e ∈ s.nbr, e.ip ≠ ip) :
    nbInsert { ip := ip, linkAddress := mac } s =
      if s.nbrCnt.toNat = s.params.nbrCap then loadFail .nbrFull s
      else succeed (s.withNbr (s.nbr ++ [{ ip := ip, linkAddress := mac }]) (s.nbrCnt + 1)) := by
  have hnew : ¬s.nbr.any (fun x => x.ip == ip) = true := by
    rw [any_ip_iff]
    rintro ⟨e, he, hip⟩
    exact h e he hip
  rw [nbInsert, if_neg hnew]
end

/-- Settles O31: both checks of the rule pass. -/
theorem nbInsertAppends : Obligations.NbInsertAppends := by
  intro s ip mac hp hnew hroom
  have hrun := exec_nbInsert_of_config hp ip mac
  rw [nbInsert_of_new hnew, if_neg hroom] at hrun
  exact ⟨_, hrun, rfl, rfl, succeed_answered _, rfl⟩

/-- Settles O32, by the check that fails. -/
theorem nbInsertLoadFailures : Obligations.NbInsertLoadFailures := by
  intro s ip mac hp
  have hrun := exec_nbInsert_of_config hp ip mac
  refine ⟨fun hknown => ?_, fun hnew hfull => ?_⟩
  · rw [nbInsert_of_known hknown] at hrun
    exact ⟨_, hrun, loadFail_loadFailed .nbrDup s⟩
  · rw [nbInsert_of_new hnew, if_pos hfull] at hrun
    exact ⟨_, hrun, loadFail_loadFailed .nbrFull s⟩

end Sys2Proof.Machine
end

section
/-! SUPPORT. The statements of `spec/44_forwarding_pipeline.md`: how far a run gets by what its frame is, how it ends
there, and what each ending changes. -/

namespace Sys2Proof.Machine

open Sys2Proof

/-! ### A run under way (rules R160, R162) -/

/-- `u` is a state of a PKT.PROCESS that began in `s`: its frame is now `g`, and nothing but what the pipeline works on
has changed. -/
structure State.InRun (s u : State) (g : List Byte) : Prop where
  frame : s.HoldsFrame u g
  rest : s.OnlyProcesses u

section
variable {s u v : State} {f g : List Byte}

theorem State.InRun.trans (h : s.InRun u f) (hf : u.HoldsFrame v g) (ho : u.OnlyProcesses v)
    (hl : g.length = f.length) : s.InRun v g :=
  ⟨h.frame.trans hf hl, h.rest.trans ho⟩

theorem State.InRun.withStage (h : s.InRun u f) (g : Stage) : s.InRun (u.withStage g) f :=
  ⟨h.frame.congr rfl rfl, h.rest.trans (withStage_onlyProcesses u g)⟩

theorem State.InRun.hasInterface_iff (h : s.InRun u f) {i : BitVec 8} {e : IfEntry} :
    u.HasInterface i e ↔ s.HasInterface i e := by
  obtain ⟨-, -, -, -, -, -, hift, -⟩ := onlyProcesses_iff.1 h.rest
  rw [State.HasInterface, State.HasInterface, hift]

theorem State.InRun.nbr_eq (h : s.InRun u f) : u.nbr = s.nbr := by
  obtain ⟨-, -, -, -, hnbr, -⟩ := onlyProcesses_iff.1 h.rest
  exact hnbr

theorem State.InRun.trieLookup_best (h : s.InRun u f) (a : Addr) : (trieLookup a u).best = (trieLookup a s).best := by
  obtain ⟨-, -, htrie, -⟩ := onlyProcesses_iff.1 h.rest
  exact trieLookup_best_congr htrie a

theorem loadPayload_inRun (hlen : f.length < 2 ^ 16) : s.InRun (loadPayload f s) f :=
  ⟨loadPayload_holds hlen, loadPayload_onlyProcesses s f⟩

/-! ### How a run ends (rules R161, R162, R164, R167) -/

theorem State.InRun.frameRefused (h : s.InRun u g) :
    (frameRefused u).Answered 4 0 ∧ s.HoldsFrame (frameRefused u) g ∧ s.OnlyProcesses (frameRefused u) ∧
      (frameRefused u).stage = .idle :=
  ⟨⟨rfl, rfl⟩, h.frame.congr rfl rfl, h.rest.trans (frameRefused_onlyProcesses u), rfl⟩

theorem State.InRun.dropped (h : s.InRun u g) (reason : DropReason) :
    (dropped reason u).Answered 0 (reason.code.setWidth 32) ∧ s.HoldsFrame (dropped reason u) g ∧
      s.OnlyProcesses (dropped reason u) ∧ (dropped reason u).stage = .idle :=
  ⟨⟨rfl, rfl⟩, h.frame.congr rfl rfl, h.rest.trans (dropped_onlyProcesses u reason), rfl⟩

/-- A run that emits answers HIT, the outcome code, the interface and the frame's length (rules R82, R162). -/
theorem State.InRun.emitted (h : s.InRun u g) (o : PipeOutcome) (ifid : BitVec 8) :
    ((u.respond (emitResponse o ifid u.flen) g).withStage .idle).rsp =
        0#4 ++ 1#4 ++ ifid ++ BitVec.ofNat 16 g.length ++ o.code.setWidth 32 ++ 0#32 ++ 0#32 ∧
      s.HoldsFrame ((u.respond (emitResponse o ifid u.flen) g).withStage .idle) g ∧
      s.OnlyProcesses ((u.respond (emitResponse o ifid u.flen) g).withStage .idle) := by
  refine ⟨?_, h.frame.congr rfl rfl, h.rest.trans (respond_onlyProcesses u (emitResponse o ifid u.flen) g)⟩
  rw [← h.frame.1.flen, BitVec.ofNat_toNat, BitVec.setWidth_eq]
  rfl
end

/-! ### How far a run gets (rules R163 to R170) -/

section
variable {s : State} {rx : BitVec 8} {f : List Byte} {own : IfEntry}

theorem exec_eq_s1Classify (h : s.PktRuns rx f) :
    exec (.pktProcess rx f) s = ofAccess (s1Classify rx (loadPayload f s)) := by
  have hroom : lenLegal s.params f = true := decide_eq_true h.room
  have hifid : ifidLegal s.params rx = true := decide_eq_true h.ifid
  rw [exec_pktProcess]
  exact checked_of_legal (by rw [h.phase]; rfl) (by rw [hroom, hifid]; rfl)

/-- An IPv4 frame with room for its header gets to the self-destined check. -/
theorem exec_eq_s2SelfCheck (h : s.PktRuns rx f) (he : etherTypeOf f = 0x0800) (hh : roomForHeader f) :
    ∃ u, s.InRun u f ∧ exec (.pktProcess rx f) s = ofAccess (s2SelfCheck rx (hlOf f) u) := by
  have hload := loadPayload_inRun (s := s) h.len
  refine ⟨_, hload.withStage .s1Classify, ?_⟩
  obtain ⟨h34, h5, hhl⟩ := hh
  rw [exec_eq_s1Classify h, s1Classify_eq hload.frame.1, if_neg (by omega), if_neg (not_not_intro he),
    if_neg (by omega)]

/-- The self-destined check parts the reply from the forward path. -/
theorem exec_eq_of_ipv4 (h : s.PktIsIpv4 rx f own) :
    ∃ u, s.InRun u f ∧ exec (.pktProcess rx f) s =
      ofAccess (if ipDstOf f = own.ip then s2eEchoReply rx (hlOf f) u
        else s3CsumValidate (hlOf f) (ipDstOf f) u) := by
  obtain ⟨u, hu, hrun⟩ := exec_eq_s2SelfCheck h.toPktRuns h.etherType h.header
  exact ⟨_, hu.withStage .s2SelfCheck, by
    rw [hrun, s2SelfCheck_eq hu.frame.1 h.header.1 (hu.hasInterface_iff.2 h.own)]⟩

theorem exec_eq_s2eEchoReply (h : s.PktIsIpv4 rx f own) (hself : ipDstOf f = own.ip) :
    ∃ u, s.InRun u f ∧ exec (.pktProcess rx f) s = ofAccess (s2eEchoReply rx (hlOf f) u) := by
  obtain ⟨u, hu, hrun⟩ := exec_eq_of_ipv4 h
  exact ⟨u, hu, by rw [hrun, if_pos hself]⟩

theorem exec_eq_s3CsumValidate (h : s.PktIsIpv4 rx f own) (hother : ipDstOf f ≠ own.ip) :
    ∃ u, s.InRun u f ∧ exec (.pktProcess rx f) s = ofAccess (s3CsumValidate (hlOf f) (ipDstOf f) u) := by
  obtain ⟨u, hu, hrun⟩ := exec_eq_of_ipv4 h
  exact ⟨u, hu, by rw [hrun, if_neg hother]⟩

/-- A frame to be forwarded whose header is valid gets to the route lookup. -/
theorem exec_eq_s4RouteLookup (h : s.PktIsIpv4 rx f own) (hother : ipDstOf f ≠ own.ip) (hvalid : headerValid f) :
    ∃ u, s.InRun u f ∧ exec (.pktProcess rx f) s = ofAccess (s4RouteLookup (hlOf f) (ipDstOf f) u) := by
  obtain ⟨u, hu, hrun⟩ := exec_eq_s3CsumValidate h hother
  obtain ⟨v, hv, ho, hnext, -⟩ := s3CsumValidate_eq hu.frame.1 h.header (ipDstOf f)
  exact ⟨v, hu.trans hv ho rfl, by rw [hrun, hnext hvalid]⟩

/-- With a route and TTL at least 1 it gets to the mutation. -/
theorem exec_eq_s6MutateResolve (h : s.PktIsIpv4 rx f own) (hother : ipDstOf f ≠ own.ip) (hvalid : headerValid f)
    {r : RouteEntry} (hroute : (trieLookup (ipDstOf f) s).best = some r) (httl : 1 ≤ ttlOf f) :
    ∃ u, s.InRun u f ∧ exec (.pktProcess rx f) s = ofAccess (s6MutateResolve (hlOf f) r u) := by
  obtain ⟨u, hu, hrun⟩ := exec_eq_s4RouteLookup h hother hvalid
  obtain ⟨v, hv, ho, -, -, hnext⟩ := s4RouteLookup_eq hu.frame.1 h.header.1 (hlOf f) (ipDstOf f)
  exact ⟨_, (hu.trans hv ho rfl).withStage .s5TtlCheck,
    by rw [hrun, hnext r ((hu.trieLookup_best _).trans hroute) httl]⟩
end

/-! ### Frames that are refused or dropped before the forward path (rules R163, R164, R167) -/

/-- Settles O48: checks (a) to (d) end stage S1, checks (e) and (f) stage S2E, all on the frame as loaded. -/
theorem malformedFrameRefused : Obligations.MalformedFrameRefused := by
  refine ⟨fun s rx f hruns hbad => ?_, fun s rx f own hipv4 hself hroom => ?_⟩
  · have hload := loadPayload_inRun (s := s) hruns.len
    refine ⟨_, ?_, (hload.withStage .s1Classify).frameRefused⟩
    rw [exec_eq_s1Classify hruns, s1Classify_eq hload.frame.1]
    obtain hshort | ⟨h14, hether, hroom⟩ := hbad
    · rw [if_pos hshort]
      rfl
    · unfold roomForHeader at hroom
      rw [if_neg (by omega), if_neg (not_not_intro hether), if_pos (by omega)]
      rfl
  · obtain ⟨u, hu, hrun⟩ := exec_eq_s2eEchoReply hipv4 hself
    refine ⟨_, ?_, (hu.withStage .s2eEchoReply).frameRefused⟩
    obtain ⟨hrefused, -⟩ := s2eEchoReply_eq hu.frame.1 hipv4.header rx
    rw [hrun, hrefused hroom]
    rfl

/-- Settles O49. -/
theorem nonIpv4Dropped : Obligations.NonIpv4Dropped := by
  intro s rx f hruns h14 hether
  have hload := loadPayload_inRun (s := s) hruns.len
  refine ⟨_, ?_, (hload.withStage .s1Classify).dropped .unsupportedProtocol⟩
  rw [exec_eq_s1Classify hruns, s1Classify_eq hload.frame.1, if_neg (by omega), if_pos hether]
  rfl

/-! ### The reply (rule R166) -/

/-- Settles O50: stage S2E asks nothing of the frame but room for its ICMP segment. -/
theorem selfDestinedReplied : Obligations.SelfDestinedReplied := by
  intro s rx f own hipv4 hself hroom
  obtain ⟨u, hu, hrun⟩ := exec_eq_s2eEchoReply hipv4 hself
  obtain ⟨-, hreplied⟩ := s2eEchoReply_eq hu.frame.1 hipv4.header rx
  obtain ⟨v, hv, ho, he⟩ := hreplied hroom
  have hlen := length_repliedFrame hipv4.header hroom
  obtain ⟨hrsp, hframe, hrest⟩ := (hu.trans hv ho hlen).emitted .replied rx
  rw [hlen] at hrsp
  exact ⟨_, by rw [hrun, he]; rfl, hrsp, rfl, hframe, hrest, rfl⟩

/-! ### The forward path (rules R168 to R172) -/

/-- Settles O51. -/
theorem badChecksumDropped : Obligations.BadChecksumDropped := by
  intro s rx f own hipv4 hother hbad
  obtain ⟨u, hu, hrun⟩ := exec_eq_s3CsumValidate hipv4 hother
  obtain ⟨v, hv, ho, -, hdrop⟩ := s3CsumValidate_eq hu.frame.1 hipv4.header (ipDstOf f)
  exact ⟨_, by rw [hrun, hdrop hbad]; rfl, (hu.trans hv ho rfl).dropped .badChecksum⟩

/-- Settles O52: the lookup finds nothing, and the TTL has not been read yet. -/
theorem noRouteDropped : Obligations.NoRouteDropped := by
  intro s rx f own hipv4 hother hvalid hnone
  obtain ⟨u, hu, hrun⟩ := exec_eq_s4RouteLookup hipv4 hother hvalid
  obtain ⟨v, hv, ho, hdrop, -, -⟩ := s4RouteLookup_eq hu.frame.1 hipv4.header.1 (hlOf f) (ipDstOf f)
  obtain ⟨-, -, hmiss, -⟩ := trieLookup_spec (ipDstOf f) s
  have hbest : (trieLookup (ipDstOf f) u).best = none := (hu.trieLookup_best _).trans (hmiss hnone)
  exact ⟨_, by rw [hrun, hdrop hbest]; rfl, (hu.trans hv ho rfl).dropped .noRoute⟩

/-- Settles O53: the TTL is read in stage S5, before the mutation of stage S6. -/
theorem ttlZeroDropped : Obligations.TtlZeroDropped := by
  intro s rx f own r hipv4 hother hvalid hroute httl
  obtain ⟨u, hu, hrun⟩ := exec_eq_s4RouteLookup hipv4 hother hvalid
  obtain ⟨v, hv, ho, -, hdrop, -⟩ := s4RouteLookup_eq hu.frame.1 hipv4.header.1 (hlOf f) (ipDstOf f)
  have hbest : (trieLookup (ipDstOf f) u).best = some r := (hu.trieLookup_best _).trans hroute
  exact ⟨_, by rw [hrun, hdrop r hbest httl]; rfl, ((hu.trans hv ho rfl).withStage .s5TtlCheck).dropped .ttlExceeded⟩

/-- Settles O54: stage S6 resolves the next hop after it has rewritten the header. -/
theorem neighborMissDropped : Obligations.NeighborMissDropped := by
  intro s rx f own r hipv4 hother hvalid hroute httl hnone
  obtain ⟨u, hu, hrun⟩ := exec_eq_s6MutateResolve hipv4 hother hvalid hroute httl
  obtain ⟨v, hv, ho, hmiss, -⟩ := s6MutateResolve_eq hu.frame.1 hipv4.header r
  have hresolve : nbrResolve u.nbr r.nextHop = none := hu.nbr_eq ▸ nbrResolve_eq_none_iff.2 hnone
  exact ⟨_, by rw [hrun, hmiss hresolve]; rfl,
    (hu.trans hv ho (length_mutatedFrame hipv4.header.1)).dropped .neighborMiss⟩

/-- Settles O55: stage S7 writes the two link addresses over the mutated frame. -/
theorem routedFrameTransmitted : Obligations.RoutedFrameTransmitted := by
  intro s rx f own out r m hipv4 hother hvalid hroute httl hresolve hout
  obtain ⟨u, hu, hrun⟩ := exec_eq_s6MutateResolve hipv4 hother hvalid hroute httl
  obtain ⟨-, -, -, -, hhit⟩ := s6MutateResolve_eq hu.frame.1 hipv4.header r
  obtain ⟨v, hv, ho, he⟩ := hhit m out (hu.nbr_eq ▸ hresolve) (hu.hasInterface_iff.2 hout)
  have hlen := length_forwardedFrame hipv4.header.1 m out.linkAddress
  obtain ⟨hrsp, hframe, hrest⟩ := (hu.trans hv ho hlen).emitted .transmitted r.egress
  rw [hlen] at hrsp
  exact ⟨_, by rw [hrun, he]; rfl, hrsp, rfl, hframe, hrest, rfl⟩

/-! ### Which bytes a rewriting changes (rule R173) -/

section
variable {f : List Byte} {o : Nat}

theorem changed_mutatedFrame (h : 34 ≤ f.length) (hne : (mutatedFrame f)[o]? ≠ f[o]?) : o ∈ [22, 24, 25] := by
  by_contra hout
  simp only [List.mem_cons, List.not_mem_nil, or_false, not_or] at hout
  obtain ⟨h22, h24, h25⟩ := hout
  exact hne (by rw [getElem?_mutatedFrame h h24 h25, if_neg h22])

theorem changed_forwardedFrame (h : 34 ≤ f.length) {m src : LinkAddr} (hne : (forwardedFrame f m src)[o]? ≠ f[o]?) :
    o < 12 ∨ o ∈ [22, 24, 25] := by
  obtain hlink | hlink := Nat.lt_or_ge o 12
  · exact .inl hlink
  · rw [getElem?_forwardedFrame h m src hlink] at hne
    exact .inr (changed_mutatedFrame h hne)

theorem changed_repliedFrame (hh : roomForHeader f) (hi : roomForIcmp f) (hne : (repliedFrame f)[o]? ≠ f[o]?) :
    o < 12 ∨ o ∈ [22, 24, 25] ∨ (26 ≤ o ∧ o < 34) ∨ (14 + hlOf f ≤ o ∧ o < 18 + hlOf f) := by
  have h34 := hh.1
  by_cases hicmp : 14 + hlOf f ≤ o ∧ o < 18 + hlOf f
  · exact .inr (.inr (.inr hicmp))
  · rw [getElem?_repliedFrame hh hi (by omega)] at hne
    by_cases hswapped : o < 12 ∨ (26 ≤ o ∧ o < 34)
    · exact hswapped.imp id fun hip => .inr (.inl hip)
    · rw [← getElem?_swappedFrame h34 (by omega) (by omega)] at hne
      exact .inr (.inl (changed_mutatedFrame (h34.trans_eq (length_swappedFrame h34).symm) hne))
end

/-! ### Every way a run can end -/

/-- How a run of the frame `f` that began in `s` ended in `t`: with the frame kept, with the mutated frame after a
neighbour miss, or with the frame it emitted. -/
inductive RunEnd (s : State) (f : List Byte) (t : State) : Prop where
  | kept {st : BitVec 4} {a : BitVec 32} (answer : t.Answered st a) (frame : s.HoldsFrame t f)
  | missed (room : roomForHeader f) (answer : t.Answered 0 6) (frame : s.HoldsFrame t (mutatedFrame f))
  | transmitted {m src : LinkAddr} (room : roomForHeader f) (flg : (Response.ofWord t.rsp).flg = 1)
      (a : (Response.ofWord t.rsp).a = 0) (frame : s.HoldsFrame t (forwardedFrame f m src))
  | replied (room : roomForHeader f) (icmp : roomForIcmp f) (flg : (Response.ofWord t.rsp).flg = 1)
      (a : (Response.ofWord t.rsp).a = 1) (frame : s.HoldsFrame t (repliedFrame f))

/-- The fields that tell the endings apart are read back from the response. -/
theorem flg_a_of_rsp {t : State} {st flg : BitVec 4} {ifid : BitVec 8} {len : BitVec 16} {a : BitVec 32}
    (h : t.rsp = st ++ flg ++ ifid ++ len ++ a ++ 0#32 ++ 0#32) :
    (Response.ofWord t.rsp).flg = flg ∧ (Response.ofWord t.rsp).a = a := by
  have hword : t.rsp = Response.word { st, flg, ifid, len, a, b := 0, c := 0 } := h
  rw [hword, Response.ofWord_word]
  exact ⟨rfl, rfl⟩

section
variable {s t : State} {rx : BitVec 8} {f : List Byte} {own : IfEntry}

/-- A step has one next state, so an ending that is known to occur with the frame kept is the run's ending. -/
theorem runEnd_of_kept {st : BitVec 4} {a : BitVec 32}
    (h : ∃ t, exec (.pktProcess rx f) s = .next t ∧ t.Answered st a ∧ s.HoldsFrame t f ∧ s.OnlyProcesses t ∧
      t.stage = .idle)
    (ht : exec (.pktProcess rx f) s = .next t) : RunEnd s f t := by
  obtain ⟨t', ht', hans, hframe, -⟩ := h
  obtain rfl := Host.Outcome.next.inj (ht'.symm.trans ht)
  exact .kept hans hframe

/-- A run that compared the destination and ended has read the entry of the receiving interface. -/
theorem hasInterface_of_s2SelfCheck {hl : Nat} (ht : s2SelfCheck rx hl s = .ok t) : ∃ own, s.HasInterface rx own := by
  obtain ⟨_, -, ht⟩ := bind_eq_ok.1 ht
  obtain ⟨own, hown, -⟩ := bind_eq_ok.1 ht
  exact ⟨own, ifEntry_eq_ok hown⟩

/-- The route's egress interface has been set wherever a run got past its next hop and ended. -/
theorem runEnd_of_route (h : s.PktIsIpv4 rx f own) (hother : ipDstOf f ≠ own.ip) (hvalid : headerValid f)
    {r : RouteEntry} (hroute : (trieLookup (ipDstOf f) s).best = some r)
    (ht : exec (.pktProcess rx f) s = .next t) : RunEnd s f t := by
  obtain httl | httl := Nat.eq_zero_or_pos (ttlOf f)
  · exact runEnd_of_kept (ttlZeroDropped s rx f own r h hother hvalid hroute httl) ht
  · cases hresolve : nbrResolve s.nbr r.nextHop with
    | none =>
      obtain ⟨t', ht', hans, hframe, -⟩ := neighborMissDropped s rx f own r h hother hvalid hroute httl
        (nbrResolve_eq_none_iff.1 hresolve)
      obtain rfl := Host.Outcome.next.inj (ht'.symm.trans ht)
      exact .missed h.header hans hframe
    | some m =>
      obtain ⟨u, hu, hrun⟩ := exec_eq_s6MutateResolve h hother hvalid hroute httl
      obtain ⟨out, hout⟩ := hasInterface_of_s6MutateResolve (hu.nbr_eq ▸ hresolve)
        (ofAccess_eq_next.1 (hrun.symm.trans ht))
      obtain ⟨t', ht', hrsp, -, hframe, -⟩ := routedFrameTransmitted s rx f own out r m h hother hvalid hroute httl
        hresolve (hu.hasInterface_iff.1 hout)
      obtain rfl := Host.Outcome.next.inj (ht'.symm.trans ht)
      obtain ⟨hflg, ha⟩ := flg_a_of_rsp hrsp
      exact .transmitted h.header hflg ha hframe

theorem runEnd_of_ipv4 (h : s.PktIsIpv4 rx f own) (ht : exec (.pktProcess rx f) s = .next t) : RunEnd s f t := by
  by_cases hself : ipDstOf f = own.ip
  · by_cases hicmp : roomForIcmp f
    · obtain ⟨t', ht', hrsp, -, hframe, -⟩ := selfDestinedReplied s rx f own h hself hicmp
      obtain rfl := Host.Outcome.next.inj (ht'.symm.trans ht)
      obtain ⟨hflg, ha⟩ := flg_a_of_rsp hrsp
      exact .replied h.header hicmp hflg ha hframe
    · obtain ⟨-, hrefused⟩ := malformedFrameRefused
      exact runEnd_of_kept (hrefused s rx f own h hself hicmp) ht
  · by_cases hvalid : headerValid f
    · obtain ⟨-, hnone⟩ | ⟨-, r, -, hroute, -⟩ := trieLookup_cases (ipDstOf f) s
      · exact runEnd_of_kept (noRouteDropped s rx f own h hself hvalid hnone) ht
      · exact runEnd_of_route h hself hvalid hroute ht
    · exact runEnd_of_kept (badChecksumDropped s rx f own h hself hvalid) ht

/-- The statements on the single endings leave none out. -/
theorem runEnd_of_exec (h : s.PktRuns rx f) (ht : exec (.pktProcess rx f) s = .next t) : RunEnd s f t := by
  by_cases hbad : f.length < 14 ∨ (14 ≤ f.length ∧ etherTypeOf f = 0x0800 ∧ ¬roomForHeader f)
  · obtain ⟨hrefused, -⟩ := malformedFrameRefused
    exact runEnd_of_kept (hrefused s rx f h hbad) ht
  · by_cases hether : etherTypeOf f = 0x0800
    · have hh : roomForHeader f := by
        by_contra hroom
        exact hbad ((Nat.lt_or_ge f.length 14).imp id fun h14 => ⟨h14, hether, hroom⟩)
      obtain ⟨u, hu, hrun⟩ := exec_eq_s2SelfCheck h hether hh
      obtain ⟨own, hown⟩ := hasInterface_of_s2SelfCheck (ofAccess_eq_next.1 (hrun.symm.trans ht))
      exact runEnd_of_ipv4 ⟨h, hether, hh, hu.hasInterface_iff.1 hown⟩ ht
    · have h14 : 14 ≤ f.length := by omega
      exact runEnd_of_kept (nonIpv4Dropped s rx f h h14 hether) ht

/-- Whatever the ending, the frame has kept its length. -/
theorem RunEnd.exists_frame (h : RunEnd s f t) : ∃ g, g.length = f.length ∧ s.HoldsFrame t g := by
  cases h with
  | kept _ hframe => exact ⟨f, rfl, hframe⟩
  | missed hh _ hframe => exact ⟨_, length_mutatedFrame hh.1, hframe⟩
  | transmitted hh _ _ hframe => exact ⟨_, length_forwardedFrame hh.1 _ _, hframe⟩
  | replied hh hi _ _ hframe => exact ⟨_, length_repliedFrame hh hi, hframe⟩

theorem RunEnd.noFrame (h : RunEnd s f t) (hflg : (Response.ofWord t.rsp).flg = 0) : t.rspPayload = [] := by
  cases h with
  | kept hans _ => exact hans.2
  | missed _ hans _ => exact hans.2
  | transmitted _ hhit _ _ => exact absurd (hhit.symm.trans hflg) (by decide)
  | replied _ _ hhit _ _ => exact absurd (hhit.symm.trans hflg) (by decide)

theorem RunEnd.changed (h : RunEnd s f t) {o : Nat} (ho : o < f.length) (hne : t.fb.read o ≠ f[o]?) :
    (t.Answered 0 6 ∧ o ∈ [22, 24, 25]) ∨
    ((Response.ofWord t.rsp).flg = 1 ∧ (Response.ofWord t.rsp).a = 0 ∧ (o < 12 ∨ o ∈ [22, 24, 25])) ∨
    ((Response.ofWord t.rsp).flg = 1 ∧ (Response.ofWord t.rsp).a = 1 ∧
      (o < 12 ∨ o ∈ [22, 24, 25] ∨ (26 ≤ o ∧ o < 34) ∨ (14 + hlOf f ≤ o ∧ o < 18 + hlOf f))) := by
  cases h with
  | kept _ hframe => exact absurd (hframe.1.bytes o ho) hne
  | missed hh hans hframe =>
    rw [hframe.1.bytes o (ho.trans_eq (length_mutatedFrame hh.1).symm)] at hne
    exact .inl ⟨hans, changed_mutatedFrame hh.1 hne⟩
  | transmitted hh hflg ha hframe =>
    rw [hframe.1.bytes o (ho.trans_eq (length_forwardedFrame hh.1 _ _).symm)] at hne
    exact .inr (.inl ⟨hflg, ha, changed_forwardedFrame hh.1 hne⟩)
  | replied hh hi hflg ha hframe =>
    rw [hframe.1.bytes o (ho.trans_eq (length_repliedFrame hh hi).symm)] at hne
    exact .inr (.inr ⟨hflg, ha, changed_repliedFrame hh hi hne⟩)
end

/-- Settles O56, over every way a run can end. -/
theorem pipelineWritesOnlyItsFields : Obligations.PipelineWritesOnlyItsFields := by
  intro s t rx f hruns ht
  have hend := runEnd_of_exec hruns ht
  obtain ⟨g, hlen, hframe, hbeyond⟩ := hend.exists_frame
  obtain ⟨hrest, -⟩ := pktProcess_frame (ofAccess_eq_next.1 ((exec_eq_s1Classify hruns).symm.trans ht))
  exact ⟨hrest, hframe.flen.trans hlen, fun o ho => hbeyond o (hlen ▸ ho), hend.noFrame, fun o => hend.changed⟩

/-! ### The TTL of an emitted frame (rule R178) -/

section
variable {f g : List Byte}

theorem ttlOf_congr (h : f[22]? = g[22]?) : ttlOf f = ttlOf g :=
  congrArg beValue (field_congr (o := 22) (n := 1) fun i h₁ h₂ => by
    obtain rfl : i = 22 := by omega
    exact h)

theorem ttl_mutatedFrame (h : 34 ≤ f.length) :
    (mutatedFrame f)[22]? = some (BitVec.ofNat 8 (if ttlOf f = 0 then 255 else ttlOf f - 1)) := by
  rw [getElem?_mutatedFrame h (by decide) (by decide), if_pos rfl, Option.some_inj]
  refine BitVec.eq_of_toNat_eq ?_
  simp only [BitVec.toNat_ofNat]
  split <;> omega

theorem ttl_forwardedFrame (h : 34 ≤ f.length) (httl : 1 ≤ ttlOf f) (m src : LinkAddr) :
    (forwardedFrame f m src)[22]? = some (BitVec.ofNat 8 (ttlOf f - 1)) := by
  rw [getElem?_forwardedFrame h m src (by decide), ttl_mutatedFrame h, if_neg (by omega)]

/-- The swap and the ICMP bytes leave the TTL alone. -/
theorem ttl_repliedFrame (hh : roomForHeader f) (hi : roomForIcmp f) :
    (repliedFrame f)[22]? = some (BitVec.ofNat 8 (if ttlOf f = 0 then 255 else ttlOf f - 1)) := by
  have ⟨h34, h5, _⟩ := hh
  have hswap : ttlOf (swappedFrame f) = ttlOf f := ttlOf_congr (getElem?_swappedFrame h34 (by decide) (by decide))
  have hhl : 22 < 14 + hlOf f := by unfold hlOf; omega
  rw [getElem?_repliedFrame hh hi (.inl hhl), ttl_mutatedFrame (h34.trans_eq (length_swappedFrame h34).symm), hswap]
end

/-- Settles O57: both frames that a run can emit carry the TTL of the mutation. -/
theorem emittedTtl : Obligations.EmittedTtl := by
  intro s t rx f hruns ht hhit
  obtain ⟨hh, ⟨ha, httl, m, src, hpayload⟩ | ⟨ha, hi, hpayload⟩⟩ := exec_pktProcess_emits hruns.len ht hhit
  · exact .inl ⟨ha, httl, hpayload ▸ ttl_forwardedFrame hh.1 httl m src⟩
  · exact .inr ⟨ha, hpayload ▸ ttl_repliedFrame hh hi⟩

end Sys2Proof.Machine
end

section
/-! SUPPORT. The statements of `spec/45_config_status.md`: what a command in RUN leaves unchanged (rule R200), and what
IF.SET, CFG.SEAL and ST.READ do (rules R201 to R203). -/

namespace Sys2Proof.Machine

open Sys2Proof

/-! ### In RUN the tables stand (rules R38 (h), R200) -/

theorem refuse_onlyProcesses (code : Status) (s : State) : s.OnlyProcesses (refuse code s) := respond_onlyProcesses ..

theorem refuseReserved_onlyProcesses (op : Opcode) (s : State) : s.OnlyProcesses (refuseReserved op s) := by
  obtain h | h := refuseReserved_cases op s
  · exact h ▸ refuse_onlyProcesses .errOperand s
  · exact h ▸ refuse_onlyProcesses .errPhase s

/-- The four commands that write a table or the phase are not permitted in RUN (rule R225), and no other command writes
one. -/
theorem exec_onlyProcesses_of_run {i : Instr} {s t : State} (hrun : s.phase = .run) (h : exec i s = .next t) :
    s.OnlyProcesses t := by
  obtain ⟨-, rfl⟩ | ⟨-, rfl⟩ | ⟨hp, hrule⟩ := exec_cases h
  · exact refuse_onlyProcesses ..
  · exact refuse_onlyProcesses ..
  · rw [hrun] at hp
    rcases hrule with ⟨ifid, ip, mac, rfl, -⟩ | ⟨e, rfl, -⟩ | ⟨e, rfl, -⟩ | ⟨rfl, -⟩ | ⟨-, rfl⟩ | ⟨ip, -, rfl⟩ |
      ⟨ip, -, rfl⟩ | ⟨p, -, -, hr⟩ | ⟨coff, claimed, p, -, -, -, hr⟩ | ⟨ifid, p, -, -, -, hr⟩
    iterate 4 exact absurd hp Bool.false_ne_true
    · exact respond_onlyProcesses ..
    · exact (trieLookup_onlyProcesses ..).trans (respond_onlyProcesses ..)
    · exact respond_onlyProcesses ..
    · exact (csCompute_frame hr).1
    · exact (csValidate_frame hr).1
    · exact (pktProcess_frame hr).1

/-- The phase, the tables and their counts are the same in both states. -/
def State.SameTables (s t : State) : Prop :=
  t.phase = s.phase ∧ t.trie = s.trie ∧ t.nodeCnt = s.nodeCnt ∧ t.nbr = s.nbr ∧ t.nbrCnt = s.nbrCnt ∧ t.ift = s.ift

theorem State.OnlyProcesses.sameTables {s t : State} (h : s.OnlyProcesses t) : s.SameTables t := by
  obtain ⟨-, hphase, htrie, hnodeCnt, hnbr, hnbrCnt, hift, -⟩ := onlyProcesses_iff.1 h
  exact ⟨hphase, htrie, hnodeCnt, hnbr, hnbrCnt, hift⟩

/-- What the host presents is in no table. -/
theorem State.SameTables.of_acceptCommand {c : Command} {later : List HostEvent} {s t : State}
    (h : (acceptCommand c later s).SameTables t) : s.SameTables t := h

theorem step_sameTables_of_run {s t : State} (hrun : s.phase = .run) (hhost : ∀ later, s.host ≠ .reset :: later)
    (h : step s = .next t) : s.SameTables t := by
  obtain ⟨-, rfl⟩ | ⟨later, hreset, -⟩ | ⟨c, later, -, -, ⟨-, rfl⟩ | ⟨op, -, rfl⟩ | ⟨i, -, he⟩⟩ := step_cases h
  · exact (State.OnlyProcesses.refl t).sameTables
  · exact absurd hreset (hhost later)
  · exact (refuse_onlyProcesses .errOpcode _).sameTables.of_acceptCommand
  · exact (refuseReserved_onlyProcesses op _).sameTables.of_acceptCommand
  · have hrun' : (acceptCommand c later s).phase = .run := hrun
    exact (exec_onlyProcesses_of_run hrun' he).sameTables.of_acceptCommand

/-- Settles O15: what is the same as in `s` is, of the phase, RUN. -/
theorem runTablesImmutable : Obligations.RunTablesImmutable := by
  intro s t hrun hhost h
  obtain ⟨hphase, htables⟩ := step_sameTables_of_run hrun hhost h
  exact ⟨hphase.trans hrun, htables⟩

/-! ### IF.SET (rule R201) -/

section
variable {s : State} {ifid : BitVec 8} {ip : Addr} {mac : LinkAddr}

/-- In CONFIG an interface is set by its rule. -/
theorem exec_ifSet_of_config (h : s.phase = .config) (ifid : BitVec 8) (ip : Addr) (mac : LinkAddr) :
    exec (.ifSet ifid ip mac) s = .next (ifSet ifid ip mac s) := by
  rw [exec_ifSet]
  exact checked_of_legal (by rw [h]; rfl) rfl

theorem ifSet_of_exists (h : ifid.toNat < s.params.nIf) :
    ifSet ifid ip mac s =
      succeed (s.withIft (s.ift.set ifid.toNat { valid := true, ip := ip, linkAddress := mac })) := by
  have hlegal : ifidLegal s.params ifid = true := decide_eq_true h
  rw [ifSet, if_pos hlegal]

theorem ifSet_of_missing (h : s.params.nIf ≤ ifid.toNat) : ifSet ifid ip mac s = loadFail .badIfid s := by
  rw [ifSet, ifidLegal_eq_false h]
  rfl
end

/-- Settles O35: the table has an entry for every interface that exists, and one place of it is written. -/
theorem ifSetWritesEntry : Obligations.IfSetWritesEntry := by
  intro s ifid ip mac hp hlen hi
  have hrun := exec_ifSet_of_config hp ifid ip mac
  rw [ifSet_of_exists hi] at hrun
  have hplace : ifid.toNat < s.ift.length := hlen ▸ hi
  exact ⟨_, hrun, List.getElem?_set_self hplace, fun j hj => List.getElem?_set_ne hj.symm, succeed_answered _, rfl⟩

/-- Settles O36, by the one check of the rule. -/
theorem ifSetLoadFailure : Obligations.IfSetLoadFailure := by
  intro s ifid ip mac hp hi
  have hrun := exec_ifSet_of_config hp ifid ip mac
  rw [ifSet_of_missing hi] at hrun
  exact ⟨_, hrun, loadFail_loadFailed .badIfid s⟩

/-! ### CFG.SEAL (rule R202) -/

section
variable {s : State}

/-- In CONFIG a seal runs its rule. -/
theorem exec_cfgSeal_of_config (h : s.phase = .config) : exec .cfgSeal s = .next (cfgSeal s) := by
  rw [exec_cfgSeal]
  exact checked_of_legal (by rw [h]; rfl) rfl

theorem cfgSeal_of_all_valid (h : ∀ e ∈ s.ift, e.valid = true) : cfgSeal s = succeed (s.withPhase .run) := by
  rw [cfgSeal, if_pos (List.all_eq_true.2 h)]

theorem cfgSeal_of_not_valid (h : ∃ e ∈ s.ift, e.valid = false) : cfgSeal s = loadFail .ifMissing s := by
  have hmissing : s.ift.all IfEntry.valid = false := by simpa only [List.all_eq_false, Bool.not_eq_true] using h
  rw [cfgSeal, hmissing]
  rfl
end

/-- Settles O37, by whether every interface is set. -/
theorem cfgSealSealsOrFails : Obligations.CfgSealSealsOrFails := by
  intro s hp
  have hrun := exec_cfgSeal_of_config hp
  refine ⟨fun hvalid => ?_, fun hmissing => ?_⟩
  · rw [cfgSeal_of_all_valid hvalid] at hrun
    exact ⟨_, hrun, rfl, succeed_answered _, rfl⟩
  · rw [cfgSeal_of_not_valid hmissing] at hrun
    exact ⟨_, hrun, loadFail_loadFailed .ifMissing s⟩

/-! ### ST.READ (rule R203) -/

section
variable (s : State)

/-- Every phase permits ST.READ, so its rule always runs. -/
theorem exec_stRead_eq : exec .stRead s = .next (stRead s) := by
  rw [exec_stRead]
  exact checked_of_legal rfl rfl

theorem ifvCnt_eq : ifvCnt s = BitVec.ofNat 16 (s.ift.filter IfEntry.valid).length := by
  rw [ifvCnt, List.countP_eq_length_filter]

/-- The response of ST.READ, field by field. -/
theorem stRead_rsp :
    (stRead s).rsp =
      0#4 ++ 0#4 ++ 0#8 ++ 0#16 ++ (ifvCnt s ++ 0#14 ++ s.phase.code) ++ s.nodeCnt ++ s.nbrCnt := rfl

theorem stRead_onlyResponds : s.OnlyResponds (stRead s) := rfl
end

/-- Settles O38: the response holds the counts and the phase's code. -/
theorem stReadAnswers : Obligations.StReadAnswers := by
  intro s
  refine ⟨stRead s, exec_stRead_eq s, ?_, rfl, stRead_onlyResponds s⟩
  rw [stRead_rsp, ifvCnt_eq]
  cases s.phase with
  | config => rfl
  | run => rfl
  | failed => rfl

end Sys2Proof.Machine
end

section
/-! SUPPORT. The statements of `spec/60_exceptions.md`: the phase table (rule R225), and FAILED (rule R224). -/

namespace Sys2Proof.Machine

open Sys2Proof

/-! ### The phase table (rule R225) -/

theorem permitted_config_iff (op : Opcode) :
    permitted op .config = true ↔
      op ∈ [Opcode.ifSet, .rtInsert, .nbInsert, .cfgSeal, .stRead, .csCompute, .csValidate] := by
  cases op <;> decide

theorem permitted_run_iff (op : Opcode) :
    permitted op .run = true ↔ op ∈ [Opcode.stRead, .rtLookup, .nbResolve, .csCompute, .csValidate, .pktProcess] := by
  cases op <;> decide

theorem permitted_failed_iff (op : Opcode) : permitted op .failed = true ↔ op = .stRead := by
  cases op <;> decide

/-- Every command is the checks of rule R90 for its own opcode, before a rule. -/
theorem exec_eq_checked (i : Instr) (s : State) : ∃ ok rule, exec i s = checked i.opcode ok s rule := by
  cases i with
  | ifSet ifid ip mac => exact ⟨_, _, exec_ifSet s ifid ip mac⟩
  | rtInsert pfx mask nextHop ifid => exact ⟨_, _, exec_rtInsert s pfx mask nextHop ifid⟩
  | nbInsert ip mac => exact ⟨_, _, exec_nbInsert s ip mac⟩
  | cfgSeal => exact ⟨_, _, exec_cfgSeal s⟩
  | stRead => exact ⟨_, _, exec_stRead s⟩
  | rtLookup ip => exact ⟨_, _, exec_rtLookup s ip⟩
  | nbResolve ip => exact ⟨_, _, exec_nbResolve s ip⟩
  | csCompute p => exact ⟨_, _, exec_csCompute s p⟩
  | csValidate coff claimed p => exact ⟨_, _, exec_csValidate s coff claimed p⟩
  | pktProcess ifid p => exact ⟨_, _, exec_pktProcess s ifid p⟩

/-- The phase is checked before the operands and the command's rule. -/
theorem exec_of_phase {i : Instr} {s : State} (h : permitted i.opcode s.phase = false) :
    exec i s = .next (refuse .errPhase s) := by
  obtain ⟨ok, rule, he⟩ := exec_eq_checked i s
  rw [he]
  exact checked_of_phase h

/-- Settles O10: the table by evaluation, the refusals because the phase is the first check of every command. -/
theorem phaseTableEnforced : Obligations.PhaseTableEnforced := by
  refine ⟨fun op => ⟨permitted_config_iff op, permitted_run_iff op, permitted_failed_iff op⟩, fun i s h => ?_⟩
  exact ⟨_, exec_of_phase h, refuse_answered .errPhase s, refuse_onlyResponds .errPhase s⟩

/-! ### A command on the port, by its opcode (rules R90, R227) -/

section
variable {s : State} {c : Command} {later : List HostEvent}

theorem step_of_unknown (hc : s.Presents c later) (hop : ∀ op : Opcode, opField c.word ≠ op.code) :
    step s = .next (refuse .errOpcode (acceptCommand c later s)) := by
  obtain ⟨hh, hl⟩ := hc
  exact step_of_illegalOpcode hh (decode_illegalOpcode hl hop)

/-- A known opcode is refused for its reserved bits, or its instruction is executed. -/
theorem step_of_known {op : Opcode} (hc : s.Presents c later) (hop : opField c.word = op.code) :
    step s = .next (refuseReserved op (acceptCommand c later s)) ∨
      step s = exec (assemble op c) (acceptCommand c later s) := by
  obtain ⟨hh, hl⟩ := hc
  by_cases hm : c.word &&& op.mbz = 0
  · exact .inr (step_of_decode hh (decode_eq_ok.2 ⟨hl, op, hop, hm, rfl⟩))
  · exact .inl (step_of_reservedBits hh (decode_reservedBits hl hop hm))

/-- A command that the phase does not permit is ERR_PHASE, whatever its reserved bits. -/
theorem step_of_phase {op : Opcode} (hc : s.Presents c later) (hop : opField c.word = op.code)
    (hp : permitted op s.phase = false) : step s = .next (refuse .errPhase (acceptCommand c later s)) := by
  have hp' : permitted op (acceptCommand c later s).phase = false := hp
  obtain hstep | hstep := step_of_known hc hop
  · rw [hstep, refuseReserved, hp']
    rfl
  · rw [hstep]
    exact exec_of_phase ((opcode_assemble op c).symm ▸ hp')

/-- ST.READ runs in every phase, and neither it nor its refusal writes the phase. -/
theorem step_keeps_phase_of_stRead (hc : s.Presents c later) (hop : opField c.word = Opcode.code .stRead) :
    ∃ t, step s = .next t ∧ t.phase = s.phase := by
  obtain hstep | hstep := step_of_known hc hop
  · obtain ⟨-, hphase⟩ := refuseReserved_samePhase .stRead (acceptCommand c later s)
    exact ⟨_, hstep, hphase⟩
  · exact ⟨_, hstep.trans (exec_stRead_eq _), rfl⟩
end

/-! ### FAILED (rule R224) -/

/-- The values of `OP` that the phase FAILED refuses are codes of commands other than ST.READ. -/
theorem exists_code_of_mem {x : BitVec 8}
    (h : x ∈ ([0x01, 0x02, 0x03, 0x04, 0x10, 0x11, 0x20, 0x21, 0x30] : List (BitVec 8))) :
    ∃ op : Opcode, op ≠ .stRead ∧ x = op.code := by
  have hcodes : ([0x01, 0x02, 0x03, 0x04, 0x10, 0x11, 0x20, 0x21, 0x30] : List (BitVec 8)) =
      (Opcode.all.erase .stRead).map Opcode.code := by decide
  rw [hcodes] at h
  obtain ⟨op, hop, rfl⟩ := List.mem_map.1 h
  refine ⟨op, ?_, rfl⟩
  rintro rfl
  exact absurd hop (by decide)

theorem not_permitted_failed {op : Opcode} (h : op ≠ .stRead) : permitted op .failed = false :=
  Bool.eq_false_iff.2 fun hp => h ((permitted_failed_iff op).1 hp)

/-- Settles O13: in FAILED by the opcode on the port (none of the ten, ST.READ, or one of the nine that the phase
refuses); that every command gets a response is part of what the code tables say. -/
theorem failedLeftByResetOnly : Obligations.FailedLeftByResetOnly := by
  refine ⟨fun s c later hc hp => ?_, fun s later hh => ⟨_, step_of_reset hh, rfl⟩, fun s c later h hc => ?_⟩
  · by_cases hknown : ∃ op : Opcode, opField c.word = op.code
    · obtain ⟨op, hop⟩ := hknown
      by_cases hread : op = .stRead
      · subst hread
        obtain ⟨t, hstep, hphase⟩ := step_keeps_phase_of_stRead hc hop
        refine ⟨t, hstep, hphase.trans hp, fun hmem => absurd hop (ne_code_of_not_mem hmem _), fun hmem => ?_⟩
        exact absurd (hop ▸ hmem) (by decide)
      · have hstep := step_of_phase hc hop (hp ▸ not_permitted_failed hread)
        exact ⟨_, hstep, hp, fun hmem => absurd hop (ne_code_of_not_mem hmem op), fun _ => refuse_answered .errPhase _⟩
    · have hstep := step_of_unknown hc (not_exists.1 hknown)
      refine ⟨_, hstep, hp, fun _ => refuse_answered .errOpcode _, fun hmem => ?_⟩
      obtain ⟨op, -, hop⟩ := exists_code_of_mem hmem
      exact absurd ⟨op, hop⟩ hknown
  · obtain ⟨t, hstep, htables⟩ := step_ends h hc
    exact ⟨t, hstep, htables.status⟩

end Sys2Proof.Machine
end

section
/-! SUPPORT. The statement of `spec/70_reset_and_hazards.md` on a host that does nothing (rule R259) and on a pair that
is no command (rule R80). -/

namespace Sys2Proof.Machine

open Sys2Proof

/-- With no host event the block waits (rule R259; assumption 3). -/
theorem step_of_waiting {s : State} (hh : s.host = []) : step s = .next s := by
  rw [step, runEvent, hh]

/-- A pair whose payload length is not its `LEN` is stopped at the port, before it is accepted (rule R80). -/
theorem step_of_lengthMismatch {s : State} {c : Command} {later : List HostEvent}
    (hh : s.host = .command c :: later) (hl : c.payload.length ≠ (lenField c.word).toNat) :
    step s = .fault .notACommand := by
  rw [step_of_command hh, runCommand, decode_lengthMismatch hl]

/-- Settles O7: an empty host list is the waiting branch of the port, and a length mismatch is the first check of the
decoder. -/
theorem stepWaitsOrIsStuck : Obligations.StepWaitsOrIsStuck :=
  ⟨fun _ hh => step_of_waiting hh, fun _ _ _ hh hl => step_of_lengthMismatch hh hl⟩

end Sys2Proof.Machine
end
